-- ==== Sys2Proof/Word.lean ====
section
/-! DEFINITION. The 32-bit word of the register interface (00_scope.md R9) and the byte of the bus. -/

namespace Sys2Proof

/-- A 32-bit register or buffer word: bits 31 (most significant) to 0 (00_scope.md R9, R10). -/
abbrev Word := BitVec 32

end Sys2Proof
end

