-- ==== Sys2Proof/Syntax.lean ====
section
/-! DEFINITION. The thirteen commands of 30_encoding.md R83, one constructor per row of spec/opcode_table.json. -/

namespace Sys2Proof

/-- A decoded command. A format-A command carries its 24-bit operand field A as a number (R81, R82); a format-N command
carries nothing. The second operand of RDCODE, WRBS and SETBS is the ARG register as latched at issue (10_state.md R40),
so it is state, not syntax. -/
inductive Instr where
  /-- NOP (40_session_control.md R100). -/
  | nop
  /-- CLEAR (40_session_control.md R101). -/
  | clear
  /-- COUNT s (41_frequency_counter.md R110). -/
  | count (s : Nat)
  /-- BUILD (42_tree_builder.md R120). -/
  | build
  /-- ENC s (44_bitstream_encoder.md R150). -/
  | enc (s : Nat)
  /-- DEC (45_bitstream_decoder.md R170). -/
  | dec
  /-- RDFREQ s (41_frequency_counter.md R112). -/
  | rdfreq (s : Nat)
  /-- RDCODE s, k with k in ARG (43_code_assigner.md R143). -/
  | rdcode (s : Nat)
  /-- RDNODE i (42_tree_builder.md R125). -/
  | rdnode (i : Nat)
  /-- WRBS j, d with d in ARG (44_bitstream_encoder.md R154). -/
  | wrbs (j : Nat)
  /-- RDBS j (44_bitstream_encoder.md R156). -/
  | rdbs (j : Nat)
  /-- SETBS n with n in ARG (44_bitstream_encoder.md R158). -/
  | setbs
  /-- REWIND (44_bitstream_encoder.md R160). -/
  | rewind
deriving DecidableEq, Repr

/-- The two formats of 30_encoding.md R81. -/
inductive Format where
  /-- No operand: the field A must be 0. -/
  | N
  /-- The field A is an unsigned number. -/
  | A
deriving DecidableEq, Repr

/-- The format column of 30_encoding.md R83. -/
def Instr.format : Instr → Format
  | .nop | .clear | .build | .dec | .setbs | .rewind => .N
  | .count _ | .enc _ | .rdfreq _ | .rdcode _ | .rdnode _ | .wrbs _ | .rdbs _ => .A

end Sys2Proof
end

