-- ==== Sys2Proof/WellFormed.lean ====
section
/-! DEFINITION. Which commands a command word can carry: the operand of a format-A command fits the 24-bit field A
(30_encoding.md R80, R81). Whether its value is in range for the command is checked when the command runs (R85). -/

namespace Sys2Proof

/-- `a` fits the field A = w[31:8] (30_encoding.md R80). -/
def fitsOperand (a : Nat) : Bool := decide (a < 2 ^ 24)

/-- The command can be encoded: one check for each command with an operand field. -/
def Instr.wf : Instr → Bool
  | .nop => true
  | .clear => true
  | .count s => fitsOperand s
  | .build => true
  | .enc s => fitsOperand s
  | .dec => true
  | .rdfreq s => fitsOperand s
  | .rdcode s => fitsOperand s
  | .rdnode i => fitsOperand i
  | .wrbs j => fitsOperand j
  | .rdbs j => fitsOperand j
  | .setbs => true
  | .rewind => true

end Sys2Proof
end

