-- ==== Sys2Proof/Decode.lean ====
section
/-! DEFINITION. The decoder of 30_encoding.md R85, total on every 32-bit word and rejecting by name, and the encoder
written from the same opcode map (R83). -/

namespace Sys2Proof

/-- Why a word is no command (30_encoding.md R84). When such a word runs it raises IllegalCommand. -/
inductive DecodeError where
  /-- OP is 0x0D to 0xFF. -/
  | reservedOpcode (op : Nat)
  /-- A format-N opcode with A other than 0. -/
  | operandNotZero (op : Nat) (a : Nat)
deriving DecidableEq, Repr

/-- The field OP = w[7:0] (30_encoding.md R80). -/
def opField (w : Word) : BitVec 8 := w.extractLsb' 0 8

/-- The field A = w[31:8] (30_encoding.md R80). -/
def aField (w : Word) : BitVec 24 := w.extractLsb' 8 24

/-- The word whose fields are OP and A (30_encoding.md R80). -/
def mkWord (op : BitVec 8) (a : BitVec 24) : Word := a ++ op

/-- A format-N row: the command when A = 0, else IllegalCommand (30_encoding.md R81). -/
def formatN (op a : Nat) (i : Instr) : Except DecodeError Instr :=
  if a = 0 then .ok i else .error (.operandNotZero op a)

/-- The opcode map of 30_encoding.md R83 on the values of OP and A. -/
def decodeFields (op a : Nat) : Except DecodeError Instr :=
  match op with
  | 0x00 => formatN op a .nop
  | 0x01 => formatN op a .clear
  | 0x02 => .ok (.count a)
  | 0x03 => formatN op a .build
  | 0x04 => .ok (.enc a)
  | 0x05 => formatN op a .dec
  | 0x06 => .ok (.rdfreq a)
  | 0x07 => .ok (.rdcode a)
  | 0x08 => .ok (.rdnode a)
  | 0x09 => .ok (.wrbs a)
  | 0x0A => .ok (.rdbs a)
  | 0x0B => formatN op a .setbs
  | 0x0C => formatN op a .rewind
  | _ => .error (.reservedOpcode op)

/-- `decode(w)` of 30_encoding.md R85. A is taken as an unsigned number (R82). -/
def decode (w : Word) : Except DecodeError Instr :=
  decodeFields (opField w).toNat (aField w).toNat

/-- The opcode column of 30_encoding.md R83. -/
def Instr.opcode : Instr → BitVec 8
  | .nop => 0x00
  | .clear => 0x01
  | .count _ => 0x02
  | .build => 0x03
  | .enc _ => 0x04
  | .dec => 0x05
  | .rdfreq _ => 0x06
  | .rdcode _ => 0x07
  | .rdnode _ => 0x08
  | .wrbs _ => 0x09
  | .rdbs _ => 0x0A
  | .setbs => 0x0B
  | .rewind => 0x0C

/-- The value of the field A: the operand of a format-A command, 0 for format N (30_encoding.md R81). -/
def Instr.operand : Instr → Nat
  | .nop | .clear | .build | .dec | .setbs | .rewind => 0
  | .count s | .enc s | .rdfreq s | .rdcode s => s
  | .rdnode i => i
  | .wrbs j | .rdbs j => j

/-- The command word of a well-formed command (30_encoding.md R80, R83, R88). -/
def encode (i : Instr) : Word := mkWord i.opcode (BitVec.ofNat 24 i.operand)

/-- The instruction the decoder reads from a command word given as the number `w`, of which the table gives the low
`nbits` bits. Every command is exactly 32 bits long (30_encoding.md R86), so a longer one is none of this hardware's. -/
def decodeTableWord (nbits w : Nat) : Option Instr :=
  if nbits ≤ 32 then
    match decode (BitVec.ofNat 32 (w % 2 ^ nbits)) with
    | .ok i => some i
    | .error _ => none
  else none

end Sys2Proof
end

