-- ==== Sys2Proof/Machine/Bits.lean ====
section
/-! DEFINITION. Single bits of a word and the lanes of the register bus (00_scope.md R10, R11; 20_memory.md R62, R67, R68). -/

namespace Sys2Proof.Machine

open Sys2Proof

/-- Bit `k` of `w` becomes `b`, the other bits keep their values (00_scope.md R11). -/
def setBit (w : Word) (k : Nat) (b : Bool) : Word :=
  if b then w ||| BitVec.twoPow 32 k else w &&& ~~~BitVec.twoPow 32 k

/-- The word whose bits 0 to `n - 1` are `f 0` to `f (n - 1)`, and whose other bits are 0 (20_memory.md R68). -/
def wordOfBits (f : Nat → Bool) : Nat → Word
  | 0 => 0
  | n + 1 => setBit (wordOfBits f n) n (f n)

/-- Byte `k` of a word on the little-endian bus: bits 8k+7 to 8k (20_memory.md R62). -/
def byteLane (w : Word) (k : Nat) : Word := (w >>> (8 * k)) &&& 0xFF

/-- The halfword whose lower byte is byte `k` (20_memory.md R62). -/
def halfLane (w : Word) (k : Nat) : Word := (w >>> (8 * k)) &&& 0xFFFF

end Sys2Proof.Machine
end

