-- ==== Sys2Proof/Config.lean ====
section
/-! DEFINITION. The implementation parameters (00_scope.md R7, R9) and the one value the spec leaves open
(93_implementation_defined.md U1). The sizes derived from the parameters are in Machine/Params.lean. -/

namespace Sys2Proof

/-- The parameters of one block. They are fixed for the block, so the model carries them in State, where no step
changes them, and every claim can range over all of them (log 1). -/
structure Config where
  /-- `SYM_W`, the width of a symbol in bits (R7). -/
  symW  : Nat
  /-- `CNT_W`, the width of a count, of TOTAL and of a node frequency (R7). -/
  cntW  : Nat
  /-- `BS_CAP`, the capacity of the bitstream buffer in bits (R7). -/
  bsCap : Nat
  /-- `BASE`, the byte address of the register window (R9); no rule depends on it. The spec gives it
  neither an alignment nor a bound: any number is accepted (log 21). -/
  base  : Nat
deriving DecidableEq, Repr

/-- The reference configuration of R7. BASE is DESIGN CHOICE 0 (log 1). -/
def Config.reference : Config := { symW := 8, cntW := 32, bsCap := 65536, base := 0 }

/-- FREE VALUE (93_implementation_defined.md U1, 70_reset_and_hazards.md R214): how many host bus accesses the `n`-th
busy period (of a command or of the reset initialisation) still sees before it completes. Nothing is known of it but
that it is finite (log 5). -/
opaque Config.completionAccesses : Nat → Nat

end Sys2Proof
end

