-- ==== Sys2Proof/Machine/Params.lean ====
section
/-! DEFINITION. The sizes derived from the parameters (00_scope.md R8) and the legal ranges (R7). -/

namespace Sys2Proof

/-- The legal ranges of 00_scope.md R7. -/
def Config.legal (c : Config) : Bool :=
  decide (1 ≤ c.symW ∧ c.symW ≤ 23) && decide (1 ≤ c.cntW ∧ c.cntW ≤ 32) &&
    decide (32 ≤ c.bsCap ∧ c.bsCap ≤ 2 ^ 29 ∧ c.bsCap % 32 = 0)

/-- `NSYM`, the alphabet size (00_scope.md R8). -/
def Config.nsym (c : Config) : Nat := 2 ^ c.symW

/-- `NODE_CAP`, the nodes of the largest tree (00_scope.md R8). -/
def Config.nodeCap (c : Config) : Nat := 2 * c.nsym - 1

/-- `NIDX_W`, the width of a node index (00_scope.md R8). -/
def Config.nidxW (c : Config) : Nat := c.symW + 1

/-- `MAX_CODE_LEN`, the longest code (00_scope.md R8). -/
def Config.maxCodeLen (c : Config) : Nat := max 1 (c.nsym - 1)

/-- `CODE_WORDS = ceil(MAX_CODE_LEN / 32)`, the words RDCODE can read per code (00_scope.md R8). -/
def Config.codeWords (c : Config) : Nat := (c.maxCodeLen + 31) / 32

/-- `BS_WORDS`, the words of the bitstream buffer (00_scope.md R8). -/
def Config.bsWords (c : Config) : Nat := c.bsCap / 32

/-- `CNT_MAX`, the largest TOTAL (00_scope.md R8). -/
def Config.cntMax (c : Config) : Nat := 2 ^ c.cntW - 1

end Sys2Proof
end

