-- ==== Sys2Proof/Machine/State.lean ====
section
/-! DEFINITION. The state of the block, as plain data, and the state after reset (10_state.md, 70_reset_and_hazards.md
R200). The reasons a step can stop. -/

namespace Sys2Proof.Machine

open Sys2Proof

/-- STATUS.PHASE (10_state.md R29). -/
inductive Phase where
  /-- 0: the frequency table is being filled. -/
  | counting
  /-- 1: BUILD has built the tree and the code table. -/
  | ready
deriving DecidableEq, Repr

/-- The values STATUS.ERR takes (60_exceptions.md R180); codes 10 to 15 are never reported. -/
inductive Err where
  | ok
  | emptyInput
  | unknownSymbol
  | truncatedStream
  | illegalCommand
  | sequence
  | range
  | countOverflow
  | bsOverflow
  | invalidPath
deriving DecidableEq, Repr

/-- The reset input and its initialisation (70_reset_and_hazards.md R201, R202). -/
inductive ResetState where
  /-- Reset is asserted: the host must make no access. -/
  | asserted
  /-- Reset is released and the block is zeroing its tables: BUSY = 1. -/
  | initialising
  /-- Initialisation is complete. -/
  | running
deriving DecidableEq, Repr

/-- The command latch `LCMD = {valid, op[7:0], a[23:0], arg[31:0]}` (10_state.md R40). -/
structure Lcmd where
  valid : Bool
  op    : BitVec 8
  a     : BitVec 24
  arg   : Word
deriving DecidableEq, Repr

/-- One tree node `{leaf, sym, left, right, freq}` (10_state.md R42). -/
structure Node where
  leaf  : Bool
  sym   : Nat
  left  : Nat
  right : Nat
  freq  : Nat
deriving DecidableEq, Repr

/-- One CodeTable entry, as the sequence bit(0), bit(1), ..., bit(len-1) (10_state.md R43): len is the list's length.
The bits at k >= len are 0 in the spec's entry, so the sequence says all of it (log 3). -/
abbrev Code := List Bool

/-- A table indexed by numbers: the listed entries, indices strictly rising, none equal to what an unlisted index reads
as (log 2). -/
abbrev Table (α : Type) := List (Nat × α)

/-- The sizes of a host access in bytes: 1, 2 or 4 (20_memory.md R60). -/
inductive Size where
  | byte
  | half
  | word
deriving DecidableEq, Repr

/-- One thing the outside does to the block: a bus access (20_memory.md R61 to R66), the POLL loop of 30_encoding.md R88,
or an edge of the reset input (70_reset_and_hazards.md R201). -/
inductive HostStmt where
  /-- `MemRead(addr, n)`. -/
  | read (addr : Nat) (size : Size)
  /-- `MemWrite(addr, n, v)`. -/
  | write (addr : Nat) (size : Size) (v : Word)
  /-- Read STATUS repeatedly until BUSY = 0. -/
  | poll
  /-- Reset is asserted. -/
  | assertReset
  /-- Reset is released. -/
  | releaseReset
deriving DecidableEq, Repr

/-- The state of the block and of the host program that drives it. -/
structure State where
  /-- The parameters, which PARAM and BSCAP read (10_state.md R22, R23); no step changes them. -/
  cfg : Config
  /-- ARG (10_state.md R25). -/
  arg : Word
  /-- STATUS.PHASE (10_state.md R29). -/
  phase : Phase
  /-- STATUS.OVR (10_state.md R31). -/
  ovr : Bool
  /-- STATUS.ERR (10_state.md R32). -/
  err : Err
  /-- RESULT0 (10_state.md R33). -/
  result0 : Word
  /-- RESULT1 (10_state.md R33). -/
  result1 : Word
  /-- RESULT2 (10_state.md R33). -/
  result2 : Word
  /-- TOTAL (10_state.md R34); its width is kept by the invariant (log 4), as for the next four. -/
  total : Nat
  /-- NLEAF (10_state.md R35). -/
  nleaf : Nat
  /-- ROOT (10_state.md R36). -/
  root : Nat
  /-- BSLEN (10_state.md R37). -/
  bslen : Nat
  /-- BSRD (10_state.md R38). -/
  bsrd : Nat
  /-- LCMD (10_state.md R40). -/
  lcmd : Lcmd
  /-- FREQ (10_state.md R41). -/
  freq : Table Nat
  /-- NODE (10_state.md R42). -/
  node : Table Node
  /-- CODE (10_state.md R43). -/
  code : Table Code
  /-- BS (10_state.md R44). -/
  bs : Table Word
  /-- The reset input and its initialisation (70_reset_and_hazards.md R201). -/
  resetState : ResetState
  /-- The MODEL's own: the host statements still to be performed (70_reset_and_hazards.md R216; log 6). -/
  host : List HostStmt
  /-- The MODEL's own: the value the last host read returned, if any (log 7). -/
  busData : Option Word
  /-- The MODEL's own: how many more host accesses the current busy period may see (log 5). -/
  busyFor : Nat
  /-- The MODEL's own: how many busy periods have begun, the argument of the free value (log 5). -/
  issued : Nat
deriving DecidableEq, Repr

/-- The reasons the machine stops with a fault. There is none: an error of a command is a code in STATUS.ERR
(60_exceptions.md R181), and no access signals an error to the host bus (20_memory.md R63). So nobody raises one, which is
safe (log 17). -/
inductive Fault where
deriving DecidableEq, Repr

/-- The reasons a step is refused. -/
inductive Refusal where
  /-- Raised by exec's arm of an instruction that has no meaning in the model; no arm of this model does. Safe. -/
  | notModelled (mnemonic : String)
  /-- Raised by the host's step when it makes an access while reset is asserted: "a model refuses a program that does"
  (70_reset_and_hazards.md R202). Safe. -/
  | accessWhileResetAsserted
  /-- Raised by the host's step when an access lies outside the 64-byte window: the platform's concern, to be refused
  (20_memory.md R60, 93_implementation_defined.md U4). Safe. -/
  | accessOutsideWindow
  /-- Raised by step when the parameters are out of the range of 00_scope.md R7: "A model rejects parameters out of range"
  (92_eei_decisions.md D32, 93_implementation_defined.md U6). Safe. -/
  | parametersOutOfRange
deriving DecidableEq, Repr

/-- The state after reset initialisation of a block with parameters `c` (70_reset_and_hazards.md R200), with no host
statement to perform and nothing read yet. -/
def State.resetOf (c : Config) : State where
  cfg := c
  arg := 0
  phase := .counting
  ovr := false
  err := .ok
  result0 := 0
  result1 := 0
  result2 := 0
  total := 0
  nleaf := 0
  root := 0
  bslen := 0
  bsrd := 0
  lcmd := { valid := false, op := 0, a := 0, arg := 0 }
  freq := []
  node := []
  code := []
  bs := []
  resetState := .running
  host := []
  busData := none
  busyFor := 0
  issued := 0

/-- The state right after reset of the reference block (70_reset_and_hazards.md R200; log 1, log 16). -/
def State.reset : State := State.resetOf Config.reference

end Sys2Proof.Machine
end

