-- ==== Sys2Proof/Machine/Table.lean ====
section
/-! DEFINITION. Reading and writing one entry of a table, and the canonical form every table is kept in (log 2). `d` is
what an unlisted index reads as: the entry 70_reset_and_hazards.md R200 gives. -/

namespace Sys2Proof.Machine

open Sys2Proof

/-- The entry at index `k`. -/
def Table.get {α : Type} (d : α) : Table α → Nat → α
  | [], _ => d
  | (j, v) :: t, k => if j = k then v else Table.get d t k

/-- The table with the entry at index `k` set to `v`; writing the value an unlisted index reads as removes the entry. -/
def Table.set {α : Type} [DecidableEq α] (d : α) : Table α → Nat → α → Table α
  | [], k, v => if v = d then [] else [(k, v)]
  | (j, u) :: t, k, v =>
    if k < j then (if v = d then (j, u) :: t else (k, v) :: (j, u) :: t)
    else if k = j then (if v = d then t else (k, v) :: t)
    else (j, u) :: Table.set d t k v

/-- The canonical form of a table with indices below `n`: indices strictly rising, no entry that an unlisted index would
read as, no index out of the table. Equal tables are then equal lists. -/
abbrev Table.wf {α : Type} [DecidableEq α] (d : α) (n : Nat) (t : Table α) : Prop :=
  (t.map Prod.fst).Pairwise (· < ·) ∧ ∀ e ∈ t, e.2 ≠ d ∧ e.1 < n

end Sys2Proof.Machine
end

