-- ==== Sys2Proof/Machine/Ops.lean ====
section
/-! DEFINITION. The shared operations: the four tables, the end of a command (with or without an error), and the command
latch. -/

namespace Sys2Proof.Machine

open Sys2Proof

/-! ## The tables (10_state.md R41 to R44) -/

/-- The NODE entry after reset: every field 0 (70_reset_and_hazards.md R200). -/
def Node.zero : Node := { leaf := false, sym := 0, left := 0, right := 0, freq := 0 }

/-- `FREQ[s]` (10_state.md R41). -/
def freqAt (s : State) (k : Nat) : Nat := Table.get 0 s.freq k

/-- `NODE[i]` of a node table (10_state.md R42). -/
def nodeGet (t : Table Node) (i : Nat) : Node := Table.get Node.zero t i

/-- `NODE[i] <- nd` on a node table. -/
def nodeSet (t : Table Node) (i : Nat) (nd : Node) : Table Node := Table.set Node.zero t i nd

/-- `NODE[i]` (10_state.md R42). -/
def nodeAt (s : State) (i : Nat) : Node := nodeGet s.node i

/-- `CODE[s]` (10_state.md R43): the empty sequence when s has no code. -/
def codeAt (s : State) (k : Nat) : Code := Table.get [] s.code k

/-- `BS[j]` of a buffer (10_state.md R44). -/
def bsGet (t : Table Word) (j : Nat) : Word := Table.get 0 t j

/-- `BS[j]` (10_state.md R44). -/
def bsWord (s : State) (j : Nat) : Word := bsGet s.bs j

/-- `BSBIT(i)` of a buffer: bit i mod 32 of word i div 32 (00_scope.md R11, 20_memory.md R67). -/
def bitGet (t : Table Word) (i : Nat) : Bool := (bsGet t (i / 32)).getLsbD (i % 32)

/-- `BSBIT(i)` (00_scope.md R11). -/
def bsBit (s : State) (i : Nat) : Bool := bitGet s.bs i

/-- `BSBIT(i) <- b` on a buffer: the other 31 bits of the word are unchanged (00_scope.md R11). -/
def bitSet (t : Table Word) (i : Nat) (b : Bool) : Table Word :=
  Table.set 0 t (i / 32) (setBit (bsGet t (i / 32)) (i % 32) b)

/-- Writes the bits of `c` at stream positions `p`, `p + 1`, ... (44_bitstream_encoder.md R150). -/
def writeBits (t : Table Word) (p : Nat) : Code → Table Word
  | [] => t
  | b :: c => writeBits (bitSet t p b) (p + 1) c

/-- Every table of the block is in its canonical form, with indices in its range (10_state.md R41 to R44). This is the
form of the block's whole addressable storage (20_memory.md R60). -/
abbrev Memory.wf (s : State) : Prop :=
  Table.wf 0 s.cfg.nsym s.freq ∧ Table.wf Node.zero s.cfg.nodeCap s.node ∧ Table.wf [] s.cfg.nsym s.code ∧
    Table.wf 0 s.cfg.bsWords s.bs

/-! ## The end of a command (00_scope.md R13, 10_state.md R40, 60_exceptions.md R181) -/

/-- The completion of a command with error code `e`: STATUS.ERR is set, LCMD.valid and so STATUS.BUSY become 0
(10_state.md R40 item 3). -/
def complete (e : Err) (s : State) : State :=
  { s with err := e, lcmd := { s.lcmd with valid := false } }

/-- `finish`: the command's writes, made in `s`, are committed with ERR = 0 (00_scope.md R13). -/
def finish (s : State) : Host.Outcome State Fault Refusal := .next (complete .ok s)

/-- `raise E`, taking an error: `s` is the state BEFORE the command, so every write of the command is discarded; only ERR
and BUSY change, no vector is taken and no mode changes (60_exceptions.md R181). There is no return from an error
(R183). -/
def raise (e : Err) (s : State) : Host.Outcome State Fault Refusal := .next (complete e s)

/-! ## The command latch (10_state.md R40) -/

/-- The command word in the latch. -/
def latchedWord (s : State) : Word := mkWord s.lcmd.op s.lcmd.a

/-- An accepted write of `w` to CMD: the latch takes its fields and the ARG of this moment, BUSY becomes 1, and the busy
period lasts for a free number of host accesses (10_state.md R40, 93_implementation_defined.md U1). -/
def issue (w : Word) (s : State) : State :=
  { s with
    lcmd := { valid := true, op := opField w, a := aField w, arg := s.arg }
    busyFor := Config.completionAccesses s.issued
    issued := s.issued + 1 }

end Sys2Proof.Machine
end

