-- ==== Sys2Proof/Machine/Operands.lean ====
section
/-! DEFINITION. The operand forms and their range checks (30_encoding.md R81, R82). A is zero-extended and never scaled;
the checks are on its value. -/

namespace Sys2Proof.Machine

open Sys2Proof

/-- A symbol operand s = A is in range: s < NSYM (COUNT, ENC, RDFREQ, RDCODE). -/
def isSymbol (s : State) (a : Nat) : Bool := decide (a < s.cfg.nsym)

/-- A node index operand i = A is in range: i < 2*NLEAF - 1 (RDNODE). -/
def isNodeIndex (s : State) (i : Nat) : Bool := decide (i < 2 * s.nleaf - 1)

/-- A buffer word number j = A is in range: j < BS_WORDS (WRBS, RDBS). -/
def isBsWord (s : State) (j : Nat) : Bool := decide (j < s.cfg.bsWords)

/-- ARG as latched at issue (10_state.md R40): the second operand of RDCODE, WRBS and SETBS. -/
def latchedArg (s : State) : Word := s.lcmd.arg

/-- The code word number k = ARG is in range: k < CODE_WORDS (RDCODE). -/
def isCodeWord (s : State) (k : Nat) : Bool := decide (k < s.cfg.codeWords)

/-- The bitstream length n = ARG is in range: n <= BS_CAP (SETBS). -/
def isLength (s : State) (n : Nat) : Bool := decide (n ≤ s.cfg.bsCap)

/-- `zext_32` of a value that fits a 32-bit register (00_scope.md R10). -/
def zext32 (n : Nat) : Word := BitVec.ofNat 32 n

end Sys2Proof.Machine
end

