-- ==== Sys2Proof/Machine/CodeAssigner.lean ====
section
/-! DEFINITION. CodeAssign, the tree walk inside BUILD, and RDCODE (43_code_assigner.md R140, R143). -/

namespace Sys2Proof.Machine

open Sys2Proof

/-- The child a step along bit `b` leads to: left = 1, right = 0 (00_scope.md R15). -/
def child (nd : Node) (b : Bool) : Nat := if b then nd.left else nd.right

/-- The depth-first walk from node `v`, reached by the bits `path` (first bit nearest the root): at a leaf the path is
recorded as the code of its symbol, at an internal node the walk goes on to both children (R140). `fuel` bounds the
depth, which is at most NLEAF - 1 (R141). -/
def assignFrom (t : Table Node) : Nat → Nat → Code → Table Code → Table Code
  | 0, _, _, codes => codes
  | fuel + 1, v, path, codes =>
    if (nodeGet t v).leaf then Table.set [] codes (nodeGet t v).sym path
    else
      assignFrom t fuel (child (nodeGet t v) false) (path ++ [false])
        (assignFrom t fuel (child (nodeGet t v) true) (path ++ [true]) codes)

/-- `CodeAssign(root)` with n = NLEAF (R140). A one-leaf tree gives its symbol the one-bit code "0". -/
def codeAssign (t : Table Node) (n root : Nat) (codes : Table Code) : Table Code :=
  if (nodeGet t root).leaf then Table.set [] codes (nodeGet t root).sym [false]
  else assignFrom t n root [] codes

/-- The longest code: the maximum over s of CODE[s].len (42_tree_builder.md R120). -/
def longestCode (c : Config) (codes : Table Code) : Nat :=
  (List.range c.nsym).foldl (fun m k => max m (Table.get [] codes k).length) 0

/-- Word `k` of a code: bit j is code bit 32k + j, or 0 beyond the code (R143, 20_memory.md R68). -/
def codeWord (c : Code) (k : Nat) : Word := wordOfBits (fun j => c.getD (32 * k + j) false) 32

/-- RDCODE s, k (R143): k is ARG as latched at issue. -/
def execRdcode (a : Nat) (s : State) : Host.Outcome State Fault Refusal :=
  if s.phase ≠ .ready then raise .sequence s
  else if !isSymbol s a then raise .range s
  else if !isCodeWord s (latchedArg s).toNat then raise .range s
  else if (codeAt s a).length = 0 then raise .unknownSymbol s
  else finish { s with
    result0 := codeWord (codeAt s a) (latchedArg s).toNat
    result1 := zext32 (codeAt s a).length }

end Sys2Proof.Machine
end

