-- ==== Sys2Proof/Machine/BitstreamDecoder.lean ====
section
/-! DEFINITION. DEC and REWIND (45_bitstream_decoder.md R170, 44_bitstream_encoder.md R160). -/

namespace Sys2Proof.Machine

open Sys2Proof

/-- The walk of R170 from node `v` with `remaining` stream bits still to read, the next at position `p`: the leaf reached and
the position after its last bit, or nothing when the stream ends first. -/
def decodeWalk (t : Table Node) (bits : Table Word) : Nat → Nat → Nat → Option (Nat × Nat)
  | 0, _, _ => none
  | remaining + 1, p, v =>
    if (nodeGet t (child (nodeGet t v) (bitGet bits p))).leaf then some (child (nodeGet t v) (bitGet bits p), p + 1)
    else decodeWalk t bits remaining (p + 1) (child (nodeGet t v) (bitGet bits p))

/-- DEC's writes when a symbol is decoded: symbol `k`, code length consumed `n` (R170). -/
def emitSymbol (k n : Nat) (s : State) : State :=
  { s with result0 := zext32 k, result1 := zext32 n, bsrd := s.bsrd + n }

/-- DEC (R170). Its A must be 0, which the decoder checks first. The walk reads bits BSRD to BSLEN-1 only, so it has
BSLEN - BSRD bits to read (log 13). -/
def execDec (s : State) : Host.Outcome State Fault Refusal :=
  if s.phase ≠ .ready then raise .sequence s
  else if s.bsrd = s.bslen then finish { s with result0 := 0xFFFFFFFF, result1 := 0 }
  else if (nodeAt s s.root).leaf then
    if bsBit s s.bsrd then raise .invalidPath s
    else finish (emitSymbol (nodeAt s s.root).sym 1 s)
  else
    match decodeWalk s.node s.bs (s.bslen - s.bsrd) s.bsrd s.root with
    | none => raise .truncatedStream s
    | some (v, p) => finish (emitSymbol (nodeAt s v).sym (p - s.bsrd) s)

/-- REWIND (R160). Its A must be 0, which the decoder checks. -/
def execRewind (s : State) : Host.Outcome State Fault Refusal := finish { s with bsrd := 0 }

end Sys2Proof.Machine
end

