-- ==== Sys2Proof/Machine/BitstreamEncoder.lean ====
section
/-! DEFINITION. ENC, WRBS, RDBS and SETBS (44_bitstream_encoder.md R150, R154, R156, R158). -/

namespace Sys2Proof.Machine

open Sys2Proof

/-- ENC's writes on success: the code of `a` is appended to the stream (R150). -/
def appendCode (a : Nat) (s : State) : State :=
  { s with
    bs := writeBits s.bs s.bslen (codeAt s a)
    bslen := s.bslen + (codeAt s a).length
    result0 := zext32 (codeAt s a).length
    result1 := zext32 (s.bslen + (codeAt s a).length) }

/-- ENC s (R150). -/
def execEnc (a : Nat) (s : State) : Host.Outcome State Fault Refusal :=
  if s.phase ≠ .ready then raise .sequence s
  else if !isSymbol s a then raise .range s
  else if (codeAt s a).length = 0 then raise .unknownSymbol s
  else if s.bslen + (codeAt s a).length > s.cfg.bsCap then raise .bsOverflow s
  else finish (appendCode a s)

/-- WRBS j, d (R154): d is ARG as latched at issue. -/
def execWrbs (j : Nat) (s : State) : Host.Outcome State Fault Refusal :=
  if !isBsWord s j then raise .range s
  else finish { s with bs := Table.set 0 s.bs j (latchedArg s) }

/-- RDBS j (R156). -/
def execRdbs (j : Nat) (s : State) : Host.Outcome State Fault Refusal :=
  if !isBsWord s j then raise .range s
  else finish { s with result0 := bsWord s j }

/-- SETBS n (R158): n is ARG as latched at issue. -/
def execSetbs (s : State) : Host.Outcome State Fault Refusal :=
  if !isLength s (latchedArg s).toNat then raise .range s
  else finish { s with bslen := (latchedArg s).toNat, bsrd := 0 }

end Sys2Proof.Machine
end

