-- ==== Sys2Proof/Machine/FrequencyCounter.lean ====
section
/-! DEFINITION. COUNT and RDFREQ (41_frequency_counter.md R110, R112). -/

namespace Sys2Proof.Machine

open Sys2Proof

/-- COUNT's writes on success (R110). -/
def countSymbol (a : Nat) (s : State) : State :=
  { s with
    nleaf := if freqAt s a = 0 then s.nleaf + 1 else s.nleaf
    freq := Table.set 0 s.freq a (freqAt s a + 1)
    total := s.total + 1
    result0 := zext32 (freqAt s a + 1) }

/-- COUNT s (R110). -/
def execCount (a : Nat) (s : State) : Host.Outcome State Fault Refusal :=
  if s.phase ≠ .counting then raise .sequence s
  else if !isSymbol s a then raise .range s
  else if s.total = s.cfg.cntMax then raise .countOverflow s
  else finish (countSymbol a s)

/-- RDFREQ s (R112): runs in either phase. -/
def execRdfreq (a : Nat) (s : State) : Host.Outcome State Fault Refusal :=
  if !isSymbol s a then raise .range s
  else finish { s with result0 := zext32 (freqAt s a) }

end Sys2Proof.Machine
end

