-- ==== Sys2Proof/Machine/SessionControl.lean ====
section
/-! DEFINITION. NOP and CLEAR (40_session_control.md R100, R101). Their A must be 0, which the decoder checks. -/

namespace Sys2Proof.Machine

open Sys2Proof

/-- NOP (R100): sets ERR to 0 and nothing else. -/
def execNop (s : State) : Host.Outcome State Fault Refusal := finish s

/-- Every table and status register of the session at 0: CLEAR's writes but for ERR (R101). ARG is kept. -/
def clearSession (s : State) : State :=
  { s with
    freq := [], code := [], node := [], bs := []
    total := 0, nleaf := 0, root := 0, bslen := 0, bsrd := 0
    result0 := 0, result1 := 0, result2 := 0
    phase := .counting, ovr := false }

/-- CLEAR (R101): starts a new session, in either phase. -/
def execClear (s : State) : Host.Outcome State Fault Refusal := finish (clearSession s)

end Sys2Proof.Machine
end

