-- ==== Sys2Proof/Machine/Merge.lean ====
section
/-! DEFINITION. TreeBuild, the merge engine inside BUILD (42_tree_builder.md R121). -/

namespace Sys2Proof.Machine

open Sys2Proof

/-- The symbols with FREQ[s] > 0, ascending: the leaves in the order they are written (R121). -/
def presentSymbols (c : Config) (freq : Table Nat) : List Nat :=
  (List.range c.nsym).filter fun k => decide (0 < Table.get 0 freq k)

/-- Writes one leaf per symbol of the list, from node index `j` on (R121). -/
def writeLeaves (freq : Table Nat) (t : Table Node) (j : Nat) : List Nat → Table Node
  | [] => t
  | k :: ks =>
    writeLeaves freq
      (nodeSet t j { leaf := true, sym := k, left := 0, right := 0, freq := Table.get 0 freq k }) (j + 1) ks

/-- The key order of the priority collection: (freq, index), lexicographic (R121, R123). -/
def keyLt (t : Table Node) (i j : Nat) : Bool :=
  decide ((nodeGet t i).freq < (nodeGet t j).freq ∨ ((nodeGet t i).freq = (nodeGet t j).freq ∧ i < j))

/-- The index with the least key among `x` and the list. -/
def least (t : Table Node) (x : Nat) : List Nat → Nat
  | [] => x
  | y :: q => least t (if keyLt t y x then y else x) q

/-- Removes from the collection the index with the least key, if there is one. -/
def removeLeast (t : Table Node) : List Nat → Option (Nat × List Nat)
  | [] => none
  | i :: q => some (least t i q, (i :: q).erase (least t i q))

/-- The merge loop of R121, at most `fuel` merges: while the collection `q` has two members, the two least are removed
and become the left and the right child of node `next`, which is reinserted. Answers the table and the last node
written. A collection of n members allows n - 1 merges. -/
def mergeLoop : Nat → Table Node → List Nat → Nat → Table Node × Nat
  | 0, t, _, next => (t, next - 1)
  | fuel + 1, t, q, next =>
    match removeLeast t q with
    | none => (t, next - 1)
    | some (x, q1) =>
      match removeLeast t q1 with
      | none => (t, next - 1)
      | some (y, q2) =>
        mergeLoop fuel
          (nodeSet t next
            { leaf := false, sym := 0, left := x, right := y, freq := (nodeGet t x).freq + (nodeGet t y).freq })
          (next :: q2) (next + 1)

/-- `TreeBuild()` with n = NLEAF (R121): the node table and the root. -/
def treeBuild (c : Config) (freq : Table Nat) (n : Nat) (t : Table Node) : Table Node × Nat :=
  let leaves := writeLeaves freq t 0 (presentSymbols c freq)
  if n = 1 then (leaves, 0) else mergeLoop (n - 1) leaves (List.range n) n

end Sys2Proof.Machine
end

