-- ==== Sys2Proof/Machine/TreeBuilder.lean ====
section
/-! DEFINITION. BUILD and RDNODE (42_tree_builder.md R120, R125). -/

namespace Sys2Proof.Machine

open Sys2Proof

/-- The node table and the root TreeBuild makes from the counts of `s` (R121). -/
def builtTree (s : State) : Table Node × Nat := treeBuild s.cfg s.freq s.nleaf s.node

/-- The code table CodeAssign makes from that tree (43_code_assigner.md R140). -/
def builtCode (s : State) : Table Code := codeAssign (builtTree s).1 s.nleaf (builtTree s).2 s.code

/-- BUILD's writes on success (R120). -/
def buildTables (s : State) : State :=
  { s with
    node := (builtTree s).1
    code := builtCode s
    root := (builtTree s).2
    phase := .ready
    result0 := zext32 (builtTree s).2
    result1 := zext32 s.nleaf
    result2 := zext32 (longestCode s.cfg (builtCode s)) }

/-- BUILD (R120). Its A must be 0, which the decoder checks first. -/
def execBuild (s : State) : Host.Outcome State Fault Refusal :=
  if s.phase ≠ .counting then raise .sequence s
  else if s.nleaf = 0 then raise .emptyInput s
  else finish (buildTables s)

/-- `{nd.leaf, 7'b0000000, zext_24(nd.leaf == 1 ? nd.sym : nd.left)}` (R125). -/
def nodeHead (nd : Node) : Word :=
  BitVec.ofBool nd.leaf ++ 0#7 ++ BitVec.ofNat 24 (if nd.leaf then nd.sym else nd.left)

/-- RDNODE i (R125). -/
def execRdnode (i : Nat) (s : State) : Host.Outcome State Fault Refusal :=
  if s.phase ≠ .ready then raise .sequence s
  else if !isNodeIndex s i then raise .range s
  else finish { s with
    result0 := nodeHead (nodeAt s i)
    result1 := zext32 (nodeAt s i).right
    result2 := zext32 (nodeAt s i).freq }

end Sys2Proof.Machine
end

