-- ==== Sys2Proof/Machine/Dispatch.lean ====
section
/-! DEFINITION. One arm per command: the command runs as one atomic transaction and completes (10_state.md R40). -/

namespace Sys2Proof.Machine

open Sys2Proof

def exec (i : Instr) (s : State) : Host.Outcome State Fault Refusal :=
  match i with
  | .nop => Sys2Proof.Machine.execNop s
  | .clear => Sys2Proof.Machine.execClear s
  | .count a => Sys2Proof.Machine.execCount a s
  | .build => Sys2Proof.Machine.execBuild s
  | .enc a => Sys2Proof.Machine.execEnc a s
  | .dec => Sys2Proof.Machine.execDec s
  | .rdfreq a => Sys2Proof.Machine.execRdfreq a s
  | .rdcode a => Sys2Proof.Machine.execRdcode a s
  | .rdnode n => Sys2Proof.Machine.execRdnode n s
  | .wrbs j => Sys2Proof.Machine.execWrbs j s
  | .rdbs j => Sys2Proof.Machine.execRdbs j s
  | .setbs => Sys2Proof.Machine.execSetbs s
  | .rewind => Sys2Proof.Machine.execRewind s

end Sys2Proof.Machine
end

