-- ==== Sys2Proof/Machine/Flags.lean ====
section
/-! DEFINITION. The fields of STATUS (10_state.md R27 to R32) and the numbers of the error codes (60_exceptions.md R180). -/

namespace Sys2Proof.Machine

open Sys2Proof

/-- The number of an error code (60_exceptions.md R180). -/
def Err.number : Err → BitVec 4
  | .ok => 0
  | .emptyInput => 1
  | .unknownSymbol => 2
  | .truncatedStream => 3
  | .illegalCommand => 4
  | .sequence => 5
  | .range => 6
  | .countOverflow => 7
  | .bsOverflow => 8
  | .invalidPath => 9

/-- STATUS.PHASE as a bit (10_state.md R29). -/
def Phase.bit : Phase → Bool
  | .counting => false
  | .ready => true

/-- STATUS.BUSY: a command is latched or reset initialisation is in progress, and never else (10_state.md R28). -/
def busy (s : State) : Bool := s.lcmd.valid || decide (s.resetState = .initialising)

/-- STATUS.EOS, computed at every read (10_state.md R30). -/
def eos (s : State) : Bool := decide (s.bsrd = s.bslen)

/-- The STATUS word: BUSY 0, PHASE 1, EOS 2, OVR 3, ERR 11:8, the rest 0 (10_state.md R27). -/
def statusWord (s : State) : Word :=
  0#20 ++ s.err.number ++ 0#4 ++ BitVec.ofBool s.ovr ++ BitVec.ofBool (eos s) ++ BitVec.ofBool s.phase.bit ++
    BitVec.ofBool (busy s)

end Sys2Proof.Machine
end

