-- ==== Sys2Proof/Machine/Bus.lean ====
section
/-! DEFINITION. The 64-byte register window and the host's accesses to it (10_state.md R21 to R40, 20_memory.md R60 to R66). -/

namespace Sys2Proof.Machine

open Sys2Proof

/-- The constant of register ID (10_state.md R21). -/
def idWord : Word := 0x48554646

/-- The word of register PARAM: CNT_W in bits 15:8, SYM_W in bits 7:0 (10_state.md R22). -/
def paramWord (c : Config) : Word := 0#16 ++ BitVec.ofNat 8 c.cntW ++ BitVec.ofNat 8 c.symW

/-- The register at a word offset of the window (10_state.md R39). CMD and the reserved offsets read 0 (R24, 20_memory.md
R64). While a command is in progress its effects are not yet in the state, so this is the value from before it (R40). -/
def regAt (s : State) (off : Nat) : Word :=
  match off with
  | 0x00 => idWord
  | 0x04 => paramWord s.cfg
  | 0x08 => zext32 s.cfg.bsCap
  | 0x10 => s.arg
  | 0x14 => statusWord s
  | 0x18 => s.result0
  | 0x1C => s.result1
  | 0x20 => s.result2
  | 0x24 => zext32 s.total
  | 0x28 => zext32 s.nleaf
  | 0x2C => zext32 s.root
  | 0x30 => zext32 s.bslen
  | 0x34 => zext32 s.bsrd
  | _ => 0

/-- The offset in the window of a byte address, if it lies there (20_memory.md R60). -/
def windowOffset (c : Config) (addr : Nat) : Option Nat :=
  if c.base ≤ addr ∧ addr < c.base + 0x40 then some (addr - c.base) else none

/-- A read of the window: a word, or a lane of it, or 0 when misaligned (20_memory.md R61, R62, R64, R65). A narrow value
stands in the low bits (log 7). DESIGN CHOICE: the parity of a size-2 access is that of its offset, which is that of its byte
address only where BASE is even; the spec gives BASE no alignment (log 21). -/
def readAt (s : State) (off : Nat) : Size → Word
  | .byte => byteLane (regAt s (off - off % 4)) (off % 4)
  | .half => if off % 2 = 0 then halfLane (regAt s (off - off % 4)) (off % 4) else 0
  | .word => if off % 4 = 0 then regAt s off else 0

/-- A word write to CMD: a command is issued, or, while BUSY = 1, dropped with OVR set at once (10_state.md R24, R40;
70_reset_and_hazards.md R210). -/
def writeCmd (w : Word) (s : State) : State :=
  if busy s then { s with ovr := true } else issue w s

/-- A write of the window: only an aligned word write to CMD or ARG has an effect (20_memory.md R61, R63 to R66). -/
def writeAt (off : Nat) (size : Size) (v : Word) (s : State) : State :=
  match size, off with
  | .word, 0x0C => writeCmd v s
  | .word, 0x10 => { s with arg := v }
  | _, _ => s

end Sys2Proof.Machine
end

