-- ==== Sys2Proof/Machine/ResetLine.lean ====
section
/-! DEFINITION. The reset input and reset initialisation (70_reset_and_hazards.md R200, R201). -/

namespace Sys2Proof.Machine

open Sys2Proof

/-- Reset is asserted: every register takes its value of R200 and a command in progress is abandoned with no effect
(R201). The tables are zeroed later, by the initialisation (log 9). -/
def assertReset (s : State) : State :=
  { s with
    arg := 0, phase := .counting, ovr := false, err := .ok
    result0 := 0, result1 := 0, result2 := 0
    total := 0, nleaf := 0, root := 0, bslen := 0, bsrd := 0
    lcmd := { valid := false, op := 0, a := 0, arg := 0 }
    resetState := .asserted }

/-- Reset is released: initialisation begins and BUSY is 1 for a free number of host accesses (R201). Where reset is not
asserted there is nothing to release (log 9). -/
def releaseReset (s : State) : State :=
  if s.resetState = .asserted then
    { s with
      resetState := .initialising
      busyFor := Config.completionAccesses s.issued
      issued := s.issued + 1 }
  else s

/-- Initialisation completes: every table entry is 0, and so is an ARG that the host wrote during it (R200, R201; log 10).
The other registers of R200 have held their reset values since the assertion; OVR stays 1 if a CMD write was dropped (V-RS-3,
log 11). -/
def completeInit (s : State) : State :=
  { s with arg := 0, freq := [], node := [], code := [], bs := [], resetState := .running }

end Sys2Proof.Machine
end

