-- ==== Sys2Proof/Machine/HostAgent.lean ====
section
/-! DEFINITION. The host's step, one bus access each, and which agent moves next (70_reset_and_hazards.md R214, R215). -/

namespace Sys2Proof.Machine

open Sys2Proof

/-- One host access has been made: a busy period has one fewer to go. -/
def tick (s : State) : State := { s with busyFor := s.busyFor - 1 }

/-- The host's next statement is performed and leaves the list. -/
def nextStmt (s : State) : State := { s with host := s.host.tail }

/-- A read (20_memory.md R61 to R66): no side effect on the block. -/
def hostRead (addr : Nat) (size : Size) (s : State) : Host.Outcome State Fault Refusal :=
  match windowOffset s.cfg addr with
  | some off => .next { nextStmt (tick s) with busData := some (readAt s off size) }
  | none => .refused .accessOutsideWindow

/-- A write (20_memory.md R61 to R66). -/
def hostWrite (addr : Nat) (size : Size) (v : Word) (s : State) : Host.Outcome State Fault Refusal :=
  match windowOffset s.cfg addr with
  | some off => .next (writeAt off size v (nextStmt (tick s)))
  | none => .refused .accessOutsideWindow

/-- One word read of STATUS in a POLL loop: the loop goes on while BUSY = 1 (30_encoding.md R88). -/
def hostPoll (s : State) : Host.Outcome State Fault Refusal :=
  if busy s then .next { tick s with busData := some (statusWord s) }
  else .next { nextStmt (tick s) with busData := some (statusWord s) }

/-- The host performs a statement. While reset is asserted an access is refused (70_reset_and_hazards.md R202). -/
def hostStep (st : HostStmt) (s : State) : Host.Outcome State Fault Refusal :=
  match st with
  | .assertReset => .next (assertReset (nextStmt s))
  | .releaseReset => .next (releaseReset (nextStmt s))
  | .read addr size => if s.resetState = .asserted then .refused .accessWhileResetAsserted else hostRead addr size s
  | .write addr size v =>
    if s.resetState = .asserted then .refused .accessWhileResetAsserted else hostWrite addr size v s
  | .poll => if s.resetState = .asserted then .refused .accessWhileResetAsserted else hostPoll s

/-- Who takes the next step. -/
inductive Turn where
  /-- The command engine completes the latched command or the initialisation. -/
  | engine
  /-- The host performs its next statement. -/
  | host (st : HostStmt)
  /-- Nobody: the block is idle and the host's program has ended (60_exceptions.md R192, 70_reset_and_hazards.md R216). -/
  | idle
deriving DecidableEq, Repr

/-- The engine moves when a busy period has seen its free number of host accesses, or the host has nothing left to do; so
every busy period ends (70_reset_and_hazards.md R214; log 5). Otherwise the host moves, in program order (20_memory.md
R70). -/
def turn (s : State) : Turn :=
  if busy s ∧ s.resetState ≠ .asserted ∧ (s.busyFor = 0 ∨ s.host = []) then .engine
  else
    match s.host with
    | [] => .idle
    | st :: _ => .host st

end Sys2Proof.Machine
end

