-- ==== Sys2Proof/Machine/Engine.lean ====
section
/-! DEFINITION. The command engine's one step (70_reset_and_hazards.md R215). -/

namespace Sys2Proof.Machine

open Sys2Proof

/-- The latched command runs and completes; a word that is no command raises IllegalCommand (10_state.md R40,
30_encoding.md R84, R85). -/
def runLatched (s : State) : Host.Outcome State Fault Refusal :=
  match decode (latchedWord s) with
  | .ok i => exec i s
  | .error _ => raise .illegalCommand s

/-- The completion of reset initialisation, or of the latched command (70_reset_and_hazards.md R215). -/
def engineStep (s : State) : Host.Outcome State Fault Refusal :=
  if s.resetState = .initialising then .next (completeInit s) else runLatched s

/-- `s` with the command word `w` accepted and about to run (log 8): the latch holds it and the ARG of this moment, the
block is out of reset, and the busy period has no host access left to see. -/
def placeCommand (w : Word) (s : State) : State :=
  { s with
    lcmd := { valid := true, op := opField w, a := aField w, arg := s.arg }
    resetState := .running
    busyFor := 0 }

end Sys2Proof.Machine
end

