-- ==== Sys2Proof/Machine/Step.lean ====
section
/-! DEFINITION. One step of the block and its host (70_reset_and_hazards.md R215). -/

namespace Sys2Proof.Machine

open Sys2Proof

/-- One step: of the engine or of the host. An idle block with no statement left stays as it is (70_reset_and_hazards.md
R216, 60_exceptions.md R192). Parameters out of range are refused (93_implementation_defined.md U6). -/
def step (s : State) : Host.Outcome State Fault Refusal :=
  if s.cfg.legal then
    match turn s with
    | .engine => engineStep s
    | .host st => hostStep st s
    | .idle => .next s
  else .refused .parametersOutOfRange

/-- `s` with the command word of the number `w` (its low `nbits` bits) latched and about to run, so that the very next
step runs it (log 8). -/
def State.withFetchWord (s : State) (nbits w : Nat) : State := placeCommand (BitVec.ofNat 32 (w % 2 ^ nbits)) s

end Sys2Proof.Machine
end

