-- ==== Sys2Proof/Machine/Program.lean ====
section
/-! DEFINITION. The host statements each command mnemonic stands for (30_encoding.md R88). -/

namespace Sys2Proof.Machine

open Sys2Proof

/-- `WR CMD, w`. -/
def wrCmd (c : Config) (w : Word) : HostStmt := .write (c.base + 0x0C) .word w

/-- `WR ARG, v`. -/
def wrArg (c : Config) (v : Word) : HostStmt := .write (c.base + 0x10) .word v

/-- The commands whose second operand is ARG (30_encoding.md R82). -/
def Instr.usesArg : Instr → Bool
  | .rdcode _ | .wrbs _ | .setbs => true
  | .nop | .clear | .count _ | .build | .enc _ | .dec | .rdfreq _ | .rdnode _ | .rdbs _ | .rewind => false

/-- The expansion of a mnemonic: `WR ARG, v` where the command uses ARG, then `WR CMD` and `POLL` (30_encoding.md R88). -/
def expand (c : Config) (i : Instr) (v : Word) : List HostStmt :=
  (if Instr.usesArg i then [wrArg c v] else []) ++ [wrCmd c (encode i), .poll]

end Sys2Proof.Machine
end

