-- ==== Sys2Proof/Safety.lean ====
section
/-! DEFINITION. What counts as a safe run, in the terms claims use: the invariants of 10_state.md R45, the end of a run, and
runs of steps and of commands. -/

namespace Sys2Proof.Machine

open Sys2Proof

/-! ## The invariants (10_state.md R45) -/

/-- R45 items 1 and 2: TOTAL is the sum of the counts and at most CNT_MAX, NLEAF is the number of present symbols. -/
abbrev CountsAgree (s : State) : Prop :=
  s.total = ((List.range s.cfg.nsym).map (freqAt s)).sum ∧ s.total ≤ s.cfg.cntMax ∧
    s.nleaf = (presentSymbols s.cfg s.freq).length

/-- R45 item 3: BSRD <= BSLEN <= BS_CAP. -/
abbrev StreamBounds (s : State) : Prop := s.bsrd ≤ s.bslen ∧ s.bslen ≤ s.cfg.bsCap

/-- R45 items 4 and 5: in COUNTING there is no tree and no code table; in READY they are the ones BUILD computes from the
counts. -/
abbrev SessionAgrees (s : State) : Prop :=
  (s.phase = .counting → s.node = [] ∧ s.code = [] ∧ s.root = 0) ∧
    (s.phase = .ready →
      1 ≤ s.nleaf ∧ (s.node, s.root) = treeBuild s.cfg s.freq s.nleaf [] ∧
        s.code = codeAssign s.node s.nleaf s.root [])

/-- The read-only registers hold their values of 70_reset_and_hazards.md R200, as they do while reset is asserted and
during initialisation (R201). -/
abbrev RegistersAtReset (s : State) : Prop :=
  s.phase = .counting ∧ s.err = .ok ∧ s.result0 = 0 ∧ s.result1 = 0 ∧ s.result2 = 0 ∧ s.total = 0 ∧ s.nleaf = 0 ∧
    s.root = 0 ∧ s.bslen = 0 ∧ s.bsrd = 0

/-- Once initialisation is complete, R45 items 1, 2, 4 and 5 hold. -/
abbrev RunningAgrees (s : State) : Prop := s.resetState = .running → CountsAgree s ∧ SessionAgrees s

/-- Until then the registers hold their reset values, and no command is latched (R201). -/
abbrev ResetAgrees (s : State) : Prop := s.resetState ≠ .running → RegistersAtReset s ∧ s.lcmd.valid = false

/-- What holds at every commit point and after reset (R45), and of the states between them: the parameters are legal, the
tables canonical, and a command is latched only when the block is out of reset. -/
structure State.Inv (s : State) : Prop where
  legal   : s.cfg.legal = true
  memory  : Memory.wf s
  stream  : StreamBounds s
  running : RunningAgrees s
  reset   : ResetAgrees s

/-! ## Errors (60_exceptions.md R180 to R185) -/

/-- The state after a command that raises `e`: only ERR and LCMD.valid, and so BUSY, differ (R181). -/
def State.afterError (s : State) (e : Err) : State := { s with err := e, lcmd := { s.lcmd with valid := false } }

/-- A latched word with opcode `op` of format N runs `i` when its A is 0 and raises IllegalCommand otherwise
(30_encoding.md R81). -/
abbrev RunsFormatN (op : BitVec 8) (i : Instr) (s : State) : Prop :=
  s.lcmd.op = op → runLatched s = if s.lcmd.a = 0 then exec i s else .next (s.afterError .illegalCommand)

/-- A latched word with opcode `op` of format A runs the command with its A as an unsigned number (30_encoding.md R81, R82). -/
abbrev RunsFormatA (op : BitVec 8) (i : Nat → Instr) (s : State) : Prop :=
  s.lcmd.op = op → runLatched s = exec (i s.lcmd.a.toNat) s

/-- The phase a command needs, if it needs one (30_encoding.md R83). -/
def Instr.phaseNeeded : Instr → Option Phase
  | .count _ | .build => some .counting
  | .enc _ | .dec | .rdcode _ | .rdnode _ => some .ready
  | .nop | .clear | .rdfreq _ | .wrbs _ | .rdbs _ | .setbs | .rewind => none

/-- The operands of the command are in range (30_encoding.md R81, 60_exceptions.md R180 code 6). -/
def Instr.inRange (s : State) : Instr → Prop
  | .count a | .enc a | .rdfreq a => a < s.cfg.nsym
  | .rdcode a => a < s.cfg.nsym ∧ s.lcmd.arg.toNat < s.cfg.codeWords
  | .rdnode i => i < 2 * s.nleaf - 1
  | .wrbs j | .rdbs j => j < s.cfg.bsWords
  | .setbs => s.lcmd.arg.toNat ≤ s.cfg.bsCap
  | .nop | .clear | .build | .dec | .rewind => True

/-- The error codes a command word with opcode `op` can report (60_exceptions.md R185). -/
def errorsOfOpcode (op : Nat) : List Err :=
  match op with
  | 0x00 | 0x01 | 0x0C => [.illegalCommand]
  | 0x02 => [.sequence, .range, .countOverflow]
  | 0x03 => [.illegalCommand, .sequence, .emptyInput]
  | 0x04 => [.sequence, .range, .unknownSymbol, .bsOverflow]
  | 0x05 => [.illegalCommand, .sequence, .truncatedStream, .invalidPath]
  | 0x06 | 0x09 | 0x0A => [.range]
  | 0x07 => [.sequence, .range, .unknownSymbol]
  | 0x08 => [.sequence, .range]
  | 0x0B => [.illegalCommand, .range]
  | _ => [.illegalCommand]

/-! ## Runs -/

/-- The end of a run (70_reset_and_hazards.md R216): no statement is left, no command is latched, and BUSY = 0, so no
reset initialisation is in progress either. -/
abbrev State.Ended (s : State) : Prop := s.host = [] ∧ s.lcmd.valid = false ∧ busy s = false

/-- `n` steps, stopping at the first refusal. -/
def runSteps : Nat → State → Host.Outcome State Fault Refusal
  | 0, s => .next s
  | n + 1, s =>
    match step s with
    | .next t => runSteps n t
    | .fault r => .fault r
    | .refused r => .refused r

/-- The commands of a list, one after the other, each of which must succeed (ERR = 0). -/
def runCommands : List Instr → State → Option State
  | [], s => some s
  | i :: is, s =>
    match exec i s with
    | .next t => if t.err = .ok then runCommands is t else none
    | .fault _ => none
    | .refused _ => none

/-- `n` DEC commands, each issued while EOS = 0 and each successful: the values of RESULT0 in order, and the state after
(45_bitstream_decoder.md R171, R172). -/
def decodeMany : Nat → State → Option (List Word × State)
  | 0, s => some ([], s)
  | n + 1, s =>
    if eos s then none
    else
      match runCommands [.dec] s with
      | none => none
      | some t =>
        match decodeMany n t with
        | none => none
        | some (ws, u) => some (t.result0 :: ws, u)

/-- Follows the bits of a code from node `v` of a tree: left = 1, right = 0 (00_scope.md R15). -/
def follow (t : Table Node) (v : Nat) : Code → Nat
  | [] => v
  | b :: c => follow t (child (nodeGet t v) b) c

/-- Node `j` is in the priority collection when node `i` is made: it is older, and no older node has it as a child
(42_tree_builder.md R121). -/
def Available (s : State) (i j : Nat) : Prop :=
  j < i ∧ ∀ p, s.nleaf ≤ p → p < i → (nodeAt s p).left ≠ j ∧ (nodeAt s p).right ≠ j

/-- Node `x` comes before node `y`: the lexicographic order of (freq, index) (42_tree_builder.md R121, R123). -/
def Before (s : State) (x y : Nat) : Prop :=
  (nodeAt s x).freq < (nodeAt s y).freq ∨ ((nodeAt s x).freq = (nodeAt s y).freq ∧ x < y)

/-- The stream bits at positions `p` to `p + n - 1` (20_memory.md R67). -/
def streamBits (s : State) (p n : Nat) : List Bool := (List.range n).map fun k => bsBit s (p + k)

end Sys2Proof.Machine
end

