-- ==== Sys2Proof/Certificates/Slice0/Obligations.lean ====
section
/-! DEFINITION. The statements for the provers. Each cites the rule of spec/ it formalises. -/

open Sys2Proof Sys2Proof.Machine

/-! ## Encoding (30_encoding.md) -/

/-- R80, R82, R83: decoding the word of a well-formed command gives the command back, with every operand. -/
def Obligations.DecodeOfEncodeIsTheCommand : Prop :=
  ∀ i : Instr, i.wf = true → decode (encode i) = .ok i

/-- R85: a word that decodes is the word of the command it decodes to, which is well formed. -/
def Obligations.EncodeOfDecodeIsTheWord : Prop :=
  ∀ (w : Word) (i : Instr), decode w = .ok i → i.wf = true ∧ encode i = w

/-- R84: the words that are no command are exactly those with OP from 0x0D to 0xFF and the format-N words with A other
than 0; each raises IllegalCommand when it runs, and changes nothing else. -/
def Obligations.ReservedWordsRaiseIllegalCommand : Prop :=
  (∀ w : Word, (∃ e, decode w = .error e) ↔
    (0x0D ≤ (opField w).toNat ∨
      ((opField w).toNat ∈ [0x00, 0x01, 0x03, 0x05, 0x0B, 0x0C] ∧ aField w ≠ 0))) ∧
  (∀ (s : State) (e : DecodeError), decode (latchedWord s) = .error e →
    runLatched s = .next (s.afterError .illegalCommand))

/-- R89: the example words decode to their commands, and the two illegal ones to none. -/
def Obligations.ExampleWordsDecode : Prop :=
  decode 0x00006102 = .ok (.count 0x61) ∧ decode 0x0000FF02 = .ok (.count 0xFF) ∧ decode 0x00000003 = .ok .build ∧
  decode 0x00007204 = .ok (.enc 0x72) ∧ decode 0x00000005 = .ok .dec ∧ decode 0x00000808 = .ok (.rdnode 8) ∧
  decode 0x00006107 = .ok (.rdcode 0x61) ∧ decode 0x00000009 = .ok (.wrbs 0) ∧ decode 0x0000000B = .ok .setbs ∧
  decode 0x00000001 = .ok .clear ∧ decode 0x0000000D = .error (.reservedOpcode 0x0D) ∧
  decode 0x00000100 = .error (.operandNotZero 0x00 1)

/-! ## The step and the latched command (10_state.md R40) -/

/-- When it is the engine's turn and the latched word decodes to `i`, the step is exec of `i` on the whole state: nothing
is added around exec. The turn is the engine's when no host access is left to the busy period or to the program (log 5). -/
def Obligations.StepRunsTheLatchedCommand : Prop :=
  ∀ (s : State) (i : Instr), s.cfg.legal = true → s.resetState = .running → s.lcmd.valid = true →
    (s.busyFor = 0 ∨ s.host = []) → decode (latchedWord s) = .ok i → step s = exec i s

/-- A word put in the latch by withFetchWord runs in the very next step; one that is no command raises IllegalCommand. -/
def Obligations.PlacedWordRunsNext : Prop :=
  ∀ (s : State) (w : Word), s.cfg.legal = true →
    let t := s.withFetchWord 32 w.toNat
    t.lcmd = { valid := true, op := opField w, a := aField w, arg := s.arg } ∧
    (∀ i, decode w = .ok i → step t = exec i t) ∧
    (∀ e, decode w = .error e → step t = .next (t.afterError .illegalCommand))

/-! ## The commands, one statement each -/

/-- R100. NOP: ERR becomes 0 and nothing else changes; A other than 0 is IllegalCommand. -/
def Obligations.NopOnlyClearsErr : Prop :=
  ∀ s : State,
    exec .nop s = .next { s with err := .ok, lcmd := { s.lcmd with valid := false } } ∧ RunsFormatN 0x00 .nop s

/-- R101. CLEAR: every table entry and session register is 0, PHASE is COUNTING, OVR and ERR are 0, EOS reads 1; the state is
that after reset but for ARG, which is kept. No other command leaves READY. A other than 0 is IllegalCommand and clears
nothing. -/
def Obligations.ClearStartsANewSession : Prop :=
  ∀ s : State,
    (∃ t, exec .clear s = .next t ∧
      (∀ k, freqAt t k = 0 ∧ codeAt t k = [] ∧ nodeAt t k = Node.zero ∧ bsWord t k = 0) ∧
      t.total = 0 ∧ t.nleaf = 0 ∧ t.root = 0 ∧ t.bslen = 0 ∧ t.bsrd = 0 ∧
      t.result0 = 0 ∧ t.result1 = 0 ∧ t.result2 = 0 ∧ t.phase = .counting ∧ t.ovr = false ∧ t.err = .ok ∧
      eos t = true ∧
      t = { State.resetOf s.cfg with
            arg := s.arg, lcmd := { s.lcmd with valid := false }, resetState := s.resetState, host := s.host,
            busData := s.busData, busyFor := s.busyFor, issued := s.issued }) ∧
    (∀ (i : Instr) (t : State), s.phase = .ready → exec i s = .next t → t.phase = .counting → i = .clear) ∧
    RunsFormatN 0x01 .clear s

/-- R110. COUNT s: FREQ[s] and TOTAL go up by 1, NLEAF when the symbol is new, RESULT0 is the new count; the errors in their
order; every other register and entry is unchanged. The clause that a count is never above TOTAL, so that it cannot overflow
on its own, is the spec's own inference from 10_state.md R45 item 1. -/
def Obligations.CountAddsOneSymbol : Prop :=
  ∀ (s : State) (a : Nat), Memory.wf s →
    (s.phase = .counting → a < s.cfg.nsym → s.total ≠ s.cfg.cntMax →
      ∃ t, exec (.count a) s = .next t ∧
        freqAt t a = freqAt s a + 1 ∧ (∀ k, k ≠ a → freqAt t k = freqAt s k) ∧
        t = { s with
              freq := t.freq
              total := s.total + 1
              nleaf := if freqAt s a = 0 then s.nleaf + 1 else s.nleaf
              result0 := BitVec.ofNat 32 (freqAt s a + 1)
              err := .ok, lcmd := { s.lcmd with valid := false } }) ∧
    (s.phase ≠ .counting → exec (.count a) s = .next (s.afterError .sequence)) ∧
    (s.phase = .counting → s.cfg.nsym ≤ a → exec (.count a) s = .next (s.afterError .range)) ∧
    (s.phase = .counting → a < s.cfg.nsym → s.total = s.cfg.cntMax →
      exec (.count a) s = .next (s.afterError .countOverflow)) ∧
    (s.Inv → s.resetState = .running → freqAt s a ≤ s.total) ∧
    RunsFormatA 0x02 .count s

/-- R112. RDFREQ s: RESULT0 is FREQ[s], in either phase; an s out of range is Range; nothing else changes. -/
def Obligations.RdfreqReadsOneCount : Prop :=
  ∀ (s : State) (a : Nat),
    (a < s.cfg.nsym →
      exec (.rdfreq a) s = .next { s with
        result0 := BitVec.ofNat 32 (freqAt s a), err := .ok, lcmd := { s.lcmd with valid := false } }) ∧
    (s.cfg.nsym ≤ a → exec (.rdfreq a) s = .next (s.afterError .range)) ∧
    RunsFormatA 0x06 .rdfreq s

/-- R120. BUILD: NODE and ROOT are TreeBuild's, CODE is CodeAssign's, PHASE is READY, RESULT0 is the root, RESULT1 is NLEAF and
RESULT2 the longest code's length; the errors in their order; FREQ, BS and every other register are unchanged. -/
def Obligations.BuildMakesTreeAndCodes : Prop :=
  ∀ s : State,
    (s.phase = .counting → s.nleaf ≠ 0 →
      ∃ t m, exec .build s = .next t ∧
        (∀ k, k < s.cfg.nsym → (codeAt t k).length ≤ m) ∧ (∃ k, k < s.cfg.nsym ∧ (codeAt t k).length = m) ∧
        t = { s with
              node := (treeBuild s.cfg s.freq s.nleaf s.node).1
              root := (treeBuild s.cfg s.freq s.nleaf s.node).2
              code := codeAssign t.node s.nleaf t.root s.code
              phase := .ready
              result0 := BitVec.ofNat 32 t.root
              result1 := BitVec.ofNat 32 s.nleaf
              result2 := BitVec.ofNat 32 m
              err := .ok, lcmd := { s.lcmd with valid := false } }) ∧
    (s.phase ≠ .counting → exec .build s = .next (s.afterError .sequence)) ∧
    (s.phase = .counting → s.nleaf = 0 → exec .build s = .next (s.afterError .emptyInput)) ∧
    RunsFormatN 0x03 .build s

/-- R125. RDNODE i: the three result registers hold the node; the errors in their order; nothing else changes. -/
def Obligations.RdnodeReadsOneNode : Prop :=
  ∀ (s : State) (i : Nat),
    (s.phase = .ready → i < 2 * s.nleaf - 1 →
      exec (.rdnode i) s = .next { s with
        result0 := BitVec.ofBool (nodeAt s i).leaf ++ 0#7 ++
          BitVec.ofNat 24 (if (nodeAt s i).leaf then (nodeAt s i).sym else (nodeAt s i).left)
        result1 := BitVec.ofNat 32 (nodeAt s i).right
        result2 := BitVec.ofNat 32 (nodeAt s i).freq
        err := .ok, lcmd := { s.lcmd with valid := false } }) ∧
    (s.phase ≠ .ready → exec (.rdnode i) s = .next (s.afterError .sequence)) ∧
    (s.phase = .ready → 2 * s.nleaf - 1 ≤ i → exec (.rdnode i) s = .next (s.afterError .range)) ∧
    RunsFormatA 0x08 .rdnode s

/-- R143. RDCODE s, k: RESULT0 bit j is code bit 32k + j, or 0 beyond the code, RESULT1 is the length; the errors in their
order, the symbol before k; nothing else changes. k is ARG as latched. -/
def Obligations.RdcodeReadsOneCodeWord : Prop :=
  ∀ (s : State) (a : Nat),
    (s.phase = .ready → a < s.cfg.nsym → s.lcmd.arg.toNat < s.cfg.codeWords → (codeAt s a).length ≠ 0 →
      ∃ t, exec (.rdcode a) s = .next t ∧
        (∀ j, j < 32 → t.result0.getLsbD j =
          if 32 * s.lcmd.arg.toNat + j < (codeAt s a).length then (codeAt s a).getD (32 * s.lcmd.arg.toNat + j) false
          else false) ∧
        t = { s with
              result0 := t.result0, result1 := BitVec.ofNat 32 (codeAt s a).length
              err := .ok, lcmd := { s.lcmd with valid := false } }) ∧
    (s.phase ≠ .ready → exec (.rdcode a) s = .next (s.afterError .sequence)) ∧
    (s.phase = .ready → s.cfg.nsym ≤ a ∨ s.cfg.codeWords ≤ s.lcmd.arg.toNat →
      exec (.rdcode a) s = .next (s.afterError .range)) ∧
    (s.phase = .ready → a < s.cfg.nsym → s.lcmd.arg.toNat < s.cfg.codeWords → (codeAt s a).length = 0 →
      exec (.rdcode a) s = .next (s.afterError .unknownSymbol)) ∧
    RunsFormatA 0x07 .rdcode s

/-- R150. ENC s: the code's bits are appended at BSLEN and every other buffer bit is unchanged; BSLEN, RESULT0 and RESULT1;
EOS becomes 0; the errors in their order; nothing else changes, BSRD among it. -/
def Obligations.EncAppendsTheCode : Prop :=
  ∀ (s : State) (a : Nat), Memory.wf s →
    (s.phase = .ready → a < s.cfg.nsym → (codeAt s a).length ≠ 0 →
      s.bslen + (codeAt s a).length ≤ s.cfg.bsCap →
      ∃ t, exec (.enc a) s = .next t ∧
        (∀ k, k < (codeAt s a).length → bsBit t (s.bslen + k) = (codeAt s a).getD k false) ∧
        (∀ p, p < s.bslen ∨ s.bslen + (codeAt s a).length ≤ p → bsBit t p = bsBit s p) ∧
        (s.bsrd ≤ s.bslen → eos t = false) ∧
        t = { s with
              bs := t.bs
              bslen := s.bslen + (codeAt s a).length
              result0 := BitVec.ofNat 32 (codeAt s a).length
              result1 := BitVec.ofNat 32 (s.bslen + (codeAt s a).length)
              err := .ok, lcmd := { s.lcmd with valid := false } }) ∧
    (s.phase ≠ .ready → exec (.enc a) s = .next (s.afterError .sequence)) ∧
    (s.phase = .ready → s.cfg.nsym ≤ a → exec (.enc a) s = .next (s.afterError .range)) ∧
    (s.phase = .ready → a < s.cfg.nsym → (codeAt s a).length = 0 →
      exec (.enc a) s = .next (s.afterError .unknownSymbol)) ∧
    (s.phase = .ready → a < s.cfg.nsym → (codeAt s a).length ≠ 0 →
      s.cfg.bsCap < s.bslen + (codeAt s a).length → exec (.enc a) s = .next (s.afterError .bsOverflow)) ∧
    RunsFormatA 0x04 .enc s

/-- R154. WRBS j, d: BS[j] is ARG as latched, every other word is unchanged, BSLEN and BSRD too; j out of range is Range. -/
def Obligations.WrbsWritesOneWord : Prop :=
  ∀ (s : State) (j : Nat), Memory.wf s →
    (j < s.cfg.bsWords →
      ∃ t, exec (.wrbs j) s = .next t ∧
        bsWord t j = s.lcmd.arg ∧ (∀ k, k ≠ j → bsWord t k = bsWord s k) ∧
        t = { s with bs := t.bs, err := .ok, lcmd := { s.lcmd with valid := false } }) ∧
    (s.cfg.bsWords ≤ j → exec (.wrbs j) s = .next (s.afterError .range)) ∧
    RunsFormatA 0x09 .wrbs s

/-- R156. RDBS j: RESULT0 is BS[j] as stored; j out of range is Range; nothing else changes. The words are 0 after reset and
after CLEAR. -/
def Obligations.RdbsReadsOneWord : Prop :=
  ∀ (s : State) (j : Nat),
    (j < s.cfg.bsWords →
      exec (.rdbs j) s = .next { s with
        result0 := bsWord s j, err := .ok, lcmd := { s.lcmd with valid := false } }) ∧
    (s.cfg.bsWords ≤ j → exec (.rdbs j) s = .next (s.afterError .range)) ∧
    (∀ c, bsWord (State.resetOf c) j = 0) ∧ (∀ t, exec .clear s = .next t → bsWord t j = 0) ∧
    RunsFormatA 0x0A .rdbs s

/-- R158. SETBS n: BSLEN is ARG as latched, BSRD is 0, EOS becomes (n = 0); n over BS_CAP is Range; A other than 0 is
IllegalCommand; nothing else changes, no buffer word among it. -/
def Obligations.SetbsSetsTheLength : Prop :=
  ∀ s : State,
    (s.lcmd.arg.toNat ≤ s.cfg.bsCap →
      ∃ t, exec .setbs s = .next t ∧ eos t = decide (s.lcmd.arg.toNat = 0) ∧
        t = { s with
              bslen := s.lcmd.arg.toNat, bsrd := 0, err := .ok, lcmd := { s.lcmd with valid := false } }) ∧
    (s.cfg.bsCap < s.lcmd.arg.toNat → exec .setbs s = .next (s.afterError .range)) ∧
    RunsFormatN 0x0B .setbs s

/-- R160. REWIND: BSRD is 0, EOS becomes (BSLEN = 0); nothing else changes; A other than 0 is IllegalCommand. -/
def Obligations.RewindRestartsDecoding : Prop :=
  ∀ s : State,
    (∃ t, exec .rewind s = .next t ∧ eos t = decide (s.bslen = 0) ∧
      t = { s with bsrd := 0, err := .ok, lcmd := { s.lcmd with valid := false } }) ∧
    RunsFormatN 0x0C .rewind s

/-- R170. DEC. At the end of the stream: the marker, no error. In a one-leaf tree: a 0 bit is the symbol, a 1 bit is
InvalidPath. Otherwise the walk along the stream bits from BSRD: if its first leaf is reached after n bits, before BSLEN,
the leaf's symbol is the result and BSRD goes up by n; if no leaf is reached before BSLEN, TruncatedStream. The frame in
each case; A other than 0 is IllegalCommand. -/
def Obligations.DecDecodesOneSymbol : Prop :=
  ∀ s : State, s.bsrd ≤ s.bslen →
    (s.phase ≠ .ready → exec .dec s = .next (s.afterError .sequence)) ∧
    (s.phase = .ready → s.bsrd = s.bslen →
      exec .dec s = .next { s with
        result0 := 0xFFFFFFFF, result1 := 0, err := .ok, lcmd := { s.lcmd with valid := false } }) ∧
    (s.phase = .ready → s.bsrd < s.bslen → (nodeAt s s.root).leaf = true → bsBit s s.bsrd = false →
      exec .dec s = .next { s with
        result0 := BitVec.ofNat 32 (nodeAt s s.root).sym, result1 := 1, bsrd := s.bsrd + 1
        err := .ok, lcmd := { s.lcmd with valid := false } }) ∧
    (s.phase = .ready → s.bsrd < s.bslen → (nodeAt s s.root).leaf = true → bsBit s s.bsrd = true →
      exec .dec s = .next (s.afterError .invalidPath)) ∧
    (s.phase = .ready → s.bsrd < s.bslen → (nodeAt s s.root).leaf = false → ∀ n, 1 ≤ n → n ≤ s.bslen - s.bsrd →
      (∀ m, 1 ≤ m → m < n → (nodeAt s (follow s.node s.root (streamBits s s.bsrd m))).leaf = false) →
      (nodeAt s (follow s.node s.root (streamBits s s.bsrd n))).leaf = true →
      exec .dec s = .next { s with
        result0 := BitVec.ofNat 32 (nodeAt s (follow s.node s.root (streamBits s s.bsrd n))).sym
        result1 := BitVec.ofNat 32 n, bsrd := s.bsrd + n
        err := .ok, lcmd := { s.lcmd with valid := false } }) ∧
    (s.phase = .ready → s.bsrd < s.bslen → (nodeAt s s.root).leaf = false →
      (∀ m, 1 ≤ m → m ≤ s.bslen - s.bsrd →
        (nodeAt s (follow s.node s.root (streamBits s s.bsrd m))).leaf = false) →
      exec .dec s = .next (s.afterError .truncatedStream)) ∧
    RunsFormatN 0x05 .dec s

/-! ## Errors (60_exceptions.md) -/

/-- R40, R84: every command, on every state, completes: it answers a next state with no command latched. No command
faults and none is refused. -/
def Obligations.EveryCommandCompletes : Prop :=
  ∀ (i : Instr) (s : State), ∃ t, exec i s = .next t ∧ t.lcmd = { s.lcmd with valid := false }

/-- R181: a command that raises an error, an illegal word among them, changes ERR and BUSY and nothing else. -/
def Obligations.ErrorChangesOnlyErrAndBusy : Prop :=
  ∀ s t : State, (runLatched s = .next t ∨ ∃ i, exec i s = .next t) → t.err ≠ .ok →
    t = { s with err := t.err, lcmd := { s.lcmd with valid := false } } ∧
    (s.resetState = .running → busy t = false)

/-- R180, R185: the codes each command word can report, and the number each code has in STATUS bits 11:8; 10 to 15 are never
reported. -/
def Obligations.ErrorCodesPerCommand : Prop :=
  (∀ s t : State, runLatched s = .next t → t.err = .ok ∨ t.err ∈ errorsOfOpcode s.lcmd.op.toNat) ∧
  (∀ (s : State) (e : Err) (n : Nat),
    (e, n) ∈ [(Err.ok, 0), (.emptyInput, 1), (.unknownSymbol, 2), (.truncatedStream, 3), (.illegalCommand, 4),
      (.sequence, 5), (.range, 6), (.countOverflow, 7), (.bsOverflow, 8), (.invalidPath, 9)] →
    s.err = e → ((statusWord s).extractLsb' 8 4).toNat = n) ∧
  (∀ s : State, ((statusWord s).extractLsb' 8 4).toNat ≤ 9)

/-- R182: IllegalCommand before Sequence, Sequence before Range, Range before the command's own conditions. -/
def Obligations.ErrorPriority : Prop :=
  ∀ s : State,
    (∀ e, decode (latchedWord s) = .error e → runLatched s = .next (s.afterError .illegalCommand)) ∧
    (∀ i, decode (latchedWord s) = .ok i →
      (∀ p, Instr.phaseNeeded i = some p → s.phase ≠ p → runLatched s = .next (s.afterError .sequence)) ∧
      ((∀ p, Instr.phaseNeeded i = some p → s.phase = p) →
        (¬ Instr.inRange s i → runLatched s = .next (s.afterError .range)) ∧
        (Instr.inRange s i → ∀ t, runLatched s = .next t →
          t.err ≠ .illegalCommand ∧ t.err ≠ .sequence ∧ t.err ≠ .range)))

/-- R183: reissuing a failed command in the state it left raises the same error again. -/
def Obligations.ReissuedCommandFailsAgain : Prop :=
  ∀ (i : Instr) (s t : State), exec i s = .next t → t.err ≠ .ok → exec i t = .next t

/-! ## The register window and the host (10_state.md, 20_memory.md, 70_reset_and_hazards.md) -/

/-- R39, R61: a word read of each register of the map returns its value; CMD and the reserved offsets read 0. -/
def Obligations.RegisterMapReads : Prop :=
  ∀ (s : State) (off : Nat) (v : Word), s.resetState ≠ .asserted →
    (off, v) ∈ [(0x00, (0x48554646 : Word)), (0x04, 0#16 ++ BitVec.ofNat 8 s.cfg.cntW ++ BitVec.ofNat 8 s.cfg.symW),
      (0x08, BitVec.ofNat 32 s.cfg.bsCap), (0x0C, 0), (0x10, s.arg), (0x14, statusWord s), (0x18, s.result0),
      (0x1C, s.result1), (0x20, s.result2), (0x24, BitVec.ofNat 32 s.total), (0x28, BitVec.ofNat 32 s.nleaf),
      (0x2C, BitVec.ofNat 32 s.root), (0x30, BitVec.ofNat 32 s.bslen), (0x34, BitVec.ofNat 32 s.bsrd), (0x38, 0),
      (0x3C, 0)] →
    ∃ t, hostStep (.read (s.cfg.base + off) .word) s = .next t ∧ t.busData = some v

/-- R27: the fields of STATUS, its reset value, and that no write changes it. The number of each error code is in
ErrorCodesPerCommand. -/
def Obligations.StatusFields : Prop :=
  ∀ s : State,
    (statusWord s).getLsbD 0 = (s.lcmd.valid || decide (s.resetState = .initialising)) ∧
    (statusWord s).getLsbD 1 = decide (s.phase = .ready) ∧
    (statusWord s).getLsbD 2 = decide (s.bsrd = s.bslen) ∧
    (statusWord s).getLsbD 3 = s.ovr ∧
    (∀ j, 4 ≤ j → j < 8 → (statusWord s).getLsbD j = false) ∧
    (statusWord s).extractLsb' 8 4 = s.err.number ∧
    (∀ j, 12 ≤ j → (statusWord s).getLsbD j = false) ∧
    (∀ c, statusWord (State.resetOf c) = 0x00000004) ∧
    (∀ off size v, 0x14 ≤ off → off < 0x18 → writeAt off size v s = s)

/-- R62, R65: a host read of a byte, or of a halfword at an even offset, returns its lane of what a word read of the register
returns, in the low bits of the value (log 7); a misaligned read returns 0 and a misaligned write is ignored, also one that
crosses the upper edge of the window (log 14). Alignment is that of the offset (log 21). -/
def Obligations.NarrowReadsReturnLanes : Prop :=
  ∀ (s : State) (off : Nat), s.resetState ≠ .asserted → off < 0x40 →
    (∃ r v, hostStep (.read (s.cfg.base + (off - off % 4)) .word) s = .next r ∧ r.busData = some v ∧
      (∃ t w, hostStep (.read (s.cfg.base + off) .byte) s = .next t ∧ t.busData = some w ∧
        ∀ j, w.getLsbD j = (decide (j < 8) && v.getLsbD (8 * (off % 4) + j))) ∧
      (off % 2 = 0 → ∃ t w, hostStep (.read (s.cfg.base + off) .half) s = .next t ∧ t.busData = some w ∧
        ∀ j, w.getLsbD j = (decide (j < 16) && v.getLsbD (8 * (off % 4) + j)))) ∧
    (∀ size, size = .half ∧ off % 2 = 1 ∨ size = .word ∧ off % 4 ≠ 0 →
      (∃ t, hostStep (.read (s.cfg.base + off) size) s = .next t ∧ t.busData = some 0) ∧
      ∀ v, hostStep (.write (s.cfg.base + off) size v) s =
        .next { s with host := s.host.tail, busyFor := s.busyFor - 1 })

/-- R66: no read changes the block: the host moves on, the value is returned, and the same read again returns the same. -/
def Obligations.ReadsHaveNoSideEffect : Prop :=
  ∀ (s t : State) (addr : Nat) (size : Size), hostStep (.read addr size) s = .next t →
    t = { s with host := s.host.tail, busData := t.busData, busyFor := s.busyFor - 1 } ∧
    ∃ u, hostStep (.read addr size) t = .next u ∧ u.busData = t.busData

/-- R63, R64, R65: every write but an aligned word write to CMD or ARG is ignored, and no access faults. A write that begins in
the window and crosses its upper edge is ignored too, which is log 14's inference; busyFor is the free count of log 5. -/
def Obligations.OtherWritesAreIgnored : Prop :=
  ∀ (s : State) (off : Nat) (size : Size) (v : Word), s.resetState ≠ .asserted → off < 0x40 →
    ¬ (size = .word ∧ (off = 0x0C ∨ off = 0x10)) →
    hostStep (.write (s.cfg.base + off) size v) s =
      .next { s with host := s.host.tail, busyFor := s.busyFor - 1 }

/-- R40 items 1 and 2, R24: a word write to CMD while BUSY = 0 latches the word and the ARG of that moment and sets BUSY;
nothing else of the block changes. The length of the busy period is the free value (log 5). -/
def Obligations.CmdWriteIsAccepted : Prop :=
  ∀ (s : State) (w : Word), s.resetState ≠ .asserted → busy s = false →
    ∃ t, hostStep (.write (s.cfg.base + 0x0C) .word w) s = .next t ∧ busy t = true ∧
      t = { s with
            lcmd := { valid := true, op := w.extractLsb' 0 8, a := w.extractLsb' 8 24, arg := s.arg }
            host := s.host.tail, busyFor := Config.completionAccesses s.issued, issued := s.issued + 1 }

/-- R210: a word write to CMD while BUSY = 1 is dropped, with LCMD unchanged, and sets OVR. -/
def Obligations.CmdWriteWhileBusyIsDropped : Prop :=
  ∀ (s : State) (w : Word), s.resetState ≠ .asserted → busy s = true →
    hostStep (.write (s.cfg.base + 0x0C) .word w) s =
      .next { s with ovr := true, host := s.host.tail, busyFor := s.busyFor - 1 }

/-- R25: ARG holds the last word the host wrote to it: a step changes ARG only by such a write or by reset, a command
never, and a command uses the value of the moment it was issued. That reset sets it to 0 both at the assertion and at the
completion of the initialisation are the model's inferences (log 9, log 10). -/
def Obligations.OnlyTheHostWritesArg : Prop :=
  (∀ (i : Instr) (s t : State), exec i s = .next t → t.arg = s.arg) ∧
  (∀ (s : State) (v : Word), s.resetState ≠ .asserted →
    hostStep (.write (s.cfg.base + 0x10) .word v) s =
      .next { s with arg := v, host := s.host.tail, busyFor := s.busyFor - 1 }) ∧
  (∀ s t : State, step s = .next t → t.arg ≠ s.arg →
    (turn s = .host .assertReset ∧ t.arg = 0) ∨
    (turn s = .engine ∧ s.resetState = .initialising ∧ t.arg = 0) ∨
    turn s = .host (.write (s.cfg.base + 0x10) .word t.arg)) ∧
  (∀ s : State, regAt s 0x10 = s.arg) ∧ (∀ (s : State) (w : Word), (issue w s).lcmd.arg = s.arg) ∧
  (∀ c, (State.resetOf c).arg = 0)

/-- R31: OVR is set by a dropped CMD write and by nothing else, and cleared only by a successful CLEAR and by reset. -/
def Obligations.OvrIsSticky : Prop :=
  ∀ s t : State, step s = .next t →
    (s.ovr = false → t.ovr = true →
      busy s = true ∧ ∃ w, turn s = .host (.write (s.cfg.base + 0x0C) .word w)) ∧
    (∀ w, busy s = true → turn s = .host (.write (s.cfg.base + 0x0C) .word w) → t.ovr = true) ∧
    (s.ovr = true → t.ovr = false →
      turn s = .host .assertReset ∨
      (turn s = .engine ∧ decode (latchedWord s) = .ok .clear ∧ t.err = .ok))

/-- R29: a successful BUILD makes PHASE READY, CLEAR and reset make it COUNTING, and nothing else writes it. -/
def Obligations.OnlyBuildAndClearWritePhase : Prop :=
  (∀ s t : State, step s = .next t →
    (s.phase = .counting → t.phase = .ready →
      turn s = .engine ∧ decode (latchedWord s) = .ok .build ∧ t.err = .ok) ∧
    (s.phase = .ready → t.phase = .counting →
      turn s = .host .assertReset ∨ (turn s = .engine ∧ decode (latchedWord s) = .ok .clear))) ∧
  (∀ s t : State, exec .build s = .next t → t.err = .ok → t.phase = .ready) ∧
  (∀ s t : State, exec .clear s = .next t → t.phase = .counting) ∧
  (∀ s : State, (assertReset s).phase = .counting)

/-- R70, R211: while the host moves, and does not assert reset, no command's effect appears: the results, ERR, PHASE, the
counts and the tables keep their values. -/
def Obligations.HostStepsShowNoCommandEffect : Prop :=
  ∀ s t : State, step s = .next t → turn s ≠ .engine → turn s ≠ .host .assertReset →
    t = { s with
          arg := t.arg, ovr := t.ovr, lcmd := t.lcmd, resetState := t.resetState, host := t.host
          busData := t.busData, busyFor := t.busyFor, issued := t.issued }

/-- R202, U3: an access while reset is asserted is refused, by name. R60, U4: so is one outside the window; that an access lies
outside by its first byte is the model's inference (log 14). -/
def Obligations.AccessesTheSpecRefuses : Prop :=
  ∀ (s : State) (addr : Nat) (size : Size) (v : Word),
    (s.resetState = .asserted →
      hostStep (.read addr size) s = .refused .accessWhileResetAsserted ∧
      hostStep (.write addr size v) s = .refused .accessWhileResetAsserted ∧
      hostStep .poll s = .refused .accessWhileResetAsserted) ∧
    (s.resetState ≠ .asserted → addr < s.cfg.base ∨ s.cfg.base + 0x40 ≤ addr →
      hostStep (.read addr size) s = .refused .accessOutsideWindow ∧
      hostStep (.write addr size v) s = .refused .accessOutsideWindow)

/-- R200, R201: asserting and releasing reset, with no host access during initialisation, takes any block, a command in
progress or not, to the reset state. And whatever the host did during initialisation, its completion leaves every value of
R200 but OVR, which is still 1 after a dropped CMD write. It is the host's turn at the start: a completion that comes first is
another run (log 5). The model's choices in it: that LCMD.op, a and arg are 0 after reset (log 12), when each part is zeroed
(log 9), that ARG is 0 whatever was written during initialisation (log 10), and OVR (log 11). -/
def Obligations.ResetGivesTheResetState : Prop :=
  (∀ s : State, s.cfg.legal = true → s.host = [.assertReset, .releaseReset] →
    turn s = .host .assertReset →
    ∃ t, runSteps 3 s = .next t ∧
      t = { State.resetOf s.cfg with busData := s.busData, busyFor := t.busyFor, issued := s.issued + 1 }) ∧
  (∀ s : State, s.Inv → s.resetState = .initialising → turn s = .engine →
    step s = .next { State.resetOf s.cfg with
      ovr := s.ovr, lcmd := s.lcmd, host := s.host, busData := s.busData, busyFor := s.busyFor, issued := s.issued } ∧
    s.lcmd.valid = false)

/-- R201: during initialisation STATUS reads 0x00000005 (while no CMD write has been dropped), every read-only register
reads its reset value, and a CMD write is dropped and sets OVR. -/
def Obligations.InitialisationIsBusy : Prop :=
  ∀ s : State, s.Inv → s.resetState = .initialising →
    busy s = true ∧ (s.ovr = false → statusWord s = 0x00000005) ∧
    (∀ off, off ∈ [0x00, 0x04, 0x08, 0x18, 0x1C, 0x20, 0x24, 0x28, 0x2C, 0x30, 0x34] →
      regAt s off = regAt (State.resetOf s.cfg) off) ∧
    (∀ w, hostStep (.write (s.cfg.base + 0x0C) .word w) s =
      .next { s with ovr := true, host := s.host.tail, busyFor := s.busyFor - 1 })

/-! ## Invariants (10_state.md R45) -/

/-- The invariants hold after reset, for every legal choice of the parameters. -/
def Obligations.InvariantHoldsAtReset : Prop :=
  State.reset = State.resetOf Config.reference ∧ Config.reference.legal = true ∧
  ∀ c : Config, c.legal = true → (State.resetOf c).Inv

/-- From every state that meets the invariants, a step gives a state that meets them: TOTAL is the sum of the counts, NLEAF
the number of present symbols, BSRD <= BSLEN <= BS_CAP, NODE and CODE are empty in COUNTING and BUILD's in READY, every
table is canonical and within its bounds. -/
def Obligations.StepKeepsTheInvariant : Prop :=
  ∀ s t : State, s.Inv → step s = .next t → t.Inv

/-- R7: the parameters are fixed: no step changes them, and with illegal ones there is no step. -/
def Obligations.ParametersAreFixed : Prop :=
  (∀ s t : State, step s = .next t → t.cfg = s.cfg) ∧
  (∀ s : State, s.cfg.legal = false → step s = .refused .parametersOutOfRange)

/-! ## The tree and the codes (42_tree_builder.md, 43_code_assigner.md) -/

/-- R122: the shape of the tree for NLEAF >= 2. -/
def Obligations.TreeShape : Prop :=
  ∀ s : State, s.Inv → s.resetState = .running → s.phase = .ready → 2 ≤ s.nleaf →
    s.root = 2 * s.nleaf - 2 ∧
    (∀ j, j < s.nleaf → nodeAt s j =
      { leaf := true, sym := (presentSymbols s.cfg s.freq).getD j 0, left := 0, right := 0
        freq := freqAt s ((presentSymbols s.cfg s.freq).getD j 0) }) ∧
    (∀ i, s.nleaf ≤ i → i ≤ s.root →
      (nodeAt s i).leaf = false ∧ (nodeAt s i).sym = 0 ∧ (nodeAt s i).left < i ∧ (nodeAt s i).right < i ∧
      (nodeAt s i).left ≠ (nodeAt s i).right) ∧
    (∀ j, j < s.root → ∃ p, (s.nleaf ≤ p ∧ p ≤ s.root ∧ ((nodeAt s p).left = j ∨ (nodeAt s p).right = j)) ∧
      ∀ q, s.nleaf ≤ q → q ≤ s.root → (nodeAt s q).left = j ∨ (nodeAt s q).right = j → q = p) ∧
    (∀ i, s.root < i → nodeAt s i = Node.zero)

/-- R121 (the merge, the child order, the sum) and R123 (the order of removal): each internal node merges the two members of the priority collection with the least keys (freq, index): the
least is its left child, the next its right child, and its freq is their sum. -/
def Obligations.MergesTakeTheTwoLeast : Prop :=
  ∀ s : State, s.Inv → s.resetState = .running → s.phase = .ready → 2 ≤ s.nleaf →
    ∀ i, s.nleaf ≤ i → i ≤ s.root →
      Available s i (nodeAt s i).left ∧ Available s i (nodeAt s i).right ∧
      Before s (nodeAt s i).left (nodeAt s i).right ∧
      (∀ j, Available s i j → j ≠ (nodeAt s i).left → j ≠ (nodeAt s i).right → Before s (nodeAt s i).right j) ∧
      (nodeAt s i).freq = (nodeAt s (nodeAt s i).left).freq + (nodeAt s (nodeAt s i).right).freq

/-- R124: no node's frequency exceeds TOTAL, so none overflows CNT_W bits; the root's equals TOTAL. -/
def Obligations.RootFrequencyIsTotal : Prop :=
  ∀ s : State, s.Inv → s.resetState = .running → s.phase = .ready →
    (nodeAt s s.root).freq = s.total ∧ ∀ i, (nodeAt s i).freq ≤ s.total ∧ s.total < 2 ^ s.cfg.cntW

/-- R120, R140, R141, the degenerate case: with one symbol the tree is one leaf and the code is "0". -/
def Obligations.OneSymbolGetsTheCodeZero : Prop :=
  ∀ s : State, s.Inv → s.resetState = .running → s.phase = .counting → s.nleaf = 1 →
    ∃ t k, exec .build s = .next t ∧ k < s.cfg.nsym ∧ 0 < freqAt s k ∧ t.root = 0 ∧
      nodeAt t 0 = { leaf := true, sym := k, left := 0, right := 0, freq := freqAt s k } ∧
      (∀ i, i ≠ 0 → nodeAt t i = Node.zero) ∧ codeAt t k = [false] ∧ (∀ j, j ≠ k → codeAt t j = []) ∧
      t.result0 = 0 ∧ t.result1 = 1 ∧ t.result2 = 1

/-- R140: a symbol that was not counted has no code; the one symbol of a one-leaf tree has the code "0"; for NLEAF >= 2 the
code of a counted symbol is the path from the root to its leaf, left = 1 and right = 0, the first bit nearest the root. (Its
length is at most NLEAF - 1: R141, the spec's own inference.) -/
def Obligations.CodeIsThePathToTheLeaf : Prop :=
  ∀ s : State, s.Inv → s.resetState = .running → s.phase = .ready →
    ∀ k, k < s.cfg.nsym →
      (freqAt s k = 0 → codeAt s k = []) ∧
      (0 < freqAt s k → s.nleaf = 1 → codeAt s k = [false]) ∧
      (0 < freqAt s k → 2 ≤ s.nleaf →
        1 ≤ (codeAt s k).length ∧ (codeAt s k).length ≤ s.nleaf - 1 ∧
        (nodeAt s (follow s.node s.root (codeAt s k))).leaf = true ∧
        (nodeAt s (follow s.node s.root (codeAt s k))).sym = k ∧
        ∀ m, m < (codeAt s k).length →
          (nodeAt s (follow s.node s.root ((codeAt s k).take m))).leaf = false)

/-- R45 item 5: in READY a symbol has a code exactly when it was counted, and no code is longer than MAX_CODE_LEN. -/
def Obligations.CountedSymbolsHaveCodes : Prop :=
  ∀ s : State, s.Inv → s.resetState = .running → s.phase = .ready →
    ∀ k, k < s.cfg.nsym →
      (1 ≤ (codeAt s k).length ↔ 0 < freqAt s k) ∧ (codeAt s k).length ≤ s.cfg.maxCodeLen

/-- R142 item 1: no counted symbol's code is a prefix of another's. -/
def Obligations.CodesArePrefixFree : Prop :=
  ∀ s : State, s.Inv → s.resetState = .running → s.phase = .ready →
    ∀ j k, 0 < freqAt s j → 0 < freqAt s k → j ≠ k → ¬ codeAt s j <+: codeAt s k

/-- R142 item 2: for NLEAF >= 2 every infinite bit sequence has exactly one counted symbol's code as a prefix. -/
def Obligations.CodesAreComplete : Prop :=
  ∀ s : State, s.Inv → s.resetState = .running → s.phase = .ready → 2 ≤ s.nleaf →
    ∀ bits : Nat → Bool, ∃ k, (0 < freqAt s k ∧ ∀ m, m < (codeAt s k).length → (codeAt s k).getD m false = bits m) ∧
      ∀ j, 0 < freqAt s j → (∀ m, m < (codeAt s j).length → (codeAt s j).getD m false = bits m) → j = k

/-- R142 item 4: the tree and the code table depend only on the counts. -/
def Obligations.CodesDependOnlyOnCounts : Prop :=
  ∀ s t u v : State, s.Inv → t.Inv → s.resetState = .running → t.resetState = .running →
    s.cfg = t.cfg → (∀ k, freqAt s k = freqAt t k) →
    s.phase = .counting → t.phase = .counting → s.nleaf ≠ 0 →
    exec .build s = .next u → exec .build t = .next v → u.code = v.code ∧ u.node = v.node ∧ u.root = v.root

/-! ## Sessions (41_frequency_counter.md R113, 44_bitstream_encoder.md R151, 45_bitstream_decoder.md R171, R172, R174) -/

/-- R113: CLEAR and then COUNT of each symbol of the input: the counts are the numbers of occurrences, TOTAL the input's
length, NLEAF the number of distinct symbols; and every COUNT succeeds on an input of symbols no longer than CNT_MAX. -/
def Obligations.CountingGivesTheFrequencies : Prop :=
  ∀ (s : State) (xs : List Nat), s.Inv → s.resetState = .running →
    (∀ t, runCommands (.clear :: xs.map .count) s = some t →
      (∀ k, freqAt t k = xs.count k) ∧ t.total = xs.length ∧ t.nleaf = xs.dedup.length) ∧
    ((∀ x ∈ xs, x < s.cfg.nsym) → xs.length ≤ s.cfg.cntMax →
      ∃ t, runCommands (.clear :: xs.map .count) s = some t)

/-- R151: successful ENC commands append the codes, in order, and nothing else; for the session's own input the length added
is the sum over the symbols of FREQ times code length. -/
def Obligations.EncodingConcatenatesTheCodes : Prop :=
  ∀ (s t : State) (xs : List Nat), s.Inv → s.resetState = .running → s.phase = .ready →
    runCommands (xs.map .enc) s = some t →
    t.bslen = s.bslen + ((xs.map (codeAt s)).flatten).length ∧
    streamBits t s.bslen (t.bslen - s.bslen) = (xs.map (codeAt s)).flatten ∧
    streamBits t 0 s.bslen = streamBits s 0 s.bslen ∧
    ((∀ k, xs.count k = freqAt s k) →
      t.bslen - s.bslen = ((List.range s.cfg.nsym).map fun k => freqAt s k * (codeAt s k).length).sum)

/-- R171: when DEC until EOS raises no error, the symbols returned are the one sequence whose codes, concatenated, are the
stream. -/
def Obligations.DecodingIsTheUniqueParse : Prop :=
  ∀ (s t : State) (n : Nat) (ws : List Word), s.Inv → s.resetState = .running → s.phase = .ready → s.bsrd = 0 →
    decodeMany n s = some (ws, t) → eos t = true →
    ∃ ys : List Nat, (∀ y ∈ ys, 0 < freqAt s y) ∧ ws = ys.map (BitVec.ofNat 32) ∧
      (ys.map (codeAt s)).flatten = streamBits s 0 s.bslen ∧
      ∀ zs : List Nat, (∀ z ∈ zs, 0 < freqAt s z) → (zs.map (codeAt s)).flatten = streamBits s 0 s.bslen → zs = ys

/-- R171, its second half: when no sequence of counted symbols has the stream as its codes, some DEC fails: the DECs before it
succeed, and decode a sequence whose codes are the stream up to BSRD; that DEC raises TruncatedStream, or InvalidPath in the
one-leaf tree, with nothing else changed; and its walk cannot end at a leaf, since no counted symbol's code begins what is left
of the stream. (The spec's own inference from R170 and R142.) -/
def Obligations.UnparsableStreamFailsToDecode : Prop :=
  ∀ s : State, s.Inv → s.resetState = .running → s.phase = .ready → s.bsrd = 0 →
    (¬ ∃ ys : List Nat, (∀ y ∈ ys, 0 < freqAt s y) ∧ (ys.map (codeAt s)).flatten = streamBits s 0 s.bslen) →
    ∃ (n : Nat) (ws : List Word) (t : State) (ys : List Nat), decodeMany n s = some (ws, t) ∧
      (∀ y ∈ ys, 0 < freqAt s y) ∧ ws = ys.map (BitVec.ofNat 32) ∧
      (ys.map (codeAt s)).flatten = streamBits s 0 t.bsrd ∧
      eos t = false ∧
      exec .dec t = .next (t.afterError (if s.nleaf = 1 then .invalidPath else .truncatedStream)) ∧
      ∀ k, 0 < freqAt s k → ¬ codeAt s k <+: streamBits s t.bsrd (s.bslen - t.bsrd)

/-- R172, the round trip: CLEAR, COUNT the input, BUILD, ENC the input, REWIND, all successful; then DEC returns the input, in
order, and the stream is exhausted. -/
def Obligations.RoundTrip : Prop :=
  ∀ (s u : State) (xs : List Nat), s.Inv → s.resetState = .running →
    runCommands (.clear :: xs.map .count ++ .build :: xs.map .enc ++ [.rewind]) s = some u →
    ∃ v, decodeMany xs.length u = some (xs.map (BitVec.ofNat 32), v) ∧ eos v = true

/-- R174, the truncation property as 90_conflicts.md C2 restates it: when the stream left to decode is a proper, non-empty
prefix of a counted symbol's code, DEC raises TruncatedStream and changes nothing but ERR and BUSY. -/
def Obligations.CutCodeIsTruncatedStream : Prop :=
  ∀ (s : State) (k : Nat), s.Inv → s.resetState = .running → s.phase = .ready → 0 < freqAt s k →
    s.bsrd < s.bslen → s.bslen - s.bsrd < (codeAt s k).length →
    streamBits s s.bsrd (s.bslen - s.bsrd) = (codeAt s k).take (s.bslen - s.bsrd) →
    exec .dec s = .next (s.afterError .truncatedStream)

/-! ## The host's program (30_encoding.md R88, 70_reset_and_hazards.md R214, R216) -/

/-- A command reads and writes the block's state only: with other values in the model's own fields (the host's statements,
the last value read, the two counters of log 5, log 6, log 7) it does the same and leaves them as they are. -/
def Obligations.CommandsIgnoreTheModelsOwnFields : Prop :=
  ∀ (i : Instr) (s t : State) (h : List HostStmt) (d : Option Word) (b n : Nat), exec i s = .next t →
    exec i { s with host := h, busData := d, busyFor := b, issued := n } =
      .next { t with host := h, busData := d, busyFor := b, issued := n }

/-- R88, R214: a POLL ends: a busy period of free length `busyFor` is over after that many reads, and the block's step; the
last value read is the STATUS word with BUSY = 0. -/
def Obligations.PollEndsAfterTheBusyPeriod : Prop :=
  ∀ (s : State) (rest : List HostStmt), s.Inv → s.resetState ≠ .asserted → s.host = .poll :: rest →
    ∃ n t, n ≤ s.busyFor + 2 ∧ runSteps n s = .next t ∧ t.host = rest ∧ busy t = false ∧
      t.busData = some (statusWord t)

/-- R88, R40: on an idle block the expansion of a mnemonic, `WR ARG, v` where the command uses ARG, then `WR CMD` and POLL, runs
exactly that command, whatever the free length of its busy period: the end state is exec's, from the state with ARG
written and the word latched. -/
def Obligations.MnemonicRunsItsCommand : Prop :=
  ∀ (s : State) (i : Instr) (v : Word) (rest : List HostStmt), s.Inv → s.resetState = .running → busy s = false →
    i.wf = true → s.host = expand s.cfg i v ++ rest →
    let arg := if Instr.usesArg i then v else s.arg
    ∃ n t u, runSteps n s = .next u ∧
      exec i { s with
        arg := arg
        lcmd := { valid := true, op := i.opcode, a := BitVec.ofNat 24 i.operand, arg := arg } } = .next t ∧
      u = { t with host := rest, busData := some (statusWord u), busyFor := u.busyFor, issued := s.issued + 1 }

/-- R216, the end of a run: nobody moves exactly when the run has ended, and then a step changes nothing (log 18); a program
whose last statement leaves a command or the reset initialisation in progress has not ended: the engine moves. -/
def Obligations.RunEndsWhenNobodyMoves : Prop :=
  ∀ s : State, s.Inv →
    (turn s = .idle ↔ s.Ended) ∧ (s.Ended → step s = .next s) ∧
    (s.host = [] → busy s = true → turn s = .engine ∧ ∃ t, step s = .next t ∧ t.Ended)
end

