-- ==== Sys2Proof/Laws/Bits.lean ====
section
/-! SUPPORT. The laws of single bits of a word. -/

namespace Sys2Proof.Machine

open Sys2Proof

theorem getLsbD_setBit (w : Word) (k j : Nat) (b : Bool) (hk : k < 32) :
    (setBit w k b).getLsbD j = if j = k then b else w.getLsbD j := by
  by_cases hj : j < 32
  · cases b <;> by_cases h : j = k <;> simp [setBit, h, hk, hj, Ne.symm]
  · have h : j ≠ k := by omega
    rw [BitVec.getLsbD_of_ge _ _ (by omega), BitVec.getLsbD_of_ge _ _ (by omega), if_neg h]

theorem getLsbD_setBit_same (w : Word) (k : Nat) (b : Bool) (hk : k < 32) : (setBit w k b).getLsbD k = b := by
  rw [getLsbD_setBit _ _ _ _ hk, if_pos rfl]

theorem getLsbD_setBit_other (w : Word) {k j : Nat} (b : Bool) (hk : k < 32) (h : j ≠ k) :
    (setBit w k b).getLsbD j = w.getLsbD j := by
  rw [getLsbD_setBit _ _ _ _ hk, if_neg h]

/-- Bit `j` of the word made from `f` is `f j` below `n`, and 0 from there on. -/
theorem getLsbD_wordOfBits (f : Nat → Bool) (n j : Nat) (hn : n ≤ 32) :
    (wordOfBits f n).getLsbD j = (decide (j < n) && f j) := by
  induction n with
  | zero => simp [wordOfBits]
  | succ n ih =>
    rw [wordOfBits, getLsbD_setBit _ _ _ _ (by omega), ih (by omega)]
    by_cases h : j = n
    · simp [h]
    · have : (j < n + 1) ↔ j < n := by omega
      simp [h, this]

end Sys2Proof.Machine
end

