-- ==== Sys2Proof/Laws/State.lean ====
section
/-! SUPPORT. One lemma per field of State for each named update of the machine, so that no proof unfolds a record update. -/

namespace Sys2Proof.Machine

open Sys2Proof

/-! ### complete -/

@[simp] theorem complete_cfg (e : Err) (s : State) : (complete e s).cfg = s.cfg := rfl
@[simp] theorem complete_arg (e : Err) (s : State) : (complete e s).arg = s.arg := rfl
@[simp] theorem complete_phase (e : Err) (s : State) : (complete e s).phase = s.phase := rfl
@[simp] theorem complete_ovr (e : Err) (s : State) : (complete e s).ovr = s.ovr := rfl
@[simp] theorem complete_err (e : Err) (s : State) : (complete e s).err = e := rfl
@[simp] theorem complete_result0 (e : Err) (s : State) : (complete e s).result0 = s.result0 := rfl
@[simp] theorem complete_result1 (e : Err) (s : State) : (complete e s).result1 = s.result1 := rfl
@[simp] theorem complete_result2 (e : Err) (s : State) : (complete e s).result2 = s.result2 := rfl
@[simp] theorem complete_total (e : Err) (s : State) : (complete e s).total = s.total := rfl
@[simp] theorem complete_nleaf (e : Err) (s : State) : (complete e s).nleaf = s.nleaf := rfl
@[simp] theorem complete_root (e : Err) (s : State) : (complete e s).root = s.root := rfl
@[simp] theorem complete_bslen (e : Err) (s : State) : (complete e s).bslen = s.bslen := rfl
@[simp] theorem complete_bsrd (e : Err) (s : State) : (complete e s).bsrd = s.bsrd := rfl
@[simp] theorem complete_lcmd (e : Err) (s : State) : (complete e s).lcmd = { s.lcmd with valid := false } := rfl
@[simp] theorem complete_freq (e : Err) (s : State) : (complete e s).freq = s.freq := rfl
@[simp] theorem complete_node (e : Err) (s : State) : (complete e s).node = s.node := rfl
@[simp] theorem complete_code (e : Err) (s : State) : (complete e s).code = s.code := rfl
@[simp] theorem complete_bs (e : Err) (s : State) : (complete e s).bs = s.bs := rfl
@[simp] theorem complete_resetState (e : Err) (s : State) : (complete e s).resetState = s.resetState := rfl
@[simp] theorem complete_host (e : Err) (s : State) : (complete e s).host = s.host := rfl
@[simp] theorem complete_busData (e : Err) (s : State) : (complete e s).busData = s.busData := rfl
@[simp] theorem complete_busyFor (e : Err) (s : State) : (complete e s).busyFor = s.busyFor := rfl
@[simp] theorem complete_issued (e : Err) (s : State) : (complete e s).issued = s.issued := rfl

/-! ### issue -/

@[simp] theorem issue_cfg (w : Word) (s : State) : (issue w s).cfg = s.cfg := rfl
@[simp] theorem issue_arg (w : Word) (s : State) : (issue w s).arg = s.arg := rfl
@[simp] theorem issue_phase (w : Word) (s : State) : (issue w s).phase = s.phase := rfl
@[simp] theorem issue_ovr (w : Word) (s : State) : (issue w s).ovr = s.ovr := rfl
@[simp] theorem issue_err (w : Word) (s : State) : (issue w s).err = s.err := rfl
@[simp] theorem issue_result0 (w : Word) (s : State) : (issue w s).result0 = s.result0 := rfl
@[simp] theorem issue_result1 (w : Word) (s : State) : (issue w s).result1 = s.result1 := rfl
@[simp] theorem issue_result2 (w : Word) (s : State) : (issue w s).result2 = s.result2 := rfl
@[simp] theorem issue_total (w : Word) (s : State) : (issue w s).total = s.total := rfl
@[simp] theorem issue_nleaf (w : Word) (s : State) : (issue w s).nleaf = s.nleaf := rfl
@[simp] theorem issue_root (w : Word) (s : State) : (issue w s).root = s.root := rfl
@[simp] theorem issue_bslen (w : Word) (s : State) : (issue w s).bslen = s.bslen := rfl
@[simp] theorem issue_bsrd (w : Word) (s : State) : (issue w s).bsrd = s.bsrd := rfl
@[simp] theorem issue_lcmd (w : Word) (s : State) :
    (issue w s).lcmd = { valid := true, op := opField w, a := aField w, arg := s.arg } := rfl
@[simp] theorem issue_freq (w : Word) (s : State) : (issue w s).freq = s.freq := rfl
@[simp] theorem issue_node (w : Word) (s : State) : (issue w s).node = s.node := rfl
@[simp] theorem issue_code (w : Word) (s : State) : (issue w s).code = s.code := rfl
@[simp] theorem issue_bs (w : Word) (s : State) : (issue w s).bs = s.bs := rfl
@[simp] theorem issue_resetState (w : Word) (s : State) : (issue w s).resetState = s.resetState := rfl
@[simp] theorem issue_host (w : Word) (s : State) : (issue w s).host = s.host := rfl
@[simp] theorem issue_busData (w : Word) (s : State) : (issue w s).busData = s.busData := rfl
@[simp] theorem issue_busyFor (w : Word) (s : State) : (issue w s).busyFor = Config.completionAccesses s.issued := rfl
@[simp] theorem issue_issued (w : Word) (s : State) : (issue w s).issued = s.issued + 1 := rfl

/-! ### placeCommand -/

@[simp] theorem placeCommand_cfg (w : Word) (s : State) : (placeCommand w s).cfg = s.cfg := rfl
@[simp] theorem placeCommand_arg (w : Word) (s : State) : (placeCommand w s).arg = s.arg := rfl
@[simp] theorem placeCommand_phase (w : Word) (s : State) : (placeCommand w s).phase = s.phase := rfl
@[simp] theorem placeCommand_ovr (w : Word) (s : State) : (placeCommand w s).ovr = s.ovr := rfl
@[simp] theorem placeCommand_err (w : Word) (s : State) : (placeCommand w s).err = s.err := rfl
@[simp] theorem placeCommand_result0 (w : Word) (s : State) : (placeCommand w s).result0 = s.result0 := rfl
@[simp] theorem placeCommand_result1 (w : Word) (s : State) : (placeCommand w s).result1 = s.result1 := rfl
@[simp] theorem placeCommand_result2 (w : Word) (s : State) : (placeCommand w s).result2 = s.result2 := rfl
@[simp] theorem placeCommand_total (w : Word) (s : State) : (placeCommand w s).total = s.total := rfl
@[simp] theorem placeCommand_nleaf (w : Word) (s : State) : (placeCommand w s).nleaf = s.nleaf := rfl
@[simp] theorem placeCommand_root (w : Word) (s : State) : (placeCommand w s).root = s.root := rfl
@[simp] theorem placeCommand_bslen (w : Word) (s : State) : (placeCommand w s).bslen = s.bslen := rfl
@[simp] theorem placeCommand_bsrd (w : Word) (s : State) : (placeCommand w s).bsrd = s.bsrd := rfl
@[simp] theorem placeCommand_lcmd (w : Word) (s : State) :
    (placeCommand w s).lcmd = { valid := true, op := opField w, a := aField w, arg := s.arg } := rfl
@[simp] theorem placeCommand_freq (w : Word) (s : State) : (placeCommand w s).freq = s.freq := rfl
@[simp] theorem placeCommand_node (w : Word) (s : State) : (placeCommand w s).node = s.node := rfl
@[simp] theorem placeCommand_code (w : Word) (s : State) : (placeCommand w s).code = s.code := rfl
@[simp] theorem placeCommand_bs (w : Word) (s : State) : (placeCommand w s).bs = s.bs := rfl
@[simp] theorem placeCommand_resetState (w : Word) (s : State) : (placeCommand w s).resetState = .running := rfl
@[simp] theorem placeCommand_host (w : Word) (s : State) : (placeCommand w s).host = s.host := rfl
@[simp] theorem placeCommand_busData (w : Word) (s : State) : (placeCommand w s).busData = s.busData := rfl
@[simp] theorem placeCommand_busyFor (w : Word) (s : State) : (placeCommand w s).busyFor = 0 := rfl
@[simp] theorem placeCommand_issued (w : Word) (s : State) : (placeCommand w s).issued = s.issued := rfl

/-! ### clearSession -/

@[simp] theorem clearSession_cfg (s : State) : (clearSession s).cfg = s.cfg := rfl
@[simp] theorem clearSession_arg (s : State) : (clearSession s).arg = s.arg := rfl
@[simp] theorem clearSession_phase (s : State) : (clearSession s).phase = .counting := rfl
@[simp] theorem clearSession_ovr (s : State) : (clearSession s).ovr = false := rfl
@[simp] theorem clearSession_err (s : State) : (clearSession s).err = s.err := rfl
@[simp] theorem clearSession_result0 (s : State) : (clearSession s).result0 = 0 := rfl
@[simp] theorem clearSession_result1 (s : State) : (clearSession s).result1 = 0 := rfl
@[simp] theorem clearSession_result2 (s : State) : (clearSession s).result2 = 0 := rfl
@[simp] theorem clearSession_total (s : State) : (clearSession s).total = 0 := rfl
@[simp] theorem clearSession_nleaf (s : State) : (clearSession s).nleaf = 0 := rfl
@[simp] theorem clearSession_root (s : State) : (clearSession s).root = 0 := rfl
@[simp] theorem clearSession_bslen (s : State) : (clearSession s).bslen = 0 := rfl
@[simp] theorem clearSession_bsrd (s : State) : (clearSession s).bsrd = 0 := rfl
@[simp] theorem clearSession_lcmd (s : State) : (clearSession s).lcmd = s.lcmd := rfl
@[simp] theorem clearSession_freq (s : State) : (clearSession s).freq = [] := rfl
@[simp] theorem clearSession_node (s : State) : (clearSession s).node = [] := rfl
@[simp] theorem clearSession_code (s : State) : (clearSession s).code = [] := rfl
@[simp] theorem clearSession_bs (s : State) : (clearSession s).bs = [] := rfl
@[simp] theorem clearSession_resetState (s : State) : (clearSession s).resetState = s.resetState := rfl
@[simp] theorem clearSession_host (s : State) : (clearSession s).host = s.host := rfl
@[simp] theorem clearSession_busData (s : State) : (clearSession s).busData = s.busData := rfl
@[simp] theorem clearSession_busyFor (s : State) : (clearSession s).busyFor = s.busyFor := rfl
@[simp] theorem clearSession_issued (s : State) : (clearSession s).issued = s.issued := rfl

/-! ### countSymbol -/

@[simp] theorem countSymbol_cfg (a : Nat) (s : State) : (countSymbol a s).cfg = s.cfg := rfl
@[simp] theorem countSymbol_arg (a : Nat) (s : State) : (countSymbol a s).arg = s.arg := rfl
@[simp] theorem countSymbol_phase (a : Nat) (s : State) : (countSymbol a s).phase = s.phase := rfl
@[simp] theorem countSymbol_ovr (a : Nat) (s : State) : (countSymbol a s).ovr = s.ovr := rfl
@[simp] theorem countSymbol_err (a : Nat) (s : State) : (countSymbol a s).err = s.err := rfl
@[simp] theorem countSymbol_result0 (a : Nat) (s : State) : (countSymbol a s).result0 = zext32 (freqAt s a + 1) := rfl
@[simp] theorem countSymbol_result1 (a : Nat) (s : State) : (countSymbol a s).result1 = s.result1 := rfl
@[simp] theorem countSymbol_result2 (a : Nat) (s : State) : (countSymbol a s).result2 = s.result2 := rfl
@[simp] theorem countSymbol_total (a : Nat) (s : State) : (countSymbol a s).total = s.total + 1 := rfl
@[simp] theorem countSymbol_nleaf (a : Nat) (s : State) :
    (countSymbol a s).nleaf = if freqAt s a = 0 then s.nleaf + 1 else s.nleaf := rfl
@[simp] theorem countSymbol_root (a : Nat) (s : State) : (countSymbol a s).root = s.root := rfl
@[simp] theorem countSymbol_bslen (a : Nat) (s : State) : (countSymbol a s).bslen = s.bslen := rfl
@[simp] theorem countSymbol_bsrd (a : Nat) (s : State) : (countSymbol a s).bsrd = s.bsrd := rfl
@[simp] theorem countSymbol_lcmd (a : Nat) (s : State) : (countSymbol a s).lcmd = s.lcmd := rfl
@[simp] theorem countSymbol_freq (a : Nat) (s : State) :
    (countSymbol a s).freq = Table.set 0 s.freq a (freqAt s a + 1) := rfl
@[simp] theorem countSymbol_node (a : Nat) (s : State) : (countSymbol a s).node = s.node := rfl
@[simp] theorem countSymbol_code (a : Nat) (s : State) : (countSymbol a s).code = s.code := rfl
@[simp] theorem countSymbol_bs (a : Nat) (s : State) : (countSymbol a s).bs = s.bs := rfl
@[simp] theorem countSymbol_resetState (a : Nat) (s : State) : (countSymbol a s).resetState = s.resetState := rfl
@[simp] theorem countSymbol_host (a : Nat) (s : State) : (countSymbol a s).host = s.host := rfl
@[simp] theorem countSymbol_busData (a : Nat) (s : State) : (countSymbol a s).busData = s.busData := rfl
@[simp] theorem countSymbol_busyFor (a : Nat) (s : State) : (countSymbol a s).busyFor = s.busyFor := rfl
@[simp] theorem countSymbol_issued (a : Nat) (s : State) : (countSymbol a s).issued = s.issued := rfl

/-! ### buildTables -/

@[simp] theorem buildTables_cfg (s : State) : (buildTables s).cfg = s.cfg := rfl
@[simp] theorem buildTables_arg (s : State) : (buildTables s).arg = s.arg := rfl
@[simp] theorem buildTables_phase (s : State) : (buildTables s).phase = .ready := rfl
@[simp] theorem buildTables_ovr (s : State) : (buildTables s).ovr = s.ovr := rfl
@[simp] theorem buildTables_err (s : State) : (buildTables s).err = s.err := rfl
@[simp] theorem buildTables_result0 (s : State) : (buildTables s).result0 = zext32 (builtTree s).2 := rfl
@[simp] theorem buildTables_result1 (s : State) : (buildTables s).result1 = zext32 s.nleaf := rfl
@[simp] theorem buildTables_result2 (s : State) :
    (buildTables s).result2 = zext32 (longestCode s.cfg (builtCode s)) := rfl
@[simp] theorem buildTables_total (s : State) : (buildTables s).total = s.total := rfl
@[simp] theorem buildTables_nleaf (s : State) : (buildTables s).nleaf = s.nleaf := rfl
@[simp] theorem buildTables_root (s : State) : (buildTables s).root = (builtTree s).2 := rfl
@[simp] theorem buildTables_bslen (s : State) : (buildTables s).bslen = s.bslen := rfl
@[simp] theorem buildTables_bsrd (s : State) : (buildTables s).bsrd = s.bsrd := rfl
@[simp] theorem buildTables_lcmd (s : State) : (buildTables s).lcmd = s.lcmd := rfl
@[simp] theorem buildTables_freq (s : State) : (buildTables s).freq = s.freq := rfl
@[simp] theorem buildTables_node (s : State) : (buildTables s).node = (builtTree s).1 := rfl
@[simp] theorem buildTables_code (s : State) : (buildTables s).code = builtCode s := rfl
@[simp] theorem buildTables_bs (s : State) : (buildTables s).bs = s.bs := rfl
@[simp] theorem buildTables_resetState (s : State) : (buildTables s).resetState = s.resetState := rfl
@[simp] theorem buildTables_host (s : State) : (buildTables s).host = s.host := rfl
@[simp] theorem buildTables_busData (s : State) : (buildTables s).busData = s.busData := rfl
@[simp] theorem buildTables_busyFor (s : State) : (buildTables s).busyFor = s.busyFor := rfl
@[simp] theorem buildTables_issued (s : State) : (buildTables s).issued = s.issued := rfl

/-! ### appendCode -/

@[simp] theorem appendCode_cfg (a : Nat) (s : State) : (appendCode a s).cfg = s.cfg := rfl
@[simp] theorem appendCode_arg (a : Nat) (s : State) : (appendCode a s).arg = s.arg := rfl
@[simp] theorem appendCode_phase (a : Nat) (s : State) : (appendCode a s).phase = s.phase := rfl
@[simp] theorem appendCode_ovr (a : Nat) (s : State) : (appendCode a s).ovr = s.ovr := rfl
@[simp] theorem appendCode_err (a : Nat) (s : State) : (appendCode a s).err = s.err := rfl
@[simp] theorem appendCode_result0 (a : Nat) (s : State) :
    (appendCode a s).result0 = zext32 (codeAt s a).length := rfl
@[simp] theorem appendCode_result1 (a : Nat) (s : State) :
    (appendCode a s).result1 = zext32 (s.bslen + (codeAt s a).length) := rfl
@[simp] theorem appendCode_result2 (a : Nat) (s : State) : (appendCode a s).result2 = s.result2 := rfl
@[simp] theorem appendCode_total (a : Nat) (s : State) : (appendCode a s).total = s.total := rfl
@[simp] theorem appendCode_nleaf (a : Nat) (s : State) : (appendCode a s).nleaf = s.nleaf := rfl
@[simp] theorem appendCode_root (a : Nat) (s : State) : (appendCode a s).root = s.root := rfl
@[simp] theorem appendCode_bslen (a : Nat) (s : State) : (appendCode a s).bslen = s.bslen + (codeAt s a).length := rfl
@[simp] theorem appendCode_bsrd (a : Nat) (s : State) : (appendCode a s).bsrd = s.bsrd := rfl
@[simp] theorem appendCode_lcmd (a : Nat) (s : State) : (appendCode a s).lcmd = s.lcmd := rfl
@[simp] theorem appendCode_freq (a : Nat) (s : State) : (appendCode a s).freq = s.freq := rfl
@[simp] theorem appendCode_node (a : Nat) (s : State) : (appendCode a s).node = s.node := rfl
@[simp] theorem appendCode_code (a : Nat) (s : State) : (appendCode a s).code = s.code := rfl
@[simp] theorem appendCode_bs (a : Nat) (s : State) : (appendCode a s).bs = writeBits s.bs s.bslen (codeAt s a) := rfl
@[simp] theorem appendCode_resetState (a : Nat) (s : State) : (appendCode a s).resetState = s.resetState := rfl
@[simp] theorem appendCode_host (a : Nat) (s : State) : (appendCode a s).host = s.host := rfl
@[simp] theorem appendCode_busData (a : Nat) (s : State) : (appendCode a s).busData = s.busData := rfl
@[simp] theorem appendCode_busyFor (a : Nat) (s : State) : (appendCode a s).busyFor = s.busyFor := rfl
@[simp] theorem appendCode_issued (a : Nat) (s : State) : (appendCode a s).issued = s.issued := rfl

/-! ### emitSymbol -/

@[simp] theorem emitSymbol_cfg (k n : Nat) (s : State) : (emitSymbol k n s).cfg = s.cfg := rfl
@[simp] theorem emitSymbol_arg (k n : Nat) (s : State) : (emitSymbol k n s).arg = s.arg := rfl
@[simp] theorem emitSymbol_phase (k n : Nat) (s : State) : (emitSymbol k n s).phase = s.phase := rfl
@[simp] theorem emitSymbol_ovr (k n : Nat) (s : State) : (emitSymbol k n s).ovr = s.ovr := rfl
@[simp] theorem emitSymbol_err (k n : Nat) (s : State) : (emitSymbol k n s).err = s.err := rfl
@[simp] theorem emitSymbol_result0 (k n : Nat) (s : State) : (emitSymbol k n s).result0 = zext32 k := rfl
@[simp] theorem emitSymbol_result1 (k n : Nat) (s : State) : (emitSymbol k n s).result1 = zext32 n := rfl
@[simp] theorem emitSymbol_result2 (k n : Nat) (s : State) : (emitSymbol k n s).result2 = s.result2 := rfl
@[simp] theorem emitSymbol_total (k n : Nat) (s : State) : (emitSymbol k n s).total = s.total := rfl
@[simp] theorem emitSymbol_nleaf (k n : Nat) (s : State) : (emitSymbol k n s).nleaf = s.nleaf := rfl
@[simp] theorem emitSymbol_root (k n : Nat) (s : State) : (emitSymbol k n s).root = s.root := rfl
@[simp] theorem emitSymbol_bslen (k n : Nat) (s : State) : (emitSymbol k n s).bslen = s.bslen := rfl
@[simp] theorem emitSymbol_bsrd (k n : Nat) (s : State) : (emitSymbol k n s).bsrd = s.bsrd + n := rfl
@[simp] theorem emitSymbol_lcmd (k n : Nat) (s : State) : (emitSymbol k n s).lcmd = s.lcmd := rfl
@[simp] theorem emitSymbol_freq (k n : Nat) (s : State) : (emitSymbol k n s).freq = s.freq := rfl
@[simp] theorem emitSymbol_node (k n : Nat) (s : State) : (emitSymbol k n s).node = s.node := rfl
@[simp] theorem emitSymbol_code (k n : Nat) (s : State) : (emitSymbol k n s).code = s.code := rfl
@[simp] theorem emitSymbol_bs (k n : Nat) (s : State) : (emitSymbol k n s).bs = s.bs := rfl
@[simp] theorem emitSymbol_resetState (k n : Nat) (s : State) : (emitSymbol k n s).resetState = s.resetState := rfl
@[simp] theorem emitSymbol_host (k n : Nat) (s : State) : (emitSymbol k n s).host = s.host := rfl
@[simp] theorem emitSymbol_busData (k n : Nat) (s : State) : (emitSymbol k n s).busData = s.busData := rfl
@[simp] theorem emitSymbol_busyFor (k n : Nat) (s : State) : (emitSymbol k n s).busyFor = s.busyFor := rfl
@[simp] theorem emitSymbol_issued (k n : Nat) (s : State) : (emitSymbol k n s).issued = s.issued := rfl

/-! ### assertReset -/

@[simp] theorem assertReset_cfg (s : State) : (assertReset s).cfg = s.cfg := rfl
@[simp] theorem assertReset_arg (s : State) : (assertReset s).arg = 0 := rfl
@[simp] theorem assertReset_phase (s : State) : (assertReset s).phase = .counting := rfl
@[simp] theorem assertReset_ovr (s : State) : (assertReset s).ovr = false := rfl
@[simp] theorem assertReset_err (s : State) : (assertReset s).err = .ok := rfl
@[simp] theorem assertReset_result0 (s : State) : (assertReset s).result0 = 0 := rfl
@[simp] theorem assertReset_result1 (s : State) : (assertReset s).result1 = 0 := rfl
@[simp] theorem assertReset_result2 (s : State) : (assertReset s).result2 = 0 := rfl
@[simp] theorem assertReset_total (s : State) : (assertReset s).total = 0 := rfl
@[simp] theorem assertReset_nleaf (s : State) : (assertReset s).nleaf = 0 := rfl
@[simp] theorem assertReset_root (s : State) : (assertReset s).root = 0 := rfl
@[simp] theorem assertReset_bslen (s : State) : (assertReset s).bslen = 0 := rfl
@[simp] theorem assertReset_bsrd (s : State) : (assertReset s).bsrd = 0 := rfl
@[simp] theorem assertReset_lcmd (s : State) :
    (assertReset s).lcmd = { valid := false, op := 0, a := 0, arg := 0 } := rfl
@[simp] theorem assertReset_freq (s : State) : (assertReset s).freq = s.freq := rfl
@[simp] theorem assertReset_node (s : State) : (assertReset s).node = s.node := rfl
@[simp] theorem assertReset_code (s : State) : (assertReset s).code = s.code := rfl
@[simp] theorem assertReset_bs (s : State) : (assertReset s).bs = s.bs := rfl
@[simp] theorem assertReset_resetState (s : State) : (assertReset s).resetState = .asserted := rfl
@[simp] theorem assertReset_host (s : State) : (assertReset s).host = s.host := rfl
@[simp] theorem assertReset_busData (s : State) : (assertReset s).busData = s.busData := rfl
@[simp] theorem assertReset_busyFor (s : State) : (assertReset s).busyFor = s.busyFor := rfl
@[simp] theorem assertReset_issued (s : State) : (assertReset s).issued = s.issued := rfl

/-! ### completeInit -/

@[simp] theorem completeInit_cfg (s : State) : (completeInit s).cfg = s.cfg := rfl
@[simp] theorem completeInit_arg (s : State) : (completeInit s).arg = 0 := rfl
@[simp] theorem completeInit_phase (s : State) : (completeInit s).phase = s.phase := rfl
@[simp] theorem completeInit_ovr (s : State) : (completeInit s).ovr = s.ovr := rfl
@[simp] theorem completeInit_err (s : State) : (completeInit s).err = s.err := rfl
@[simp] theorem completeInit_result0 (s : State) : (completeInit s).result0 = s.result0 := rfl
@[simp] theorem completeInit_result1 (s : State) : (completeInit s).result1 = s.result1 := rfl
@[simp] theorem completeInit_result2 (s : State) : (completeInit s).result2 = s.result2 := rfl
@[simp] theorem completeInit_total (s : State) : (completeInit s).total = s.total := rfl
@[simp] theorem completeInit_nleaf (s : State) : (completeInit s).nleaf = s.nleaf := rfl
@[simp] theorem completeInit_root (s : State) : (completeInit s).root = s.root := rfl
@[simp] theorem completeInit_bslen (s : State) : (completeInit s).bslen = s.bslen := rfl
@[simp] theorem completeInit_bsrd (s : State) : (completeInit s).bsrd = s.bsrd := rfl
@[simp] theorem completeInit_lcmd (s : State) : (completeInit s).lcmd = s.lcmd := rfl
@[simp] theorem completeInit_freq (s : State) : (completeInit s).freq = [] := rfl
@[simp] theorem completeInit_node (s : State) : (completeInit s).node = [] := rfl
@[simp] theorem completeInit_code (s : State) : (completeInit s).code = [] := rfl
@[simp] theorem completeInit_bs (s : State) : (completeInit s).bs = [] := rfl
@[simp] theorem completeInit_resetState (s : State) : (completeInit s).resetState = .running := rfl
@[simp] theorem completeInit_host (s : State) : (completeInit s).host = s.host := rfl
@[simp] theorem completeInit_busData (s : State) : (completeInit s).busData = s.busData := rfl
@[simp] theorem completeInit_busyFor (s : State) : (completeInit s).busyFor = s.busyFor := rfl
@[simp] theorem completeInit_issued (s : State) : (completeInit s).issued = s.issued := rfl

/-! ### tick -/

@[simp] theorem tick_cfg (s : State) : (tick s).cfg = s.cfg := rfl
@[simp] theorem tick_arg (s : State) : (tick s).arg = s.arg := rfl
@[simp] theorem tick_phase (s : State) : (tick s).phase = s.phase := rfl
@[simp] theorem tick_ovr (s : State) : (tick s).ovr = s.ovr := rfl
@[simp] theorem tick_err (s : State) : (tick s).err = s.err := rfl
@[simp] theorem tick_result0 (s : State) : (tick s).result0 = s.result0 := rfl
@[simp] theorem tick_result1 (s : State) : (tick s).result1 = s.result1 := rfl
@[simp] theorem tick_result2 (s : State) : (tick s).result2 = s.result2 := rfl
@[simp] theorem tick_total (s : State) : (tick s).total = s.total := rfl
@[simp] theorem tick_nleaf (s : State) : (tick s).nleaf = s.nleaf := rfl
@[simp] theorem tick_root (s : State) : (tick s).root = s.root := rfl
@[simp] theorem tick_bslen (s : State) : (tick s).bslen = s.bslen := rfl
@[simp] theorem tick_bsrd (s : State) : (tick s).bsrd = s.bsrd := rfl
@[simp] theorem tick_lcmd (s : State) : (tick s).lcmd = s.lcmd := rfl
@[simp] theorem tick_freq (s : State) : (tick s).freq = s.freq := rfl
@[simp] theorem tick_node (s : State) : (tick s).node = s.node := rfl
@[simp] theorem tick_code (s : State) : (tick s).code = s.code := rfl
@[simp] theorem tick_bs (s : State) : (tick s).bs = s.bs := rfl
@[simp] theorem tick_resetState (s : State) : (tick s).resetState = s.resetState := rfl
@[simp] theorem tick_host (s : State) : (tick s).host = s.host := rfl
@[simp] theorem tick_busData (s : State) : (tick s).busData = s.busData := rfl
@[simp] theorem tick_busyFor (s : State) : (tick s).busyFor = s.busyFor - 1 := rfl
@[simp] theorem tick_issued (s : State) : (tick s).issued = s.issued := rfl

/-! ### nextStmt -/

@[simp] theorem nextStmt_cfg (s : State) : (nextStmt s).cfg = s.cfg := rfl
@[simp] theorem nextStmt_arg (s : State) : (nextStmt s).arg = s.arg := rfl
@[simp] theorem nextStmt_phase (s : State) : (nextStmt s).phase = s.phase := rfl
@[simp] theorem nextStmt_ovr (s : State) : (nextStmt s).ovr = s.ovr := rfl
@[simp] theorem nextStmt_err (s : State) : (nextStmt s).err = s.err := rfl
@[simp] theorem nextStmt_result0 (s : State) : (nextStmt s).result0 = s.result0 := rfl
@[simp] theorem nextStmt_result1 (s : State) : (nextStmt s).result1 = s.result1 := rfl
@[simp] theorem nextStmt_result2 (s : State) : (nextStmt s).result2 = s.result2 := rfl
@[simp] theorem nextStmt_total (s : State) : (nextStmt s).total = s.total := rfl
@[simp] theorem nextStmt_nleaf (s : State) : (nextStmt s).nleaf = s.nleaf := rfl
@[simp] theorem nextStmt_root (s : State) : (nextStmt s).root = s.root := rfl
@[simp] theorem nextStmt_bslen (s : State) : (nextStmt s).bslen = s.bslen := rfl
@[simp] theorem nextStmt_bsrd (s : State) : (nextStmt s).bsrd = s.bsrd := rfl
@[simp] theorem nextStmt_lcmd (s : State) : (nextStmt s).lcmd = s.lcmd := rfl
@[simp] theorem nextStmt_freq (s : State) : (nextStmt s).freq = s.freq := rfl
@[simp] theorem nextStmt_node (s : State) : (nextStmt s).node = s.node := rfl
@[simp] theorem nextStmt_code (s : State) : (nextStmt s).code = s.code := rfl
@[simp] theorem nextStmt_bs (s : State) : (nextStmt s).bs = s.bs := rfl
@[simp] theorem nextStmt_resetState (s : State) : (nextStmt s).resetState = s.resetState := rfl
@[simp] theorem nextStmt_host (s : State) : (nextStmt s).host = s.host.tail := rfl
@[simp] theorem nextStmt_busData (s : State) : (nextStmt s).busData = s.busData := rfl
@[simp] theorem nextStmt_busyFor (s : State) : (nextStmt s).busyFor = s.busyFor := rfl
@[simp] theorem nextStmt_issued (s : State) : (nextStmt s).issued = s.issued := rfl

/-! ### releaseReset -/

@[simp] theorem releaseReset_cfg (s : State) : (releaseReset s).cfg = s.cfg := by unfold releaseReset; split <;> rfl
@[simp] theorem releaseReset_arg (s : State) : (releaseReset s).arg = s.arg := by unfold releaseReset; split <;> rfl
@[simp] theorem releaseReset_phase (s : State) : (releaseReset s).phase = s.phase := by unfold releaseReset; split <;> rfl
@[simp] theorem releaseReset_ovr (s : State) : (releaseReset s).ovr = s.ovr := by unfold releaseReset; split <;> rfl
@[simp] theorem releaseReset_err (s : State) : (releaseReset s).err = s.err := by unfold releaseReset; split <;> rfl
@[simp] theorem releaseReset_result0 (s : State) : (releaseReset s).result0 = s.result0 := by unfold releaseReset; split <;> rfl
@[simp] theorem releaseReset_result1 (s : State) : (releaseReset s).result1 = s.result1 := by unfold releaseReset; split <;> rfl
@[simp] theorem releaseReset_result2 (s : State) : (releaseReset s).result2 = s.result2 := by unfold releaseReset; split <;> rfl
@[simp] theorem releaseReset_total (s : State) : (releaseReset s).total = s.total := by unfold releaseReset; split <;> rfl
@[simp] theorem releaseReset_nleaf (s : State) : (releaseReset s).nleaf = s.nleaf := by unfold releaseReset; split <;> rfl
@[simp] theorem releaseReset_root (s : State) : (releaseReset s).root = s.root := by unfold releaseReset; split <;> rfl
@[simp] theorem releaseReset_bslen (s : State) : (releaseReset s).bslen = s.bslen := by unfold releaseReset; split <;> rfl
@[simp] theorem releaseReset_bsrd (s : State) : (releaseReset s).bsrd = s.bsrd := by unfold releaseReset; split <;> rfl
@[simp] theorem releaseReset_lcmd (s : State) : (releaseReset s).lcmd = s.lcmd := by unfold releaseReset; split <;> rfl
@[simp] theorem releaseReset_freq (s : State) : (releaseReset s).freq = s.freq := by unfold releaseReset; split <;> rfl
@[simp] theorem releaseReset_node (s : State) : (releaseReset s).node = s.node := by unfold releaseReset; split <;> rfl
@[simp] theorem releaseReset_code (s : State) : (releaseReset s).code = s.code := by unfold releaseReset; split <;> rfl
@[simp] theorem releaseReset_bs (s : State) : (releaseReset s).bs = s.bs := by unfold releaseReset; split <;> rfl
@[simp] theorem releaseReset_host (s : State) : (releaseReset s).host = s.host := by unfold releaseReset; split <;> rfl
@[simp] theorem releaseReset_busData (s : State) : (releaseReset s).busData = s.busData := by unfold releaseReset; split <;> rfl

theorem releaseReset_resetState (s : State) :
    (releaseReset s).resetState = if s.resetState = .asserted then .initialising else s.resetState := by
  unfold releaseReset; split <;> simp_all

/-! ### State.resetOf -/

@[simp] theorem resetOf_cfg (c : Config) : (State.resetOf c).cfg = c := rfl
@[simp] theorem resetOf_arg (c : Config) : (State.resetOf c).arg = 0 := rfl
@[simp] theorem resetOf_phase (c : Config) : (State.resetOf c).phase = .counting := rfl
@[simp] theorem resetOf_ovr (c : Config) : (State.resetOf c).ovr = false := rfl
@[simp] theorem resetOf_err (c : Config) : (State.resetOf c).err = .ok := rfl
@[simp] theorem resetOf_result0 (c : Config) : (State.resetOf c).result0 = 0 := rfl
@[simp] theorem resetOf_result1 (c : Config) : (State.resetOf c).result1 = 0 := rfl
@[simp] theorem resetOf_result2 (c : Config) : (State.resetOf c).result2 = 0 := rfl
@[simp] theorem resetOf_total (c : Config) : (State.resetOf c).total = 0 := rfl
@[simp] theorem resetOf_nleaf (c : Config) : (State.resetOf c).nleaf = 0 := rfl
@[simp] theorem resetOf_root (c : Config) : (State.resetOf c).root = 0 := rfl
@[simp] theorem resetOf_bslen (c : Config) : (State.resetOf c).bslen = 0 := rfl
@[simp] theorem resetOf_bsrd (c : Config) : (State.resetOf c).bsrd = 0 := rfl
@[simp] theorem resetOf_lcmd (c : Config) : (State.resetOf c).lcmd = { valid := false, op := 0, a := 0, arg := 0 } := rfl
@[simp] theorem resetOf_freq (c : Config) : (State.resetOf c).freq = [] := rfl
@[simp] theorem resetOf_node (c : Config) : (State.resetOf c).node = [] := rfl
@[simp] theorem resetOf_code (c : Config) : (State.resetOf c).code = [] := rfl
@[simp] theorem resetOf_bs (c : Config) : (State.resetOf c).bs = [] := rfl
@[simp] theorem resetOf_resetState (c : Config) : (State.resetOf c).resetState = .running := rfl
@[simp] theorem resetOf_host (c : Config) : (State.resetOf c).host = [] := rfl
@[simp] theorem resetOf_busData (c : Config) : (State.resetOf c).busData = none := rfl
@[simp] theorem resetOf_busyFor (c : Config) : (State.resetOf c).busyFor = 0 := rfl
@[simp] theorem resetOf_issued (c : Config) : (State.resetOf c).issued = 0 := rfl

end Sys2Proof.Machine
end

