-- ==== Sys2Proof/Laws/Table.lean ====
section
/-! SUPPORT. The laws of a table: read after write, a write leaves the other entries alone, and every write keeps the
canonical form; canonical tables that read alike are equal. -/

namespace Sys2Proof.Machine

open Sys2Proof

variable {α : Type} {d : α} {n k j : Nat} {v : α} {t : Table α}

@[simp] theorem Table.get_nil (k : Nat) : Table.get d ([] : Table α) k = d := rfl

/-- An index below every listed one reads as unlisted. -/
theorem Table.get_of_lt (h : ∀ e ∈ t, k < e.1) : Table.get d t k = d := by
  induction t with
  | nil => rfl
  | cons e t ih =>
    have he : k < e.1 := h e (by simp)
    rw [Table.get, if_neg (by omega), ih fun x hx => h x (by simp [hx])]

/-- A listed entry of a canonical table is what its index reads as. -/
theorem Table.get_of_mem {e : Nat × α} (hs : (t.map Prod.fst).Pairwise (· < ·)) (he : e ∈ t) : Table.get d t e.1 = e.2 := by
  induction t with
  | nil => simp at he
  | cons x t ih =>
    simp only [List.map_cons, List.pairwise_cons, List.mem_map, forall_exists_index, and_imp] at hs
    rcases List.mem_cons.mp he with rfl | he
    · simp [Table.get]
    · have := hs.1 _ e he rfl
      rw [Table.get, if_neg (by omega), ih hs.2 he]

variable [DecidableEq α]

/-- Writing one entry leaves every other entry alone. -/
theorem Table.get_set_other (h : j ≠ k) : Table.get d (Table.set d t k v) j = Table.get d t j := by
  induction t with
  | nil =>
    rw [Table.set]
    split
    · rfl
    · simp [Table.get, Ne.symm h]
  | cons e t ih =>
    obtain ⟨i, u⟩ := e
    simp only [Table.set]
    split
    · split
      · rfl
      · simp [Table.get, Ne.symm h]
    · split
      · next hk =>
        subst hk
        split <;> simp [Table.get, Ne.symm h]
      · simp only [Table.get, ih]

/-- Reading an entry after writing it gives the value written. -/
theorem Table.get_set_same (hs : (t.map Prod.fst).Pairwise (· < ·)) : Table.get d (Table.set d t k v) k = v := by
  induction t with
  | nil =>
    rw [Table.set]
    split
    · next h => exact h.symm
    · simp [Table.get]
  | cons e t ih =>
    obtain ⟨i, u⟩ := e
    simp only [List.map_cons, List.pairwise_cons, List.mem_map, forall_exists_index, and_imp] at hs
    have hlt : ∀ e ∈ t, i < e.1 := fun e he => hs.1 _ e he rfl
    simp only [Table.set]
    split
    · next hk =>
      split
      · next hv =>
        rw [hv]
        refine Table.get_of_lt fun e he => ?_
        rcases List.mem_cons.mp he with rfl | he
        · exact hk
        · exact hk.trans (hlt e he)
      · simp [Table.get]
    · split
      · next hk =>
        subst hk
        split
        · next hv => rw [hv]; exact Table.get_of_lt hlt
        · simp [Table.get]
      · next h1 h2 =>
        rw [Table.get, if_neg (by omega), ih hs.2]

theorem Table.get_set (hs : (t.map Prod.fst).Pairwise (· < ·)) :
    Table.get d (Table.set d t k v) j = if j = k then v else Table.get d t j := by
  split
  · next h => rw [h, Table.get_set_same hs]
  · next h => exact Table.get_set_other h

/-- Every listed entry after a write is the written one or was listed before. -/
theorem Table.mem_set {e : Nat × α} (h : e ∈ Table.set d t k v) : e ∈ t ∨ (e = (k, v) ∧ v ≠ d) := by
  induction t with
  | nil => rw [Table.set] at h; split at h <;> simp_all
  | cons x t ih =>
    simp only [Table.set] at h
    repeat' split at h
    all_goals simp only [List.mem_cons] at h ⊢
    all_goals tauto

/-- A write keeps the indices strictly rising. -/
theorem Table.sorted_set (hs : (t.map Prod.fst).Pairwise (· < ·)) :
    ((Table.set d t k v).map Prod.fst).Pairwise (· < ·) := by
  induction t with
  | nil => rw [Table.set]; split <;> simp
  | cons e t ih =>
    obtain ⟨i, u⟩ := e
    have hs' := hs
    simp only [List.map_cons, List.pairwise_cons, List.mem_map, forall_exists_index, and_imp] at hs
    simp only [Table.set]
    split
    · next hk =>
      split
      · exact hs'
      · simp only [List.map_cons, List.pairwise_cons, List.mem_cons, List.mem_map]
        refine ⟨?_, ?_, hs.2⟩
        · rintro x (rfl | ⟨e, he, rfl⟩)
          · exact hk
          · exact hk.trans (hs.1 _ e he rfl)
        · rintro x ⟨e, he, rfl⟩
          exact hs.1 _ e he rfl
    · split
      · next hk =>
        subst hk
        split
        · exact hs.2
        · simp only [List.map_cons, List.pairwise_cons, List.mem_map]
          exact ⟨fun x ⟨e, he, hx⟩ => hs.1 x e he hx, hs.2⟩
      · next h1 h2 =>
        simp only [List.map_cons, List.pairwise_cons, List.mem_map]
        refine ⟨?_, ih hs.2⟩
        rintro x ⟨e, he, rfl⟩
        rcases Table.mem_set he with he | ⟨rfl, -⟩
        · exact hs.1 _ e he rfl
        · simp only; omega

theorem Table.wf_nil : Table.wf d n ([] : Table α) := by simp [Table.wf]

/-- Writing an entry in range keeps the canonical form. -/
theorem Table.wf_set (h : Table.wf d n t) (hk : k < n) : Table.wf d n (Table.set d t k v) := by
  refine ⟨Table.sorted_set h.1, fun e he => ?_⟩
  rcases Table.mem_set he with he | ⟨rfl, hv⟩
  · exact h.2 e he
  · exact ⟨hv, hk⟩

/-- In a canonical table an index out of range reads as unlisted. -/
theorem Table.get_of_ge (h : Table.wf d n t) (hk : n ≤ k) : Table.get d t k = d := by
  obtain ⟨-, h⟩ := h
  induction t with
  | nil => rfl
  | cons e t ih =>
    have he := (h e (by simp)).2
    rw [Table.get, if_neg (by omega), ih fun x hx => h x (by simp [hx])]

/-- Two canonical tables that read alike everywhere are the same list. -/
theorem Table.ext_of_get {t u : Table α} (ht : Table.wf d n t) (hu : Table.wf d n u)
    (h : ∀ k, Table.get d t k = Table.get d u k) : t = u := by
  induction t generalizing u with
  | nil =>
    cases u with
    | nil => rfl
    | cons e u =>
      have := h e.1
      simp only [Table.get, if_pos] at this
      exact absurd this.symm (hu.2 e (by simp)).1
  | cons e t ih =>
    cases u with
    | nil =>
      have := h e.1
      simp only [Table.get, if_pos] at this
      exact absurd this (ht.2 e (by simp)).1
    | cons f u =>
      obtain ⟨⟨hst, hmt⟩, ⟨hsu, hmu⟩⟩ := And.intro ht hu
      simp only [List.map_cons, List.pairwise_cons, List.mem_map, forall_exists_index, and_imp] at hst hsu
      have hlt : ∀ x ∈ t, e.1 < x.1 := fun x hx => hst.1 _ x hx rfl
      have hlu : ∀ x ∈ u, f.1 < x.1 := fun x hx => hsu.1 _ x hx rfl
      have hef : e.1 = f.1 := by
        rcases Nat.lt_trichotomy e.1 f.1 with hlt' | heq | hgt
        · have h1 := h e.1
          rw [Table.get, if_pos rfl, Table.get_of_lt] at h1
          · exact absurd h1 (hmt e (by simp)).1
          · intro x hx
            rcases List.mem_cons.mp hx with rfl | hx
            · exact hlt'
            · exact hlt'.trans (hlu x hx)
        · exact heq
        · have h1 := h f.1
          rw [Table.get_of_lt, Table.get, if_pos rfl] at h1
          · exact absurd h1.symm (hmu f (by simp)).1
          · intro x hx
            rcases List.mem_cons.mp hx with rfl | hx
            · exact hgt
            · exact hgt.trans (hlt x hx)
      have hv : e.2 = f.2 := by
        have h1 := h e.1
        rwa [Table.get, if_pos rfl, hef, Table.get, if_pos rfl] at h1
      have htail : t = u := by
        refine ih ⟨hst.2, fun x hx => hmt x (by simp [hx])⟩ ⟨hsu.2, fun x hx => hmu x (by simp [hx])⟩ fun k => ?_
        by_cases hk : k = e.1
        · rw [hk, Table.get_of_lt hlt, hef, Table.get_of_lt hlu]
        · have h1 := h k
          rwa [Table.get, if_neg (Ne.symm hk), Table.get, if_neg (by omega)] at h1
      rw [htail, Prod.ext hef hv]

end Sys2Proof.Machine
end

