-- ==== Sys2Proof/Laws/Ops.lean ====
section
/-! SUPPORT. What the shared operations do: one bit of the buffer, a run of bits, the end of a command, the latch; and that
every operation keeps the canonical form of the tables. -/

namespace Sys2Proof.Machine

open Sys2Proof

/-! ## The bitstream buffer -/

/-- Reading a buffer bit after writing one. -/
theorem bitGet_bitSet {t : Table Word} (hs : (t.map Prod.fst).Pairwise (· < ·)) (i j : Nat) (b : Bool) :
    bitGet (bitSet t i b) j = if j = i then b else bitGet t j := by
  unfold bitGet bitSet bsGet
  rw [Table.get_set hs]
  by_cases hw : j / 32 = i / 32
  · rw [if_pos hw, getLsbD_setBit _ _ _ _ (Nat.mod_lt _ (by decide)), hw]
    by_cases h : j = i
    · rw [h, if_pos rfl, if_pos rfl]
    · rw [if_neg h, if_neg (by omega)]
  · have h : j ≠ i := fun h => hw (by rw [h])
    rw [if_neg hw, if_neg h]

theorem sorted_bitSet {t : Table Word} (hs : (t.map Prod.fst).Pairwise (· < ·)) (i : Nat) (b : Bool) :
    ((bitSet t i b).map Prod.fst).Pairwise (· < ·) := Table.sorted_set hs

theorem sorted_writeBits {t : Table Word} (hs : (t.map Prod.fst).Pairwise (· < ·)) (p : Nat) (c : Code) :
    ((writeBits t p c).map Prod.fst).Pairwise (· < ·) := by
  induction c generalizing t p with
  | nil => exact hs
  | cons b c ih => exact ih (sorted_bitSet hs p b) (p + 1)

/-- Reading a buffer bit after a code has been written: the code's own bits in its positions, the old bits elsewhere. -/
theorem bitGet_writeBits {t : Table Word} (hs : (t.map Prod.fst).Pairwise (· < ·)) (p : Nat) (c : Code) (j : Nat) :
    bitGet (writeBits t p c) j = if p ≤ j ∧ j < p + c.length then c.getD (j - p) false else bitGet t j := by
  induction c generalizing t p with
  | nil => rw [writeBits, if_neg (by simp only [List.length_nil]; omega)]
  | cons b c ih =>
    rw [writeBits, ih (sorted_bitSet hs p b), bitGet_bitSet hs]
    simp only [List.length_cons]
    by_cases h : j = p
    · rw [if_neg (by omega), if_pos h, if_pos (by omega), h, Nat.sub_self, List.getD_cons_zero]
    · by_cases h2 : p + 1 ≤ j ∧ j < p + 1 + c.length
      · rw [if_pos h2, if_pos (by omega), show j - p = (j - (p + 1)) + 1 by omega, List.getD_cons_succ]
      · rw [if_neg h2, if_neg h, if_neg (by omega)]

/-- Writing a code inside the buffer keeps the buffer canonical. -/
theorem wf_writeBits {t : Table Word} {n : Nat} (h : Table.wf 0 n t) (p : Nat) (c : Code)
    (hp : p + c.length ≤ 32 * n) : Table.wf 0 n (writeBits t p c) := by
  induction c generalizing t p with
  | nil => exact h
  | cons b c ih =>
    simp only [List.length_cons] at hp
    exact ih (Table.wf_set h (by omega)) (p + 1) (by omega)

/-! ## The canonical form of the four tables -/

theorem memory_wf_resetOf (c : Config) : Memory.wf (State.resetOf c) :=
  ⟨Table.wf_nil, Table.wf_nil, Table.wf_nil, Table.wf_nil⟩

theorem memory_wf_complete {s : State} (h : Memory.wf s) (e : Err) : Memory.wf (complete e s) := h

theorem memory_wf_clearSession (s : State) : Memory.wf (clearSession s) :=
  ⟨Table.wf_nil, Table.wf_nil, Table.wf_nil, Table.wf_nil⟩

theorem memory_wf_completeInit (s : State) : Memory.wf (completeInit s) :=
  ⟨Table.wf_nil, Table.wf_nil, Table.wf_nil, Table.wf_nil⟩

theorem memory_wf_countSymbol {s : State} (h : Memory.wf s) {a : Nat} (ha : a < s.cfg.nsym) :
    Memory.wf (countSymbol a s) := ⟨Table.wf_set h.1 ha, h.2⟩

theorem memory_wf_writeWord {s : State} (h : Memory.wf s) {j : Nat} (hj : j < s.cfg.bsWords) (w : Word) :
    Memory.wf { s with bs := Table.set 0 s.bs j w } := ⟨h.1, h.2.1, h.2.2.1, Table.wf_set h.2.2.2 hj⟩

theorem memory_wf_appendCode {s : State} (h : Memory.wf s) {a : Nat}
    (ha : s.bslen + (codeAt s a).length ≤ 32 * s.cfg.bsWords) : Memory.wf (appendCode a s) :=
  ⟨h.1, h.2.1, h.2.2.1, wf_writeBits h.2.2.2 _ _ ha⟩

/-! ## The end of a command and the latch -/

@[simp] theorem finish_eq (s : State) : finish s = .next (complete .ok s) := rfl

@[simp] theorem raise_eq (e : Err) (s : State) : raise e s = .next (complete e s) := rfl

@[simp] theorem freqAt_complete (e : Err) (s : State) : freqAt (complete e s) = freqAt s := rfl

@[simp] theorem nodeAt_complete (e : Err) (s : State) : nodeAt (complete e s) = nodeAt s := rfl

@[simp] theorem codeAt_complete (e : Err) (s : State) : codeAt (complete e s) = codeAt s := rfl

@[simp] theorem bsWord_complete (e : Err) (s : State) : bsWord (complete e s) = bsWord s := rfl

@[simp] theorem bsBit_complete (e : Err) (s : State) : bsBit (complete e s) = bsBit s := rfl

/-- Bit `i` of a command word: of OP below 8, of A from there on. -/
theorem getLsbD_mkWord (op : BitVec 8) (a : BitVec 24) (i : Nat) :
    (mkWord op a).getLsbD i = if i < 8 then op.getLsbD i else a.getLsbD (i - 8) :=
  BitVec.getLsbD_append (x := a) (y := op) (i := i)

/-- The word of the fields of a word is the word. -/
@[simp] theorem mkWord_fields (w : Word) : mkWord (opField w) (aField w) = w := by
  refine BitVec.eq_of_getLsbD_eq fun i hi => ?_
  rw [getLsbD_mkWord]
  split
  · next h => rw [opField, BitVec.getLsbD_extractLsb']; simp [h]
  · next h =>
    rw [aField, BitVec.getLsbD_extractLsb', show 8 + (i - 8) = i by omega]
    simp [show i - 8 < 24 by omega]

@[simp] theorem opField_mkWord (op : BitVec 8) (a : BitVec 24) : opField (mkWord op a) = op := by
  refine BitVec.eq_of_getLsbD_eq fun i hi => ?_
  rw [opField, BitVec.getLsbD_extractLsb', Nat.zero_add, getLsbD_mkWord, if_pos hi]
  simp [hi]

@[simp] theorem aField_mkWord (op : BitVec 8) (a : BitVec 24) : aField (mkWord op a) = a := by
  refine BitVec.eq_of_getLsbD_eq fun i hi => ?_
  rw [aField, BitVec.getLsbD_extractLsb', getLsbD_mkWord, if_neg (by omega), Nat.add_sub_cancel_left]
  simp [hi]

@[simp] theorem latchedWord_issue (w : Word) (s : State) : latchedWord (issue w s) = w := by
  simp [latchedWord]

@[simp] theorem latchedWord_placeCommand (w : Word) (s : State) : latchedWord (placeCommand w s) = w := by
  simp [latchedWord]

end Sys2Proof.Machine
end

