-- ==== Sys2Proof/Laws/Exec.lean ====
section
/-! SUPPORT. One inversion lemma per command: if it answers a next state, then either an error was raised, and nothing but
ERR and BUSY changed, or its checks passed and its writes were committed. And exec_cases, which puts them together. -/

namespace Sys2Proof.Machine

open Sys2Proof

variable {s t : State} {a i j : Nat}

theorem execNop_cases (h : execNop s = .next t) : t = complete .ok s := by
  cases h; rfl

theorem execClear_cases (h : execClear s = .next t) : t = complete .ok (clearSession s) := by
  cases h; rfl

theorem execCount_cases (h : execCount a s = .next t) :
    (t = complete .sequence s ∧ s.phase ≠ .counting) ∨ (t = complete .range s ∧ s.cfg.nsym ≤ a) ∨
    (t = complete .countOverflow s ∧ s.total = s.cfg.cntMax) ∨
    (t = complete .ok (countSymbol a s) ∧ s.phase = .counting ∧ a < s.cfg.nsym ∧ s.total ≠ s.cfg.cntMax) := by
  unfold execCount isSymbol at h
  repeat' split at h
  all_goals (cases h; simp_all)

theorem execBuild_cases (h : execBuild s = .next t) :
    (t = complete .sequence s ∧ s.phase ≠ .counting) ∨ (t = complete .emptyInput s ∧ s.nleaf = 0) ∨
    (t = complete .ok (buildTables s) ∧ s.phase = .counting ∧ s.nleaf ≠ 0) := by
  unfold execBuild at h
  repeat' split at h
  all_goals (cases h; simp_all)

theorem execEnc_cases (h : execEnc a s = .next t) :
    (t = complete .sequence s ∧ s.phase ≠ .ready) ∨ (t = complete .range s ∧ s.cfg.nsym ≤ a) ∨
    (t = complete .unknownSymbol s ∧ codeAt s a = []) ∨
    (t = complete .bsOverflow s ∧ s.cfg.bsCap < s.bslen + (codeAt s a).length) ∨
    (t = complete .ok (appendCode a s) ∧ s.phase = .ready ∧ a < s.cfg.nsym ∧ codeAt s a ≠ [] ∧
      s.bslen + (codeAt s a).length ≤ s.cfg.bsCap) := by
  unfold execEnc isSymbol at h
  repeat' split at h
  all_goals (cases h; simp_all)

/-- DEC: an error, the marker at the end of the stream, one bit of a one-leaf tree, or a walk that ends at a leaf. -/
theorem execDec_cases (h : execDec s = .next t) :
    (t = complete .sequence s ∧ s.phase ≠ .ready) ∨ (t = complete .invalidPath s) ∨ (t = complete .truncatedStream s) ∨
    (t = complete .ok { s with result0 := 0xFFFFFFFF, result1 := 0 } ∧ s.phase = .ready ∧ s.bsrd = s.bslen) ∨
    (t = complete .ok (emitSymbol (nodeAt s s.root).sym 1 s) ∧ s.phase = .ready ∧ s.bsrd ≠ s.bslen ∧
      (nodeAt s s.root).leaf = true ∧ bsBit s s.bsrd = false) ∨
    (∃ v p, t = complete .ok (emitSymbol (nodeAt s v).sym (p - s.bsrd) s) ∧ s.phase = .ready ∧ s.bsrd ≠ s.bslen ∧
      (nodeAt s s.root).leaf = false ∧
      decodeWalk s.node s.bs (s.bslen - s.bsrd) s.bsrd s.root = some (v, p)) := by
  unfold execDec at h
  split at h
  · cases h; simp_all
  split at h
  · cases h; simp_all
  split at h
  · split at h <;> cases h <;> simp_all
  · split at h
    · cases h; simp
    · next v p hw =>
      cases h
      refine .inr (.inr (.inr (.inr (.inr ⟨v, p, rfl, ?_⟩))))
      simp_all

theorem execRdfreq_cases (h : execRdfreq a s = .next t) :
    (t = complete .range s ∧ s.cfg.nsym ≤ a) ∨
    (t = complete .ok { s with result0 := zext32 (freqAt s a) } ∧ a < s.cfg.nsym) := by
  unfold execRdfreq isSymbol at h
  split at h
  all_goals (cases h; simp_all)

theorem execRdcode_cases (h : execRdcode a s = .next t) :
    (t = complete .sequence s ∧ s.phase ≠ .ready) ∨
    (t = complete .range s ∧ (s.cfg.nsym ≤ a ∨ s.cfg.codeWords ≤ (latchedArg s).toNat)) ∨
    (t = complete .unknownSymbol s ∧ codeAt s a = []) ∨
    (t = complete .ok { s with
        result0 := codeWord (codeAt s a) (latchedArg s).toNat, result1 := zext32 (codeAt s a).length } ∧
      s.phase = .ready ∧ a < s.cfg.nsym ∧ (latchedArg s).toNat < s.cfg.codeWords ∧ codeAt s a ≠ []) := by
  unfold execRdcode isSymbol isCodeWord at h
  repeat' split at h
  all_goals (cases h; simp_all)

theorem execRdnode_cases (h : execRdnode i s = .next t) :
    (t = complete .sequence s ∧ s.phase ≠ .ready) ∨ (t = complete .range s ∧ 2 * s.nleaf - 1 ≤ i) ∨
    (t = complete .ok { s with
        result0 := nodeHead (nodeAt s i), result1 := zext32 (nodeAt s i).right, result2 := zext32 (nodeAt s i).freq } ∧
      s.phase = .ready ∧ i < 2 * s.nleaf - 1) := by
  unfold execRdnode isNodeIndex at h
  repeat' split at h
  all_goals (cases h; simp_all)
  right; omega

theorem execWrbs_cases (h : execWrbs j s = .next t) :
    (t = complete .range s ∧ s.cfg.bsWords ≤ j) ∨
    (t = complete .ok { s with bs := Table.set 0 s.bs j (latchedArg s) } ∧ j < s.cfg.bsWords) := by
  unfold execWrbs isBsWord at h
  split at h
  all_goals (cases h; simp_all)

theorem execRdbs_cases (h : execRdbs j s = .next t) :
    (t = complete .range s ∧ s.cfg.bsWords ≤ j) ∨
    (t = complete .ok { s with result0 := bsWord s j } ∧ j < s.cfg.bsWords) := by
  unfold execRdbs isBsWord at h
  split at h
  all_goals (cases h; simp_all)

theorem execSetbs_cases (h : execSetbs s = .next t) :
    (t = complete .range s ∧ s.cfg.bsCap < (latchedArg s).toNat) ∨
    (t = complete .ok { s with bslen := (latchedArg s).toNat, bsrd := 0 } ∧ (latchedArg s).toNat ≤ s.cfg.bsCap) := by
  unfold execSetbs isLength at h
  split at h
  all_goals (cases h; simp_all)

theorem execRewind_cases (h : execRewind s = .next t) : t = complete .ok { s with bsrd := 0 } := by
  cases h; rfl

/-- The walk of DEC ends at a leaf, within the bits it may read. -/
theorem decodeWalk_some {nodes : Table Node} {bits : Table Word} {n p v w q : Nat}
    (h : decodeWalk nodes bits n p v = some (w, q)) :
    (nodeGet nodes w).leaf = true ∧ p < q ∧ q ≤ p + n := by
  induction n generalizing p v with
  | zero => simp [decodeWalk] at h
  | succ n ih =>
    rw [decodeWalk] at h
    split at h
    · next hl =>
      simp only [Option.some.injEq, Prod.mk.injEq] at h
      obtain ⟨rfl, rfl⟩ := h
      exact ⟨hl, by omega, by omega⟩
    · obtain ⟨h1, h2, h3⟩ := ih h
      exact ⟨h1, by omega, by omega⟩

end Sys2Proof.Machine
end

