-- ==== Sys2Proof/Laws/PerInstr.lean ====
section
/-! SUPPORT. WordMatchesRow: the word of a well-formed command has the match and mask of its row of the opcode table, and
carries its operand in A (30_encoding.md R80, R83). One lemma per constructor. -/

namespace Sys2Proof.Laws.WordMatchesRow

open Sys2Proof Sys2Proof.Machine

/-- The mask column: all bits for format N, the opcode for format A (30_encoding.md R83). -/
def mask : Format → Word
  | .N => 0xFFFFFFFF
  | .A => 0x000000FF

/-- The match column: the opcode, zero-extended (30_encoding.md R83). -/
def matchOf (i : Instr) : Word := i.opcode.setWidth 32

/-- The word of `i` is in its row, and its field A is the operand. -/
def Statement (i : Instr) : Prop :=
  i.wf = true → encode i &&& mask i.format = matchOf i ∧ (aField (encode i)).toNat = i.operand

theorem mkWord_and_opMask (op : BitVec 8) (a : BitVec 24) : mkWord op a &&& 0x000000FF = op.setWidth 32 := by
  have hm : ∀ i < 32, (0x000000FF : Word).getLsbD i = decide (i < 8) := by decide
  refine BitVec.eq_of_getLsbD_eq fun i hi => ?_
  rw [BitVec.getLsbD_and, getLsbD_mkWord, hm i hi, BitVec.getLsbD_setWidth]
  by_cases h : i < 8
  · rw [if_pos h, decide_eq_true h, decide_eq_true hi, Bool.and_true, Bool.true_and]
  · rw [decide_eq_false h, Bool.and_false, BitVec.getLsbD_of_ge _ _ (by omega), Bool.and_false]

/-- The rows of format A. -/
theorem ofOperand (i : Instr) (hA : i.format = .A) (h : i.wf = true → i.operand < 2 ^ 24) : Statement i := by
  intro hw
  refine ⟨by rw [hA]; exact mkWord_and_opMask _ _, ?_⟩
  rw [encode, aField_mkWord, BitVec.toNat_ofNat]
  exact Nat.mod_eq_of_lt (h hw)

theorem nop : Statement .nop := fun _ => by decide
theorem clear : Statement .clear := fun _ => by decide
theorem count (s : Nat) : Statement (.count s) := ofOperand _ rfl fun h => of_decide_eq_true h
theorem build : Statement .build := fun _ => by decide
theorem enc (s : Nat) : Statement (.enc s) := ofOperand _ rfl fun h => of_decide_eq_true h
theorem dec : Statement .dec := fun _ => by decide
theorem rdfreq (s : Nat) : Statement (.rdfreq s) := ofOperand _ rfl fun h => of_decide_eq_true h
theorem rdcode (s : Nat) : Statement (.rdcode s) := ofOperand _ rfl fun h => of_decide_eq_true h
theorem rdnode (i : Nat) : Statement (.rdnode i) := ofOperand _ rfl fun h => of_decide_eq_true h
theorem wrbs (j : Nat) : Statement (.wrbs j) := ofOperand _ rfl fun h => of_decide_eq_true h
theorem rdbs (j : Nat) : Statement (.rdbs j) := ofOperand _ rfl fun h => of_decide_eq_true h
theorem setbs : Statement .setbs := fun _ => by decide
theorem rewind : Statement .rewind := fun _ => by decide

end Sys2Proof.Laws.WordMatchesRow
end

