-- ==== Sys2Proof/Laws/Step.lean ====
section
/-! SUPPORT. One inversion lemma per agent: what the host's step and the engine's step can do, and which agent moves. -/

namespace Sys2Proof.Machine

open Sys2Proof

variable {s t : State}

/-- The ERR field of STATUS is the number of the code, for every value of the other fields. -/
theorem statusWord_err (s : State) : (statusWord s).extractLsb' 8 4 = s.err.number := by
  have h : ∀ (e : Err) (a b c d : Bool),
      (0#20 ++ e.number ++ 0#4 ++ BitVec.ofBool a ++ BitVec.ofBool b ++ BitVec.ofBool c ++
        BitVec.ofBool d).extractLsb' 8 4 = e.number := by
    intro e
    cases e <;> decide
  exact h _ _ _ _ _

/-- An offset of the window, added to BASE, is found again. -/
theorem windowOffset_base (c : Config) {off : Nat} (h : off < 0x40) : windowOffset c (c.base + off) = some off := by
  rw [windowOffset, if_pos (by omega), Nat.add_sub_cancel_left]

/-- A write of the window leaves the state, stores ARG, sets OVR, or issues a command. -/
theorem writeAt_cases (off : Nat) (size : Size) (v : Word) (s : State) :
    writeAt off size v s = s ∨ (writeAt off size v s = { s with arg := v } ∧ size = .word ∧ off = 0x10) ∨
    (writeAt off size v s = { s with ovr := true } ∧ size = .word ∧ off = 0x0C ∧ busy s = true) ∨
    (writeAt off size v s = issue v s ∧ size = .word ∧ off = 0x0C ∧ busy s = false) := by
  unfold writeAt
  split
  · unfold writeCmd
    split <;> simp_all
  · simp
  · simp

/-- What one statement of the host can do. -/
theorem hostStep_cases {st : HostStmt} (h : hostStep st s = .next t) :
    (st = .assertReset ∧ t = assertReset (nextStmt s)) ∨ (st = .releaseReset ∧ t = releaseReset (nextStmt s)) ∨
    (s.resetState ≠ .asserted ∧
      ((∃ addr size off, st = .read addr size ∧ windowOffset s.cfg addr = some off ∧
          t = { nextStmt (tick s) with busData := some (readAt s off size) }) ∨
       (∃ addr size v off, st = .write addr size v ∧ windowOffset s.cfg addr = some off ∧
          t = writeAt off size v (nextStmt (tick s))) ∨
       (st = .poll ∧ busy s = true ∧ t = { tick s with busData := some (statusWord s) }) ∨
       (st = .poll ∧ busy s = false ∧ t = { nextStmt (tick s) with busData := some (statusWord s) }))) := by
  cases st with
  | assertReset => cases h; simp
  | releaseReset => cases h; simp
  | read addr size =>
    simp only [hostStep] at h
    split at h
    · cases h
    · next hr =>
      unfold hostRead at h
      split at h
      · next off ho => cases h; simp [hr, ho]
      · cases h
  | write addr size v =>
    simp only [hostStep] at h
    split at h
    · cases h
    · next hr =>
      unfold hostWrite at h
      split at h
      · next off ho => cases h; simp [hr, ho]
      · cases h
  | poll =>
    simp only [hostStep] at h
    split at h
    · cases h
    · next hr =>
      unfold hostPoll at h
      split at h <;> cases h <;> simp_all

/-- What the engine's step can do. -/
theorem engineStep_cases (h : engineStep s = .next t) :
    (s.resetState = .initialising ∧ t = completeInit s) ∨
    (s.resetState ≠ .initialising ∧
      ((∃ i, decode (latchedWord s) = .ok i ∧ exec i s = .next t) ∨
       (∃ e, decode (latchedWord s) = .error e ∧ t = complete .illegalCommand s))) := by
  unfold engineStep at h
  split at h
  · next hr => cases h; exact .inl ⟨hr, rfl⟩
  · next hr =>
    refine .inr ⟨hr, ?_⟩
    unfold runLatched at h
    split at h
    · next i hi => exact .inl ⟨i, hi, h⟩
    · next e he => cases h; exact .inr ⟨e, he, rfl⟩

/-- Who moves, and when. -/
theorem turn_cases (s : State) :
    (turn s = .engine ∧ busy s = true ∧ s.resetState ≠ .asserted) ∨ (turn s = .idle ∧ s.host = []) ∨
    (∃ st l, turn s = .host st ∧ s.host = st :: l) := by
  unfold turn
  split
  · next h => exact .inl ⟨rfl, h.1, h.2.1⟩
  · split
    · next h => exact .inr (.inl ⟨rfl, h⟩)
    · next st l h => exact .inr (.inr ⟨st, l, rfl, h⟩)

/-- A next state comes from the engine, from the host, or from idling. -/
theorem step_cases (h : step s = .next t) :
    s.cfg.legal = true ∧
    ((turn s = .engine ∧ engineStep s = .next t) ∨ (∃ st, turn s = .host st ∧ hostStep st s = .next t) ∨
      (turn s = .idle ∧ t = s)) := by
  unfold step at h
  split at h
  · next hl =>
    refine ⟨hl, ?_⟩
    split at h
    · next ht => exact .inl ⟨ht, h⟩
    · next st ht => exact .inr (.inl ⟨st, ht, h⟩)
    · next ht => cases h; exact .inr (.inr ⟨ht, rfl⟩)
  · cases h

/-- With legal parameters, the engine's step is the machine's when it is the engine's turn. -/
theorem step_of_engine (hl : s.cfg.legal = true) (ht : turn s = .engine) : step s = engineStep s := by
  rw [step, if_pos hl, ht]

theorem step_of_host {st : HostStmt} (hl : s.cfg.legal = true) (ht : turn s = .host st) : step s = hostStep st s := by
  rw [step, if_pos hl, ht]

end Sys2Proof.Machine
end

