-- ==== Sys2Proof/Laws/Tree.lean ====
section
/-! SUPPORT. The tree builder and the code assigner write inside their tables: every node index is below NODE_CAP, every leaf
carries a symbol of the alphabet, and BUILD keeps the canonical form. -/

namespace Sys2Proof.Machine

open Sys2Proof

/-- A node table whose leaves carry symbols below `m`. -/
def LeavesBelow (m : Nat) (t : Table Node) : Prop := ∀ i, (nodeGet t i).leaf = true → (nodeGet t i).sym < m

theorem leavesBelow_nil (m : Nat) : LeavesBelow m [] := by
  intro i h
  cases h

theorem nodeGet_nodeSet {t : Table Node} (hs : (t.map Prod.fst).Pairwise (· < ·)) (i j : Nat) (nd : Node) :
    nodeGet (nodeSet t i nd) j = if j = i then nd else nodeGet t j := Table.get_set hs

theorem leavesBelow_set {t : Table Node} {m i : Nat} {nd : Node} (hs : (t.map Prod.fst).Pairwise (· < ·))
    (h : LeavesBelow m t) (hnd : nd.leaf = true → nd.sym < m) : LeavesBelow m (nodeSet t i nd) := by
  intro j
  rw [nodeGet_nodeSet hs]
  split
  · exact hnd
  · exact h j

theorem mem_presentSymbols {c : Config} {freq : Table Nat} {k : Nat} :
    k ∈ presentSymbols c freq ↔ k < c.nsym ∧ 0 < Table.get 0 freq k := by
  simp [presentSymbols]

theorem length_presentSymbols_le (c : Config) (freq : Table Nat) : (presentSymbols c freq).length ≤ c.nsym := by
  simpa [presentSymbols] using List.length_filter_le (fun k => decide (0 < Table.get 0 freq k)) (List.range c.nsym)

/-- Writing leaves inside the table keeps it canonical, with its leaves in the alphabet. -/
theorem wf_writeLeaves {freq : Table Nat} {m cap : Nat} (ks : List Nat) {t : Table Node} {j : Nat}
    (ht : Table.wf Node.zero cap t) (hl : LeavesBelow m t) (hk : ∀ k ∈ ks, k < m) (hj : j + ks.length ≤ cap) :
    Table.wf Node.zero cap (writeLeaves freq t j ks) ∧ LeavesBelow m (writeLeaves freq t j ks) := by
  induction ks generalizing t j with
  | nil => exact ⟨ht, hl⟩
  | cons k ks ih =>
    simp only [List.length_cons] at hj
    exact ih (Table.wf_set ht (by omega)) (leavesBelow_set ht.1 hl fun _ => hk k (by simp))
      (fun x hx => hk x (by simp [hx])) (by omega)

/-- The merge loop writes only from `next` on, at most `fuel` nodes, none of them a leaf. -/
theorem wf_mergeLoop {m cap : Nat} (fuel : Nat) {t : Table Node} {q : List Nat} {next : Nat}
    (ht : Table.wf Node.zero cap t) (hl : LeavesBelow m t) (hn : next + fuel ≤ cap) :
    Table.wf Node.zero cap (mergeLoop fuel t q next).1 ∧ LeavesBelow m (mergeLoop fuel t q next).1 := by
  induction fuel generalizing t q next with
  | zero => exact ⟨ht, hl⟩
  | succ fuel ih =>
    rw [mergeLoop]
    split
    · exact ⟨ht, hl⟩
    · split
      · exact ⟨ht, hl⟩
      · exact ih (Table.wf_set ht (by omega)) (leavesBelow_set ht.1 hl (by simp)) (by omega)

/-- TreeBuild from an empty node table. -/
theorem wf_treeBuild {c : Config} {freq : Table Nat} {n : Nat} (hn : 1 ≤ n) (hc : n ≤ c.nsym) :
    Table.wf Node.zero c.nodeCap (treeBuild c freq n []).1 ∧ LeavesBelow c.nsym (treeBuild c freq n []).1 := by
  have hleaves := wf_writeLeaves (freq := freq) (m := c.nsym) (cap := c.nodeCap) (presentSymbols c freq) (t := [])
    (j := 0) Table.wf_nil (leavesBelow_nil _) (fun k hk => (mem_presentSymbols.mp hk).1)
    (by have := length_presentSymbols_le c freq; unfold Config.nodeCap; omega)
  unfold treeBuild
  split
  · exact hleaves
  · exact wf_mergeLoop _ hleaves.1 hleaves.2 (by unfold Config.nodeCap; omega)

/-- The walk writes codes only for the symbols of leaves. -/
theorem wf_assignFrom {t : Table Node} {m : Nat} (hl : LeavesBelow m t) (fuel v : Nat) (path : Code) {codes : Table Code}
    (hc : Table.wf [] m codes) : Table.wf [] m (assignFrom t fuel v path codes) := by
  induction fuel generalizing v path codes with
  | zero => exact hc
  | succ fuel ih =>
    rw [assignFrom]
    split
    · next h => exact Table.wf_set hc (hl v h)
    · exact ih _ _ (ih _ _ hc)

theorem wf_codeAssign {t : Table Node} {m : Nat} (hl : LeavesBelow m t) (n root : Nat) {codes : Table Code}
    (hc : Table.wf [] m codes) : Table.wf [] m (codeAssign t n root codes) := by
  unfold codeAssign
  split
  · next h => exact Table.wf_set hc (hl root h)
  · exact wf_assignFrom hl _ _ _ hc

/-- BUILD keeps the canonical form, from the empty node table of COUNTING. -/
theorem memory_wf_buildTables {s : State} (h : Memory.wf s) (hnode : s.node = []) (hn : 1 ≤ s.nleaf)
    (hc : s.nleaf ≤ s.cfg.nsym) : Memory.wf (buildTables s) := by
  obtain ⟨ht, hl⟩ := wf_treeBuild (c := s.cfg) (freq := s.freq) hn hc
  unfold Memory.wf
  simp only [buildTables_cfg, buildTables_freq, buildTables_node, buildTables_code, buildTables_bs, builtCode,
    builtTree, hnode]
  exact ⟨h.1, ht, wf_codeAssign hl _ _ h.2.2.1, h.2.2.2⟩

end Sys2Proof.Machine
end

