-- ==== Sys2Proof/Laws/Runs.lean ====
section
/-! SUPPORT. Runs of steps, and the sums and counts over the alphabet when one count goes up. -/

namespace Sys2Proof.Machine

open Sys2Proof

theorem runSteps_succ {s t : State} (n : Nat) (h : step s = .next t) : runSteps (n + 1) s = runSteps n t := by
  rw [runSteps, h]

/-- A run of `m + n` steps is a run of `m` and then of `n`. -/
theorem runSteps_add {s t : State} (m n : Nat) (h : runSteps m s = .next t) : runSteps (m + n) s = runSteps n t := by
  induction m generalizing s with
  | zero => cases h; rw [Nat.zero_add]
  | succ m ih =>
    rw [runSteps] at h
    split at h
    · next u hu => rw [show m + 1 + n = (m + n) + 1 by omega, runSteps_succ _ hu, ih h]
    · cases h
    · cases h

theorem runCommands_cons {i : Instr} {is : List Instr} {s t : State} (h : exec i s = .next t) (he : t.err = .ok) :
    runCommands (i :: is) s = runCommands is t := by
  rw [runCommands, h]
  simp only [he, if_true]

theorem runCommands_cons_some {i : Instr} {is : List Instr} {s u : State} (h : runCommands (i :: is) s = some u) :
    ∃ t, exec i s = .next t ∧ t.err = .ok ∧ runCommands is t = some u := by
  rw [runCommands] at h
  split at h
  · next t ht =>
    split at h
    · next he => exact ⟨t, ht, he, h⟩
    · cases h
  · cases h
  · cases h

theorem runCommands_append (is js : List Instr) (s : State) :
    runCommands (is ++ js) s = (runCommands is s).bind (runCommands js) := by
  induction is generalizing s with
  | nil => rfl
  | cons i is ih =>
    simp only [List.cons_append, runCommands]
    split
    · split
      · exact ih _
      · rfl
    · rfl
    · rfl

/-- The sum over the alphabet goes up by 1 when one count does. -/
theorem sum_range_update {n a : Nat} {f g : Nat → Nat} (ha : a < n) (hga : g a = f a + 1)
    (hg : ∀ k, k ≠ a → g k = f k) : ((List.range n).map g).sum = ((List.range n).map f).sum + 1 := by
  induction n with
  | zero => omega
  | succ n ih =>
    rw [List.range_succ, List.map_append, List.map_append, List.sum_append, List.sum_append]
    simp only [List.map_cons, List.map_nil, List.sum_cons, List.sum_nil]
    by_cases h : a = n
    · subst h
      rw [List.map_congr_left fun k hk => hg k (Nat.ne_of_lt (List.mem_range.mp hk)), hga]
      omega
    · rw [ih (by omega), hg n (Ne.symm h)]
      omega

/-- The number of present symbols goes up by 1 when a new one is counted, and stays when an old one is. -/
theorem length_present_update {n a : Nat} {f g : Nat → Nat} (ha : a < n) (hga : g a = f a + 1)
    (hg : ∀ k, k ≠ a → g k = f k) :
    ((List.range n).filter fun k => decide (0 < g k)).length =
      ((List.range n).filter fun k => decide (0 < f k)).length + if f a = 0 then 1 else 0 := by
  induction n with
  | zero => omega
  | succ n ih =>
    simp only [List.range_succ, List.filter_append, List.length_append, List.filter_singleton]
    by_cases h : a = n
    · subst h
      rw [List.filter_congr fun k hk => by rw [hg k (Nat.ne_of_lt (List.mem_range.mp hk))], hga]
      by_cases h0 : f a = 0
      · simp [h0]
      · simp [h0, Nat.pos_of_ne_zero h0]
    · rw [ih (by omega), hg n (Ne.symm h)]
      omega

end Sys2Proof.Machine
end

