-- ==== Sys2Proof/Tests/Slice0.lean ====
section
/-! SUPPORT. The model's own tests. Expected results are those of spec/95_test_vectors.md (the vector is named at each test) or
are worked by hand from the rule named; the witnesses show that the hypotheses of each statement can be met. -/

namespace Sys2Proof.Tests

open Sys2Proof Sys2Proof.Machine

/-! ## Helpers -/

/-- The state after an outcome, if it is a next state. -/
def after : Host.Outcome State Fault Refusal → Option State
  | .next t => some t
  | .fault _ => none
  | .refused _ => none

/-- ARG as a command will find it latched. -/
def withArg (v : Word) (s : State) : State := { s with lcmd := { s.lcmd with arg := v } }

/-- The state after commands that all succeed, from the reset state of a configuration. -/
def session (c : Config) (is : List Instr) : State := (runCommands is (State.resetOf c)).getD (State.resetOf c)

/-- One command from a state, whatever it reports. -/
def run1 (i : Instr) (s : State) : State := (after (exec i s)).getD s

/-- SYM_W = 1, CNT_W = 2, BS_CAP = 32: two symbols, counts to 3, one buffer word. -/
def tiny : Config := { symW := 1, cntW := 2, bsCap := 32, base := 0x100 }

/-- SYM_W = 2, CNT_W = 8, BS_CAP = 64. -/
def four : Config := { symW := 2, cntW := 8, bsCap := 64, base := 0x100 }

/-- The session of one symbol (0), built. -/
def one : State := session tiny [.count 0, .build]

/-- The session of "0 1 2 2" (V-TB-4's shape: codes 2 "1", 0 "01", 1 "00"), built. -/
def built : State := session four [.count 0, .count 1, .count 2, .count 2, .build]

/-- The same, encoded: stream 010011, BSLEN = 6. -/
def encoded : State :=
  session four [.count 0, .count 1, .count 2, .count 2, .build, .enc 0, .enc 1, .enc 2, .enc 2]

/-- The reference block while the host's statements are as given. -/
def withHost (h : List HostStmt) (s : State) : State := { s with host := h }

/-- The block during reset initialisation. -/
def initialising : State := { State.resetOf four with resetState := .initialising, busyFor := 1 }

/-- `n` DEC commands from a state, whatever they report. -/
def decs : Nat → State → State
  | 0, s => s
  | n + 1, s => decs n (run1 .dec s)

/-! ## Well-formed commands: one ill-formed term for each check -/

theorem test_wf_refuses_count : (Instr.count (2 ^ 24)).wf = false := by decide
theorem test_wf_refuses_enc : (Instr.enc (2 ^ 24)).wf = false := by decide
theorem test_wf_refuses_rdfreq : (Instr.rdfreq (2 ^ 24)).wf = false := by decide
theorem test_wf_refuses_rdcode : (Instr.rdcode (2 ^ 24)).wf = false := by decide
theorem test_wf_refuses_rdnode : (Instr.rdnode (2 ^ 24)).wf = false := by decide
theorem test_wf_refuses_wrbs : (Instr.wrbs (2 ^ 24)).wf = false := by decide
theorem test_wf_refuses_rdbs : (Instr.rdbs (2 ^ 24)).wf = false := by decide
theorem test_wf_accepts_largest : (Instr.count (2 ^ 24 - 1)).wf = true := by decide

/-! ## Decoding: words written out from 30_encoding.md R80 and R83 (A in bits 31:8, OP in bits 7:0) -/

theorem test_decode_nop : decode 0b000000000000000000000000_00000000#32 = .ok .nop := by decide
theorem test_decode_clear : decode 0b000000000000000000000000_00000001#32 = .ok .clear := by decide
theorem test_decode_count : decode 0b000000000000000001100001_00000010#32 = .ok (.count 0x61) := by decide
theorem test_decode_build : decode 0b000000000000000000000000_00000011#32 = .ok .build := by decide
theorem test_decode_enc : decode 0b000000000000000001110010_00000100#32 = .ok (.enc 0x72) := by decide
theorem test_decode_dec : decode 0b000000000000000000000000_00000101#32 = .ok .dec := by decide
theorem test_decode_rdfreq : decode 0b000000000000000001111010_00000110#32 = .ok (.rdfreq 0x7A) := by decide
theorem test_decode_rdcode : decode 0b000000000000000001100001_00000111#32 = .ok (.rdcode 0x61) := by decide
theorem test_decode_rdnode : decode 0b000000000000000000001000_00001000#32 = .ok (.rdnode 8) := by decide
theorem test_decode_wrbs : decode 0b000000000000100000000000_00001001#32 = .ok (.wrbs 2048) := by decide
theorem test_decode_rdbs : decode 0b000000000000011111111111_00001010#32 = .ok (.rdbs 2047) := by decide
theorem test_decode_setbs : decode 0b000000000000000000000000_00001011#32 = .ok .setbs := by decide
theorem test_decode_rewind : decode 0b000000000000000000000000_00001100#32 = .ok .rewind := by decide
/-- V-EC-5: A is zero-extended. -/
theorem test_decode_zero_extends : decode 0xFFFFFF02 = .ok (.count 0xFFFFFF) := by decide
/-- V-EC-2, V-EC-9: format N with A = 1. -/
theorem test_decode_format_n : decode 0x00000100 = .error (.operandNotZero 0 1) ∧
    decode 0x0000010B = .error (.operandNotZero 0x0B 1) := by decide
/-- V-EC-7, V-EC-8: reserved opcodes. -/
theorem test_decode_reserved : decode 0x0000000D = .error (.reservedOpcode 0x0D) ∧
    decode 0x000000FF = .error (.reservedOpcode 0xFF) := by decide
theorem test_decodeTableWord : decodeTableWord 32 0x00006102 = some (.count 0x61) ∧
    decodeTableWord 32 0x00000103 = none := by decide

/-! ## The commands against spec/95_test_vectors.md -/

/-- The symbols of "abracadabra". -/
def abracadabra : List Nat := [0x61, 0x62, 0x72, 0x61, 0x63, 0x61, 0x64, 0x61, 0x62, 0x72, 0x61]

/-- P1 up to statement 13, and the whole of P1 but RDBS. -/
def p1Built : State := session Config.reference (abracadabra.map .count ++ [.build])

def p1Encoded : State := session Config.reference (abracadabra.map .count ++ [.build] ++ abracadabra.map .enc)

/-- V-SC-1: NOP after a Range error clears ERR and keeps the rest. -/
theorem test_nop_clears_err :
    statusWord (run1 (.count 0x100) State.reset) = 0x604 ∧
    run1 .nop (run1 (.count 0x100) State.reset) = State.reset := by decide

/-- V-SC-2: CLEAR keeps ARG and leaves the reset state. -/
theorem test_clear_keeps_arg :
    run1 .clear { p1Encoded with arg := 5, ovr := true } = { State.reset with arg := 5 } := by decide

/-- V-FC-1, V-FC-2. -/
theorem test_count_twice :
    let s := run1 (.count 0x61) (run1 (.count 0x61) State.reset)
    freqAt s 0x61 = 2 ∧ s.total = 2 ∧ s.nleaf = 1 ∧ s.result0 = 2 ∧ statusWord s = 0x004 := by decide

/-- V-FC-5: with CNT_W = 2 the fourth COUNT overflows (here with symbols 0 and 1). -/
theorem test_count_overflow :
    let s := run1 (.count 1) (session tiny [.count 0, .count 0, .count 0])
    statusWord s = 0x704 ∧ s.total = 3 ∧ freqAt s 1 = 0 ∧ s.nleaf = 1 ∧ s.result0 = 3 := by decide

/-- V-TB-1: the registers after BUILD, and a node that a tie makes. -/
theorem test_build_abracadabra :
    p1Built.root = 8 ∧ p1Built.result0 = 8 ∧ p1Built.result1 = 5 ∧ p1Built.result2 = 3 ∧
    statusWord p1Built = 0x006 ∧
    nodeAt p1Built 6 = { leaf := false, sym := 0, left := 1, right := 4, freq := 4 } := by decide +kernel

/-- V-TB-3: the lighter node, not the first leaf, is removed first and is the left child. -/
theorem test_build_lighter_is_left :
    let s := session four [.count 0, .count 0, .count 1, .build]
    nodeAt s 2 = { leaf := false, sym := 0, left := 1, right := 0, freq := 3 } ∧
    codeAt s 0 = [false] ∧ codeAt s 1 = [true] := by decide

/-- V-TB-1: RDNODE of a leaf and of the root. -/
theorem test_rdnode :
    (run1 (.rdnode 0) p1Built).result0 = 0x80000061 ∧ (run1 (.rdnode 0) p1Built).result2 = 5 ∧
    (run1 (.rdnode 8) p1Built).result0 = 0 ∧ (run1 (.rdnode 8) p1Built).result1 = 7 ∧
    statusWord (run1 (.rdnode 9) p1Built) = 0x606 := by decide

/-- V-CA-1 and V-CA-4: RDCODE 'c' and RDCODE 'z'. -/
theorem test_rdcode :
    (run1 (.rdcode 0x63) p1Built).result0 = 6 ∧ (run1 (.rdcode 0x63) p1Built).result1 = 3 ∧
    (run1 (.rdcode 0x7A) p1Built).err = .unknownSymbol := by decide

/-- V-CA-3: Range before UnknownSymbol, and the word after the last. -/
theorem test_rdcode_range :
    (run1 (.rdcode 0x7A) (withArg 8 p1Built)).err = .range ∧
    (run1 (.rdcode 0x61) (withArg 7 p1Built)).result0 = 0 ∧
    (run1 (.rdcode 0x61) (withArg 7 p1Built)).result1 = 1 := by decide

/-- V-CA-3: a code of 33 bits is read as two words (code 32 zeros and then a 1). -/
theorem test_code_word_beyond_32 :
    codeWord (List.replicate 32 false ++ [true]) 0 = 0 ∧ codeWord (List.replicate 32 false ++ [true]) 1 = 1 := by decide

/-- V-EN-1: the stream of "abracadabra". -/
theorem test_enc_abracadabra :
    bsWord p1Encoded 0 = 0x0044AE89 ∧ p1Encoded.bslen = 23 ∧ statusWord p1Encoded = 0x002 := by decide

/-- V-EN-2: ENC 'c' at stream bit 31 writes into two words. -/
theorem test_enc_across_words :
    let s := run1 (.enc 0x63) { p1Built with bslen := 31 }
    bsWord s 0 = 0 ∧ bsWord s 1 = 3 ∧ s.bslen = 34 := by decide

/-- V-EN-5: the buffer's end. -/
theorem test_setbs_and_overflow :
    (run1 .setbs (withArg 65536 p1Built)).bslen = 65536 ∧ (run1 .setbs (withArg 65537 p1Built)).err = .range ∧
    (run1 (.enc 0x62) { p1Built with bslen := 65534 }).err = .bsOverflow ∧
    (run1 (.enc 0x61) { p1Built with bslen := 65535 }).bslen = 65536 := by decide

/-- V-EN-5: WRBS and RDBS at the end of the buffer. -/
theorem test_wrbs_rdbs_bounds :
    (run1 (.wrbs 2048) (withArg 1 p1Built)).err = .range ∧ (run1 (.rdbs 2048) p1Built).err = .range ∧
    (run1 (.rdbs 2047) (run1 (.wrbs 2047) (withArg 0x80000000 p1Built))).result0 = 0x80000000 := by decide

/-- V-EN-7: SETBS 0 keeps the buffer, and ENC 'b' overwrites three bits of it. -/
theorem test_setbs_zero_keeps_words :
    let s := run1 (.enc 0x62) (run1 .setbs (withArg 0 p1Encoded))
    bsWord s 0 = 0x0044AE8C ∧ s.bslen = 3 ∧ statusWord (run1 .setbs (withArg 0 p1Encoded)) = 0x006 := by decide

/-- V-DE-1, rows 1 to 3; P3: with BSLEN = 21 the tenth DEC is cut short; V-DE-2: the marker at the end of the stream. -/
theorem test_dec_abracadabra :
    (decs 1 p1Encoded).result0 = 0x61 ∧ (decs 2 p1Encoded).result0 = 0x62 ∧ (decs 3 p1Encoded).result0 = 0x72 ∧
    (decs 3 p1Encoded).result1 = 3 ∧ (decs 3 p1Encoded).bsrd = 7 ∧
    statusWord (run1 .dec { p1Encoded with bslen := 21, bsrd := 19 }) = 0x302 ∧
    (run1 .dec { p1Encoded with bslen := 21, bsrd := 19 }).bsrd = 19 ∧
    (run1 .dec { p1Encoded with bsrd := 23 }).result0 = 0xFFFFFFFF ∧
    statusWord (run1 .dec { p1Encoded with bsrd := 23 }) = 0x006 := by decide

/-- P4: a 1 bit in a one-leaf tree is InvalidPath and consumes nothing. -/
theorem test_dec_invalid_path :
    let s := run1 .dec { one with bs := [(0, 2)], bslen := 4 }
    s.result0 = 0 ∧ s.result1 = 1 ∧ s.bsrd = 1 ∧ statusWord (run1 .dec s) = 0x902 ∧ (run1 .dec s).bsrd = 1 := by decide

/-- V-FC-9, V-FC-10: RDFREQ. -/
theorem test_rdfreq :
    (run1 (.rdfreq 0x61) p1Built).result0 = 5 ∧ (run1 (.rdfreq 0x7A) p1Built).result0 = 0 ∧
    (run1 (.rdfreq 0x100) State.reset).err = .range := by decide

/-- V-EN-7: REWIND. -/
theorem test_rewind :
    (run1 .rewind { p1Encoded with bsrd := 7 }).bsrd = 0 ∧ statusWord (run1 .rewind { p1Encoded with bsrd := 7 }) = 0x002 := by
  decide

/-! ## The window, the host and reset -/

/-- V-RG-1 to V-RG-6, V-RG-11, V-RG-12. -/
theorem test_window_reads :
    readAt State.reset 0x00 .word = 0x48554646 ∧ readAt State.reset 0x03 .byte = 0x48 ∧
    readAt State.reset 0x04 .word = 0x00002008 ∧ readAt State.reset 0x05 .byte = 0x20 ∧
    readAt State.reset 0x08 .word = 0x00010000 ∧ readAt State.reset 0x0C .word = 0 ∧
    readAt State.reset 0x38 .word = 0 ∧ readAt State.reset 0x3C .word = 0 ∧ readAt State.reset 0x15 .word = 0 := by decide

/-- V-RG-7, V-RG-8: ARG and its upper halfword. -/
theorem test_arg_write :
    readAt (writeAt 0x10 .word 0x12345678 State.reset) 0x10 .word = 0x12345678 ∧
    readAt (writeAt 0x10 .word 0x12345678 State.reset) 0x12 .half = 0x1234 := by decide

/-- V-RG-9, V-RG-10: ignored writes. -/
theorem test_ignored_writes :
    writeAt 0x0C .byte 0x01 State.reset = State.reset ∧ writeAt 0x14 .word 0 State.reset = State.reset := by decide

/-- V-RS-1, V-RS-2, V-RS-3. -/
theorem test_reset_status :
    statusWord initialising = 0x5 ∧ statusWord State.reset = 0x4 ∧
    statusWord (completeInit (writeAt 0x0C .word 0 initialising)) = 0x0000000C := by decide

/-- R200: ARG is 0 once the initialisation completes; R25: until then it reads what the host wrote. -/
theorem test_arg_after_initialisation :
    regAt (writeAt 0x10 .word 7 initialising) 0x10 = 7 ∧
    regAt (completeInit (writeAt 0x10 .word 7 initialising)) 0x10 = 0 := by decide

/-- R216: a program that ends with the release of reset has not ended while BUSY = 1, and has ended one step later. -/
theorem test_end_of_run :
    ¬ initialising.Ended ∧ (after (step initialising)).map (fun t => decide t.Ended) = some true := by decide

/-- The READY state of P6 with ENC 'a' accepted (statement 1) and statements 2 and 3 to come; `n` is the free length of the
busy period. -/
def p6 (n : Nat) : State :=
  { (one.withFetchWord 32 0x00000004) with host := [wrCmd tiny 0x00000004, .poll], busyFor := n }

/-- P6 (a): the second CMD write comes while BUSY = 1: it is dropped, and ST = 0x00A in the end. -/
theorem test_p6_dropped :
    (after (runSteps 3 (p6 1))).map (fun s => (statusWord s, s.bslen, s.host)) = some (0x00A, 1, []) := by decide

/-- P6 (b): the first command has completed: the second is accepted. -/
theorem test_p6_accepted :
    (after (runSteps 2 (p6 0))).map (fun s => (s.bslen, s.ovr, s.lcmd.valid)) = some (1, false, true) := by decide

/-- The step runs the placed word as the first command after reset. -/
theorem test_step_runs_placed_word :
    (after (step (State.reset.withFetchWord 32 0x00006102))).map (fun s => (s.total, busy s)) = some (1, false) := by
  decide

/-- 93_implementation_defined.md U6: parameters out of range are refused. -/
theorem test_illegal_parameters : Config.legal { tiny with symW := 24 } = false ∧ tiny.legal = true ∧ four.legal = true := by
  decide

/-! ## Witnesses: the hypotheses of the statements can be met -/

theorem witness_DecodeOfEncode : (Instr.count (2 ^ 24 - 1)).wf = true ∧ (Instr.wrbs 0).wf = true := by decide
theorem witness_EncodeOfDecode : decode 0xFFFFFF02 = .ok (.count 0xFFFFFF) ∧ decode 0x0000000C = .ok .rewind := by decide
theorem witness_ReservedWords :
    decode (latchedWord (State.reset.withFetchWord 32 0x0D)) = .error (.reservedOpcode 0x0D) ∧
    decode (latchedWord (State.reset.withFetchWord 32 0x100)) = .error (.operandNotZero 0 1) := by decide
theorem witness_StepRuns :
    let s := State.reset.withFetchWord 32 0x00006102
    s.cfg.legal = true ∧ s.resetState = .running ∧ s.lcmd.valid = true ∧ s.busyFor = 0 ∧ s.host = [] ∧
      decode (latchedWord s) = .ok (.count 0x61) := by decide
theorem witness_PlacedWord : State.reset.cfg.legal = true := by decide

theorem witness_Count_success :
    let s := session tiny [.count 0, .count 0]
    Memory.wf s ∧ s.phase = .counting ∧ 1 < s.cfg.nsym ∧ s.total ≠ s.cfg.cntMax := by decide
theorem witness_Count_errors :
    Memory.wf one ∧ one.phase ≠ .counting ∧
    (Memory.wf (State.resetOf tiny) ∧ (State.resetOf tiny).phase = .counting ∧ (State.resetOf tiny).cfg.nsym ≤ 2) ∧
    (let s := session tiny [.count 0, .count 0, .count 0]
     Memory.wf s ∧ s.phase = .counting ∧ 1 < s.cfg.nsym ∧ s.total = s.cfg.cntMax) := by decide
theorem witness_Rdfreq : 1 < one.cfg.nsym ∧ one.cfg.nsym ≤ 2 := by decide
theorem witness_Build :
    (let s := session four [.count 3]; s.phase = .counting ∧ s.nleaf ≠ 0) ∧ built.phase ≠ .counting ∧
    (State.reset.phase = .counting ∧ State.reset.nleaf = 0) := by decide
theorem witness_Rdnode :
    (built.phase = .ready ∧ 4 < 2 * built.nleaf - 1) ∧ State.reset.phase ≠ .ready ∧ 2 * built.nleaf - 1 ≤ 5 := by decide
theorem witness_Rdcode :
    (built.phase = .ready ∧ 2 < built.cfg.nsym ∧ built.lcmd.arg.toNat < built.cfg.codeWords ∧
      (codeAt built 2).length ≠ 0) ∧
    State.reset.phase ≠ .ready ∧ built.cfg.nsym ≤ 4 ∧ built.cfg.codeWords ≤ (withArg 1 built).lcmd.arg.toNat ∧
    (3 < built.cfg.nsym ∧ (codeAt built 3).length = 0) := by decide
theorem witness_Enc_success :
    (let s := { built with bslen := 62, bsrd := 62 }
     Memory.wf s ∧ s.phase = .ready ∧ 1 < s.cfg.nsym ∧ (codeAt s 1).length ≠ 0 ∧
       s.bslen + (codeAt s 1).length ≤ s.cfg.bsCap ∧ s.bsrd ≤ s.bslen) := by decide
theorem witness_Enc_errors :
    (let s := { built with bslen := 63 }
     Memory.wf s ∧ s.phase = .ready ∧ 1 < s.cfg.nsym ∧ (codeAt s 1).length ≠ 0 ∧
       s.cfg.bsCap < s.bslen + (codeAt s 1).length) ∧
    (Memory.wf built ∧ built.cfg.nsym ≤ 4 ∧ 3 < built.cfg.nsym ∧ (codeAt built 3).length = 0) ∧
    (Memory.wf State.reset ∧ State.reset.phase ≠ .ready) := by decide
theorem witness_Wrbs : Memory.wf encoded ∧ 1 < encoded.cfg.bsWords ∧ encoded.cfg.bsWords ≤ 2 := by decide
theorem witness_Rdbs : 1 < encoded.cfg.bsWords ∧ encoded.cfg.bsWords ≤ 2 := by decide
theorem witness_Setbs :
    (withArg 64 built).lcmd.arg.toNat ≤ built.cfg.bsCap ∧ built.cfg.bsCap < (withArg 65 built).lcmd.arg.toNat := by decide
theorem witness_Rewind : (exec .rewind encoded) = .next (complete .ok { encoded with bsrd := 0 }) := rfl
theorem witness_Dec_ends :
    (State.reset.bsrd ≤ State.reset.bslen ∧ State.reset.phase ≠ .ready) ∧ (built.phase = .ready ∧ built.bsrd = built.bslen) ∧
    (let s := { one with bslen := 1 }
     s.phase = .ready ∧ s.bsrd < s.bslen ∧ (nodeAt s s.root).leaf = true ∧ bsBit s s.bsrd = false) ∧
    (let s := { one with bs := [(0, 1)], bslen := 1 }
     s.phase = .ready ∧ s.bsrd < s.bslen ∧ (nodeAt s s.root).leaf = true ∧ bsBit s s.bsrd = true) := by decide
/-- The walk's clauses: symbol 0 has the code 01, so a leaf is reached after 2 bits, and not after 1. -/
theorem witness_Dec_walk :
    (encoded.bsrd ≤ encoded.bslen ∧ encoded.phase = .ready ∧ encoded.bsrd < encoded.bslen ∧
      (nodeAt encoded encoded.root).leaf = false ∧ 2 ≤ encoded.bslen - encoded.bsrd) ∧
    (∀ m, 1 ≤ m → m < 2 →
      (nodeAt encoded (follow encoded.node encoded.root (streamBits encoded encoded.bsrd m))).leaf = false) ∧
    (nodeAt encoded (follow encoded.node encoded.root (streamBits encoded encoded.bsrd 2))).leaf = true := by
  refine ⟨by decide, fun m h1 h2 => ?_, by decide⟩
  obtain rfl : m = 1 := by omega
  decide
theorem witness_Dec_truncated :
    let s := { encoded with bslen := 1 }
    (s.bsrd ≤ s.bslen ∧ s.phase = .ready ∧ s.bsrd < s.bslen ∧ (nodeAt s s.root).leaf = false) ∧
    ∀ m, 1 ≤ m → m ≤ s.bslen - s.bsrd → (nodeAt s (follow s.node s.root (streamBits s s.bsrd m))).leaf = false := by
  refine ⟨by decide, fun m h1 h2 => ?_⟩
  obtain rfl : m = 1 := by have h3 : m ≤ 1 := h2; omega
  decide
/-- One latched word for each opcode row: format N with A = 0 and with A other than 0, format A. -/
theorem witness_latched_rows :
    (State.reset.withFetchWord 32 0x00).lcmd.op = 0x00 ∧ (State.reset.withFetchWord 32 0x00).lcmd.a = 0 ∧
    (State.reset.withFetchWord 32 0x10C).lcmd.op = 0x0C ∧ (State.reset.withFetchWord 32 0x10C).lcmd.a ≠ 0 ∧
    (State.reset.withFetchWord 32 0x6102).lcmd.op = 0x02 := by decide

/-- A command that raises an error: COUNT of a symbol out of range. -/
theorem witness_error :
    ∃ t, exec (.count 2) (State.resetOf tiny) = .next t ∧ t.err ≠ .ok := ⟨_, rfl, by decide⟩
theorem witness_ErrorCodes :
    ∃ t, runLatched ((State.resetOf tiny).withFetchWord 32 0x0D) = .next t ∧ t.err = .illegalCommand := ⟨_, rfl, by decide⟩
/-- The first and the last code, each the ERR of a state. -/
theorem witness_ErrorNumbers :
    State.reset.err = .ok ∧ (run1 .dec { one with bs := [(0, 1)], bslen := 1 }).err = .invalidPath := by decide
/-- Each clause of the priority rule: an illegal word; a wrong phase with an operand out of range too; an operand out of
range in the right phase; an operand in range. -/
theorem witness_ErrorPriority :
    decode (latchedWord (State.reset.withFetchWord 32 0x103)) = .error (.operandNotZero 3 1) ∧
    (decode (latchedWord (State.reset.withFetchWord 32 0x00010004)) = .ok (.enc 0x100) ∧
      Instr.phaseNeeded (.enc 0x100) = some .ready ∧ State.reset.phase ≠ .ready) ∧
    (decode (latchedWord (State.reset.withFetchWord 32 0x00010002)) = .ok (.count 0x100) ∧
      Instr.phaseNeeded (.count 0x100) = some .counting ∧ State.reset.phase = .counting) ∧
    ¬ Instr.inRange State.reset (.count 0x100) ∧ Instr.inRange State.reset (.count 0xFF) := by
  refine ⟨by decide, by decide, by decide, ?_, ?_⟩
  · show ¬ 0x100 < State.reset.cfg.nsym
    decide
  · show 0xFF < State.reset.cfg.nsym
    decide

theorem witness_RegisterMap : State.reset.resetState ≠ .asserted := by decide
theorem witness_Reads : ∃ t, hostStep (.read 0x114 .word) (withHost [.read 0x114 .word] (State.resetOf four)) = .next t :=
  ⟨_, rfl⟩
/-- Even and odd offsets, at the ends of the window. -/
theorem witness_NarrowReads :
    (State.resetOf four).resetState ≠ .asserted ∧ (0 : Nat) < 0x40 ∧ (0 : Nat) % 2 = 0 ∧ (0x3E : Nat) < 0x40 ∧
    (0x3E : Nat) % 2 = 0 ∧ (0x3F : Nat) < 0x40 ∧ (0x3F : Nat) % 2 = 1 ∧ (0x01 : Nat) % 4 ≠ 0 ∧ (0x3F : Nat) % 4 ≠ 0 := by decide
theorem witness_OtherWrites :
    (State.resetOf four).resetState ≠ .asserted ∧ (0x3F : Nat) < 0x40 ∧ ¬ (Size.word = .word ∧ (0x0D = 0x0C ∨ 0x0D = 0x10)) ∧
    ¬ (Size.half = .word ∧ (0x0C = 0x0C ∨ 0x0C = 0x10)) := by decide
theorem witness_CmdWrites :
    (State.resetOf four).resetState ≠ .asserted ∧ busy (State.resetOf four) = false ∧
    initialising.resetState ≠ .asserted ∧ busy initialising = true ∧ busy (State.reset.withFetchWord 32 0) = true := by decide
/-- A step that changes ARG by a host write. -/
theorem witness_ArgStep :
    ∃ t, step (withHost [wrArg four 7] (State.resetOf four)) = .next t ∧ t.arg ≠ (State.resetOf four).arg :=
  ⟨_, rfl, by decide⟩
/-- Steps that change ARG by the assertion of reset, and by the completion of the initialisation. -/
theorem witness_ArgResetSteps :
    (let s := withHost [.assertReset] { State.resetOf four with arg := 7 }
     ∃ t, step s = .next t ∧ t.arg ≠ s.arg ∧ turn s = .host .assertReset) ∧
    (let s := { initialising with arg := 7 }
     ∃ t, step s = .next t ∧ t.arg ≠ s.arg ∧ turn s = .engine ∧ s.resetState = .initialising) :=
  ⟨⟨_, rfl, by decide, by decide⟩, ⟨_, rfl, by decide, by decide, by decide⟩⟩
/-- A step that sets OVR, and one that clears it. -/
theorem witness_OvrSteps :
    (∃ t, step (withHost [wrCmd four 0] initialising) = .next t ∧ initialising.ovr = false ∧ t.ovr = true) ∧
    (∃ t, step ({ State.resetOf four with ovr := true }.withFetchWord 32 1) = .next t ∧ t.ovr = false) :=
  ⟨⟨_, rfl, by decide, by decide⟩, ⟨_, rfl, by decide⟩⟩
/-- A step that makes PHASE READY, and one that makes it COUNTING. -/
theorem witness_PhaseSteps :
    (∃ t, step ((session four [.count 1]).withFetchWord 32 3) = .next t ∧ t.phase = .ready) ∧
    (∃ t, step (built.withFetchWord 32 1) = .next t ∧ built.phase = .ready ∧ t.phase = .counting) :=
  ⟨⟨_, rfl, by decide⟩, ⟨_, rfl, by decide, by decide⟩⟩
/-- A host step while a command is in progress. -/
theorem witness_HostStep :
    (∃ t, step (withHost [.poll] { built.withFetchWord 32 1 with busyFor := 1 }) = .next t) ∧
    turn (withHost [.poll] { built.withFetchWord 32 1 with busyFor := 1 }) ≠ .engine ∧
    turn (withHost [.poll] { built.withFetchWord 32 1 with busyFor := 1 }) ≠ .host .assertReset :=
  ⟨⟨_, rfl⟩, by decide, by decide⟩
theorem witness_Refusals :
    (assertReset built).resetState = .asserted ∧ built.resetState ≠ .asserted ∧ 0xFF < built.cfg.base ∧
    built.cfg.base + 0x40 ≤ 0x140 := by decide
/-- Reset of an idle block, and of one with a command in progress. -/
theorem witness_Reset :
    (let s := withHost [.assertReset, .releaseReset] built
     s.cfg.legal = true ∧ s.host = [.assertReset, .releaseReset] ∧ turn s = .host .assertReset) ∧
    (let s := withHost [.assertReset, .releaseReset] { built.withFetchWord 32 1 with busyFor := 1 }
     s.cfg.legal = true ∧ s.host = [.assertReset, .releaseReset] ∧ turn s = .host .assertReset ∧ busy s = true) := by decide

theorem inv_initialising : initialising.Inv := ⟨by decide, by decide, by decide, by decide, by decide⟩
theorem inv_reset_four : (State.resetOf four).Inv := ⟨by decide, by decide, by decide, by decide, by decide⟩
theorem inv_built : built.Inv := ⟨by decide, by decide, by decide, by decide, by decide⟩
theorem inv_encoded : encoded.Inv := ⟨by decide, by decide, by decide, by decide, by decide⟩
theorem inv_one : one.Inv := ⟨by decide, by decide, by decide, by decide, by decide⟩
/-- The session of one symbol, before BUILD. -/
def oneCounted : State := session tiny [.count 1]
theorem inv_oneCounted : oneCounted.Inv := ⟨by decide, by decide, by decide, by decide, by decide⟩

theorem witness_Initialisation : initialising.Inv ∧ initialising.resetState = .initialising ∧ initialising.ovr = false :=
  ⟨inv_initialising, by decide, by decide⟩
/-- The end of an initialisation during which the host wrote ARG and had a CMD write dropped. -/
theorem witness_InitialisationEnds :
    let s := { initialising with arg := 7, ovr := true }
    s.Inv ∧ s.resetState = .initialising ∧ turn s = .engine :=
  ⟨⟨by decide, by decide, by decide, by decide, by decide⟩, by decide, by decide⟩
theorem witness_InvariantAtReset : four.legal = true ∧ tiny.legal = true := by decide
theorem witness_StepKeepsInvariant :
    ∃ t, built.Inv ∧ step built = .next t := ⟨_, inv_built, rfl⟩
theorem witness_Parameters :
    (∃ t, step built = .next t) ∧ { State.resetOf tiny with cfg := { tiny with bsCap := 33 } }.cfg.legal = false :=
  ⟨⟨_, rfl⟩, by decide⟩

/-- A built session of three symbols: the premises of the tree and code statements. -/
theorem witness_Tree :
    built.Inv ∧ built.resetState = .running ∧ built.phase = .ready ∧ 2 ≤ built.nleaf ∧ built.nleaf ≤ built.root ∧
    0 < freqAt built 0 ∧ 0 < freqAt built 1 ∧ freqAt built 3 = 0 ∧ 3 < built.cfg.nsym :=
  ⟨inv_built, by decide, by decide, by decide, by decide, by decide, by decide, by decide, by decide⟩
theorem witness_OneSymbol :
    oneCounted.Inv ∧ oneCounted.resetState = .running ∧ oneCounted.phase = .counting ∧ oneCounted.nleaf = 1 :=
  ⟨inv_oneCounted, by decide, by decide, by decide⟩
/-- The premises of the statements about READY, for a one-leaf tree and the symbol at the top of the alphabet. -/
theorem witness_OneLeaf :
    one.Inv ∧ one.resetState = .running ∧ one.phase = .ready ∧ one.nleaf = 1 ∧ 0 < freqAt one 0 ∧ freqAt one 1 = 0 ∧
    1 < one.cfg.nsym :=
  ⟨inv_one, by decide, by decide, by decide, by decide, by decide, by decide⟩
/-- CLEAR leaves READY, and BUILD succeeds. -/
theorem witness_ClearAndBuild :
    (∃ t, built.phase = .ready ∧ exec .clear built = .next t ∧ t.phase = .counting) ∧
    (∃ t, exec .build oneCounted = .next t ∧ t.err = .ok) :=
  ⟨⟨_, by decide, rfl, by decide⟩, ⟨_, rfl, by decide⟩⟩
/-- Two sessions with the same counts, made in different orders. -/
theorem witness_SameCounts :
    let s := session tiny [.count 0, .count 1]
    let t := session tiny [.count 1, .count 0]
    s.Inv ∧ t.Inv ∧ s.resetState = .running ∧ t.resetState = .running ∧ s.cfg = t.cfg ∧ (∀ k, freqAt s k = freqAt t k) ∧
    s.phase = .counting ∧ t.phase = .counting ∧ s.nleaf ≠ 0 ∧
    (∃ u, exec .build s = .next u) ∧ (∃ v, exec .build t = .next v) := by
  refine ⟨⟨by decide, by decide, by decide, by decide, by decide⟩,
    ⟨by decide, by decide, by decide, by decide, by decide⟩, by decide, by decide, by decide, fun k => ?_, by decide,
    by decide, by decide, ⟨_, rfl⟩, ⟨_, rfl⟩⟩
  have h : (session tiny [.count 0, .count 1]).freq = (session tiny [.count 1, .count 0]).freq := by decide
  unfold freqAt
  rw [h]

theorem witness_Counting :
    built.Inv ∧ built.resetState = .running ∧ (∃ t, runCommands (.clear :: [3, 3].map .count) built = some t) ∧
    (∀ x ∈ [3, 3], x < built.cfg.nsym) ∧ [3, 3].length ≤ built.cfg.cntMax :=
  ⟨inv_built, by decide, ⟨_, rfl⟩, by decide, by decide⟩
/-- The session's own input, encoded again after other symbols. -/
theorem witness_Encoding :
    built.Inv ∧ built.resetState = .running ∧ built.phase = .ready ∧
    (∃ t, runCommands ([0, 1, 2, 2].map .enc) built = some t) ∧ ∀ k, [0, 1, 2, 2].count k = freqAt built k := by
  refine ⟨inv_built, by decide, by decide, ⟨_, rfl⟩, fun k => ?_⟩
  have h : built.freq = [(0, 1), (1, 1), (2, 2)] := by decide
  unfold freqAt
  rw [h]
  simp only [Table.get, List.count_cons, List.count_nil, beq_iff_eq]
  repeat' split
  all_goals omega
theorem witness_Decoding :
    encoded.Inv ∧ encoded.resetState = .running ∧ encoded.phase = .ready ∧ encoded.bsrd = 0 ∧
    ∃ ws t, decodeMany 4 encoded = some (ws, t) ∧ eos t = true :=
  ⟨inv_encoded, by decide, by decide, by decide, _, _, rfl, by decide⟩
/-- The stream "0" of a tree with the codes 01, 00 and 1: no sequence of codes is this stream. -/
theorem witness_Unparsable_cut :
    let s := { encoded with bslen := 1 }
    s.Inv ∧ s.resetState = .running ∧ s.phase = .ready ∧ s.bsrd = 0 ∧
    ¬ ∃ ys : List Nat, (∀ y ∈ ys, 0 < freqAt s y) ∧ (ys.map (codeAt s)).flatten = streamBits s 0 s.bslen := by
  refine ⟨⟨by decide, by decide, by decide, by decide, by decide⟩, by decide, by decide, by decide, ?_⟩
  rintro ⟨ys, hf, hs⟩
  rw [show streamBits { encoded with bslen := 1 } 0 1 = [false] from by decide] at hs
  match ys with
  | [] => simp at hs
  | y :: ys =>
    have hy := hf y (by simp)
    have h3 : y < 3 := by
      by_contra h
      rw [freqAt, show encoded.freq = [(0, 1), (1, 1), (2, 2)] from by decide] at hy
      simp only [Table.get] at hy
      repeat' split at hy
      all_goals omega
    have h0 : codeAt { encoded with bslen := 1 } 0 = [false, true] := by decide
    have h1 : codeAt { encoded with bslen := 1 } 1 = [false, false] := by decide
    have h2 : codeAt { encoded with bslen := 1 } 2 = [true] := by decide
    obtain rfl | rfl | rfl : y = 0 ∨ y = 1 ∨ y = 2 := by omega
    · simp [h0] at hs
    · simp [h1] at hs
    · simp [h2] at hs
/-- The stream "01" of a one-leaf tree, whose only code is 0. -/
theorem witness_Unparsable_oneLeaf :
    let s := { one with bs := [(0, 2)], bslen := 2 }
    s.Inv ∧ s.resetState = .running ∧ s.phase = .ready ∧ s.bsrd = 0 ∧ s.nleaf = 1 ∧
    ¬ ∃ ys : List Nat, (∀ y ∈ ys, 0 < freqAt s y) ∧ (ys.map (codeAt s)).flatten = streamBits s 0 s.bslen := by
  refine ⟨⟨by decide, by decide, by decide, by decide, by decide⟩, by decide, by decide, by decide, by decide, ?_⟩
  rintro ⟨ys, hf, hs⟩
  rw [show streamBits { one with bs := [(0, 2)], bslen := 2 } 0 2 = [false, true] from by decide] at hs
  have hy : ∀ y ∈ ys, codeAt { one with bs := [(0, 2)], bslen := 2 } y = [false] := fun y hy => by
    have h := hf y hy
    have h0 : y = 0 := by
      by_contra hn
      rw [freqAt, show one.freq = [(0, 1)] from by decide] at h
      simp only [Table.get] at h
      repeat' split at h
      all_goals omega
    subst h0
    decide
  rw [List.map_congr_left hy] at hs
  have ht : true ∈ (ys.map fun _ => [false]).flatten := by rw [hs]; decide
  simp at ht
theorem witness_RoundTrip :
    (State.resetOf four).Inv ∧ (State.resetOf four).resetState = .running ∧
    ∃ u, runCommands (.clear :: [2, 0, 2].map .count ++ .build :: [2, 0, 2].map .enc ++ [.rewind]) (State.resetOf four) =
      some u :=
  ⟨inv_reset_four, by decide, _, rfl⟩
/-- The stream "0": a proper prefix of symbol 0's code "01". -/
theorem witness_CutCode :
    let s := { encoded with bslen := 1 }
    s.Inv ∧ s.resetState = .running ∧ s.phase = .ready ∧ 0 < freqAt s 0 ∧ s.bsrd < s.bslen ∧
    s.bslen - s.bsrd < (codeAt s 0).length ∧
    streamBits s s.bsrd (s.bslen - s.bsrd) = (codeAt s 0).take (s.bslen - s.bsrd) :=
  ⟨⟨by decide, by decide, by decide, by decide, by decide⟩, by decide, by decide, by decide, by decide, by decide, by decide⟩

theorem witness_OwnFields : ∃ t, exec .dec encoded = .next t := ⟨_, rfl⟩
theorem witness_Poll :
    (withHost [.poll] initialising).Inv ∧ initialising.resetState ≠ .asserted ∧ (withHost [.poll] initialising).host = [.poll] :=
  ⟨⟨by decide, by decide, by decide, by decide, by decide⟩, by decide, by decide⟩
/-- The end of a run, and a run that has performed its last statement but not ended. -/
theorem witness_EndOfRun :
    built.Inv ∧ built.Ended ∧ initialising.Inv ∧ initialising.host = [] ∧ busy initialising = true :=
  ⟨inv_built, by decide, inv_initialising, by decide, by decide⟩
/-- Commands of each shape: without operand, with A, with A and ARG. -/
theorem witness_Mnemonic_shapes :
    ∀ i ∈ [Instr.nop, .clear, .dec, .count (2 ^ 24 - 1), .enc 0, .rdcode 2, .wrbs 1],
      let s := withHost (expand four i 3 ++ [.poll]) built
      s.Inv ∧ s.resetState = .running ∧ busy s = false ∧ i.wf = true ∧ s.host = expand s.cfg i 3 ++ [.poll] := by
  intro i hi
  have hb := inv_built
  refine ⟨⟨hb.legal, hb.memory, hb.stream, hb.running, hb.reset⟩, rfl, rfl, ?_, rfl⟩
  revert i
  decide
theorem witness_Mnemonic :
    let s := withHost (expand four .setbs 3) built
    s.Inv ∧ s.resetState = .running ∧ busy s = false ∧ Instr.setbs.wf = true ∧ s.host = expand s.cfg .setbs 3 ++ [] :=
  ⟨⟨by decide, by decide, by decide, by decide, by decide⟩, by decide, by decide, by decide, by decide⟩

end Sys2Proof.Tests
end

section
/-! ## STATUS: its bits, and what a step can do to OVR and PHASE (10_state.md R27 to R32)

The lemmas the statements about STATUS share: the bits of the STATUS word, and one inversion lemma each for a command, the
host, the engine and the step, in terms of OVR and PHASE only. -/

namespace Sys2Proof.Machine

open Sys2Proof

variable {s t : State} {i : Instr} {st : HostStmt}

/-! ### The bits of the STATUS word -/

theorem statusWord_getLsbD_busy (s : State) : (statusWord s).getLsbD 0 = busy s := by
  simp only [statusWord, BitVec.getLsbD_append]
  simp

theorem statusWord_getLsbD_phase (s : State) : (statusWord s).getLsbD 1 = s.phase.bit := by
  simp only [statusWord, BitVec.getLsbD_append]
  simp

theorem statusWord_getLsbD_eos (s : State) : (statusWord s).getLsbD 2 = eos s := by
  simp only [statusWord, BitVec.getLsbD_append]
  simp

theorem statusWord_getLsbD_ovr (s : State) : (statusWord s).getLsbD 3 = s.ovr := by
  simp only [statusWord, BitVec.getLsbD_append]
  simp

/-- Bits 7:4 stand between the flags and ERR. -/
theorem statusWord_getLsbD_reserved {j : Nat} (h4 : 4 ≤ j) (h8 : j < 8) : (statusWord s).getLsbD j = false := by
  simp only [statusWord, BitVec.getLsbD_append, BitVec.getLsbD_zero]
  rw [if_neg (by omega), if_neg (by omega), if_neg (by omega), if_neg (by omega), if_pos (by omega)]

/-- Bits 31:12 stand above ERR. -/
theorem statusWord_getLsbD_of_ge {j : Nat} (h : 12 ≤ j) : (statusWord s).getLsbD j = false := by
  simp only [statusWord, BitVec.getLsbD_append, BitVec.getLsbD_zero]
  rw [if_neg (by omega), if_neg (by omega), if_neg (by omega), if_neg (by omega), if_neg (by omega), if_neg (by omega)]

theorem Phase.bit_eq_decide (p : Phase) : p.bit = decide (p = .ready) := by
  cases p <;> rfl

theorem statusWord_resetOf (c : Config) : statusWord (State.resetOf c) = 0x00000004 := by
  have h : statusWord (State.resetOf c) = statusWord State.reset := rfl
  rw [h]
  decide

/-- Only the offsets of CMD and ARG take a write. -/
theorem writeAt_of_ne {off : Nat} (size : Size) (v : Word) (s : State) (hcmd : off ≠ 0x0C) (harg : off ≠ 0x10) :
    writeAt off size v s = s := by
  rcases writeAt_cases off size v s with h | ⟨-, -, h⟩ | ⟨-, -, h, -⟩ | ⟨-, -, h, -⟩
  · exact h
  · exact absurd h harg
  · exact absurd h hcmd
  · exact absurd h hcmd

/-! ### What a step can do to OVR and PHASE -/

/-- PHASE and OVR of `t` are those of `s`. -/
abbrev SameFlags (s t : State) : Prop := t.phase = s.phase ∧ t.ovr = s.ovr

/-- Every command but CLEAR and BUILD leaves PHASE and OVR alone, whether it succeeds or raises an error. -/
theorem exec_sameFlags (hclear : i ≠ .clear) (hbuild : i ≠ .build) (h : exec i s = .next t) : SameFlags s t := by
  cases i with
  | clear => exact absurd rfl hclear
  | build => exact absurd rfl hbuild
  | nop => obtain rfl := execNop_cases h; exact ⟨rfl, rfl⟩
  | count a => obtain ⟨rfl, -⟩ | ⟨rfl, -⟩ | ⟨rfl, -⟩ | ⟨rfl, -⟩ := execCount_cases h <;> exact ⟨rfl, rfl⟩
  | enc a => obtain ⟨rfl, -⟩ | ⟨rfl, -⟩ | ⟨rfl, -⟩ | ⟨rfl, -⟩ | ⟨rfl, -⟩ := execEnc_cases h <;> exact ⟨rfl, rfl⟩
  | dec =>
    obtain ⟨rfl, -⟩ | rfl | rfl | ⟨rfl, -⟩ | ⟨rfl, -⟩ | ⟨v, p, rfl, -⟩ := execDec_cases h <;> exact ⟨rfl, rfl⟩
  | rdfreq a => obtain ⟨rfl, -⟩ | ⟨rfl, -⟩ := execRdfreq_cases h <;> exact ⟨rfl, rfl⟩
  | rdcode a => obtain ⟨rfl, -⟩ | ⟨rfl, -⟩ | ⟨rfl, -⟩ | ⟨rfl, -⟩ := execRdcode_cases h <;> exact ⟨rfl, rfl⟩
  | rdnode n => obtain ⟨rfl, -⟩ | ⟨rfl, -⟩ | ⟨rfl, -⟩ := execRdnode_cases h <;> exact ⟨rfl, rfl⟩
  | wrbs j => obtain ⟨rfl, -⟩ | ⟨rfl, -⟩ := execWrbs_cases h <;> exact ⟨rfl, rfl⟩
  | rdbs j => obtain ⟨rfl, -⟩ | ⟨rfl, -⟩ := execRdbs_cases h <;> exact ⟨rfl, rfl⟩
  | setbs => obtain ⟨rfl, -⟩ | ⟨rfl, -⟩ := execSetbs_cases h <;> exact ⟨rfl, rfl⟩
  | rewind => obtain rfl := execRewind_cases h; exact ⟨rfl, rfl⟩

/-- Of the commands, only CLEAR and a successful BUILD write PHASE or OVR. -/
theorem exec_flags_cases (h : exec i s = .next t) :
    (i = .clear ∧ t = complete .ok (clearSession s)) ∨ (i = .build ∧ t = complete .ok (buildTables s)) ∨
    SameFlags s t := by
  by_cases hclear : i = .clear
  · subst hclear
    exact .inl ⟨rfl, execClear_cases h⟩
  by_cases hbuild : i = .build
  · subst hbuild
    rcases execBuild_cases h with ⟨rfl, -⟩ | ⟨rfl, -⟩ | ⟨ht, -⟩
    · exact .inr (.inr ⟨rfl, rfl⟩)
    · exact .inr (.inr ⟨rfl, rfl⟩)
    · exact .inr (.inl ⟨rfl, ht⟩)
  · exact .inr (.inr (exec_sameFlags hclear hbuild h))

/-- The engine changes PHASE or OVR only by completing a CLEAR or a successful BUILD. -/
theorem engineStep_flags_cases (h : engineStep s = .next t) :
    (decode (latchedWord s) = .ok .clear ∧ t = complete .ok (clearSession s)) ∨
    (decode (latchedWord s) = .ok .build ∧ t = complete .ok (buildTables s)) ∨ SameFlags s t := by
  rcases engineStep_cases h with ⟨-, rfl⟩ | ⟨-, ⟨i, hi, hx⟩ | ⟨e, -, rfl⟩⟩
  · exact .inr (.inr ⟨rfl, rfl⟩)
  · rcases exec_flags_cases hx with ⟨rfl, ht⟩ | ⟨rfl, ht⟩ | hs
    · exact .inl ⟨hi, ht⟩
    · exact .inr (.inl ⟨hi, ht⟩)
    · exact .inr (.inr hs)
  · exact .inr (.inr ⟨rfl, rfl⟩)

/-- The host statement is a word write to CMD that the block drops (70_reset_and_hazards.md R210). -/
def DroppedCmdWrite (s : State) (st : HostStmt) : Prop :=
  busy s = true ∧ ∃ w, st = .write (s.cfg.base + 0x0C) .word w

theorem addr_of_windowOffset {c : Config} {addr off : Nat} (h : windowOffset c addr = some off) :
    addr = c.base + off := by
  unfold windowOffset at h
  split at h
  · cases h; omega
  · cases h

/-- A write of the window keeps PHASE, and keeps OVR or is a word write to CMD that is dropped. -/
theorem writeAt_flags_cases (off : Nat) (size : Size) (v : Word) (s : State) :
    SameFlags s (writeAt off size v s) ∨
    (size = .word ∧ off = 0x0C ∧ busy s = true ∧ writeAt off size v s = { s with ovr := true }) := by
  rcases writeAt_cases off size v s with h | ⟨h, -⟩ | ⟨h, hsize, hoff, hbusy⟩ | ⟨h, -⟩
  · exact .inl (by rw [h]; exact ⟨rfl, rfl⟩)
  · exact .inl (by rw [h]; exact ⟨rfl, rfl⟩)
  · exact .inr ⟨hsize, hoff, hbusy, h⟩
  · exact .inl (by rw [h]; exact ⟨rfl, rfl⟩)

/-- The host changes PHASE or OVR only by asserting reset or by a CMD write that is dropped. -/
theorem hostStep_flags_cases (h : hostStep st s = .next t) :
    (st = .assertReset ∧ t = assertReset (nextStmt s)) ∨
    (DroppedCmdWrite s st ∧ t.phase = s.phase ∧ t.ovr = true) ∨ SameFlags s t := by
  rcases hostStep_cases h with ⟨hst, ht⟩ | ⟨-, rfl⟩ | ⟨-, ⟨_, _, _, -, -, rfl⟩ |
    ⟨addr, size, v, off, rfl, hoff, rfl⟩ | ⟨-, -, rfl⟩ | ⟨-, -, rfl⟩⟩
  · exact .inl ⟨hst, ht⟩
  · exact .inr (.inr (by simp [SameFlags]))
  · exact .inr (.inr ⟨rfl, rfl⟩)
  · rcases writeAt_flags_cases off size v (nextStmt (tick s)) with hs | ⟨rfl, rfl, hbusy, hw⟩
    · exact .inr (.inr hs)
    · rw [addr_of_windowOffset hoff, hw]
      exact .inr (.inl ⟨⟨hbusy, v, rfl⟩, rfl, rfl⟩)
  · exact .inr (.inr ⟨rfl, rfl⟩)
  · exact .inr (.inr ⟨rfl, rfl⟩)

/-- A step changes PHASE or OVR only as R29 and R31 say: by reset, by CLEAR, by a successful BUILD, or by dropping a CMD
write. -/
theorem step_flags_cases (h : step s = .next t) :
    (turn s = .host .assertReset ∧ t = assertReset (nextStmt s)) ∨
    (turn s = .engine ∧ decode (latchedWord s) = .ok .clear ∧ t = complete .ok (clearSession s)) ∨
    (turn s = .engine ∧ decode (latchedWord s) = .ok .build ∧ t = complete .ok (buildTables s)) ∨
    (∃ st, turn s = .host st ∧ DroppedCmdWrite s st ∧ t.phase = s.phase ∧ t.ovr = true) ∨ SameFlags s t := by
  obtain ⟨-, ⟨hturn, he⟩ | ⟨st, hturn, hh⟩ | ⟨-, rfl⟩⟩ := step_cases h
  · rcases engineStep_flags_cases he with ⟨hd, ht⟩ | ⟨hd, ht⟩ | hs
    · exact .inr (.inl ⟨hturn, hd, ht⟩)
    · exact .inr (.inr (.inl ⟨hturn, hd, ht⟩))
    · exact .inr (.inr (.inr (.inr hs)))
  · rcases hostStep_flags_cases hh with ⟨rfl, ht⟩ | ⟨hdrop, hphase, hovr⟩ | hs
    · exact .inl ⟨hturn, ht⟩
    · exact .inr (.inr (.inr (.inl ⟨st, hturn, hdrop, hphase, hovr⟩)))
    · exact .inr (.inr (.inr (.inr hs)))
  · exact .inr (.inr (.inr (.inr ⟨rfl, rfl⟩)))

/-- A host write in the window that is answered does what writeAt does (20_memory.md R61). -/
theorem hostStep_write_next {off : Nat} {size : Size} {v : Word} (hoff : off < 0x40)
    (h : hostStep (.write (s.cfg.base + off) size v) s = .next t) : t = writeAt off size v (nextStmt (tick s)) := by
  by_cases hr : s.resetState = .asserted
  · simp [hostStep, hr] at h
  · simp only [hostStep, if_neg hr, hostWrite, windowOffset_base _ hoff] at h
    cases h; rfl

theorem writeCmd_of_busy {w : Word} (hbusy : busy s = true) : writeCmd w s = { s with ovr := true } := if_pos hbusy

/-- A word write to CMD that the block answers while BUSY = 1 leaves OVR set (70_reset_and_hazards.md R210). -/
theorem hostStep_writeCmd_ovr {w : Word} (hbusy : busy s = true)
    (h : hostStep (.write (s.cfg.base + 0x0C) .word w) s = .next t) : t.ovr = true := by
  rw [hostStep_write_next (by decide) h]
  exact congrArg State.ovr (writeCmd_of_busy hbusy : writeCmd w (nextStmt (tick s)) = _)

end Sys2Proof.Machine
end

section
/-! ## The statements about the fields of STATUS (10_state.md R27, R29, R31) -/

namespace Sys2Proof.Machine

open Sys2Proof

/-- Settles O26: each bit of the STATUS word from its lemma, and no write at its offsets reaches CMD or ARG. -/
theorem statusFields : Obligations.StatusFields := by
  intro s
  refine ⟨statusWord_getLsbD_busy s, ?_, statusWord_getLsbD_eos s, statusWord_getLsbD_ovr s,
    fun _ => statusWord_getLsbD_reserved, statusWord_err s, fun _ => statusWord_getLsbD_of_ge, statusWord_resetOf,
    fun off size v hlo _ => writeAt_of_ne size v s (by omega) (by omega)⟩
  rw [statusWord_getLsbD_phase, Phase.bit_eq_decide]

/-- Settles O33: of the ways a step can change OVR, only a dropped CMD write sets it, and only reset and CLEAR clear it. -/
theorem ovrIsSticky : Obligations.OvrIsSticky := by
  intro s t h
  refine ⟨fun h0 h1 => ?_, fun w hbusy hturn => ?_, fun h1 h0 => ?_⟩
  · rcases step_flags_cases h with ⟨-, rfl⟩ | ⟨-, -, rfl⟩ | ⟨-, -, rfl⟩ | ⟨st, hturn, ⟨hbusy, w, rfl⟩, -⟩ | ⟨-, hovr⟩
    · simp at h1
    · simp at h1
    · simp [h0] at h1
    · exact ⟨hbusy, w, hturn⟩
    · simp [hovr, h0] at h1
  · rw [step_of_host (step_cases h).1 hturn] at h
    exact hostStep_writeCmd_ovr hbusy h
  · rcases step_flags_cases h with ⟨hturn, -⟩ | ⟨hturn, hclear, rfl⟩ | ⟨-, -, rfl⟩ | ⟨_, -, -, -, hovr⟩ | ⟨-, hovr⟩
    · exact .inl hturn
    · exact .inr ⟨hturn, hclear, rfl⟩
    · simp [h1] at h0
    · simp [hovr] at h0
    · simp [hovr, h1] at h0

/-- Settles O34: of the ways a step can change PHASE, only a successful BUILD makes it READY, and only reset and CLEAR make it
COUNTING. -/
theorem onlyBuildAndClearWritePhase : Obligations.OnlyBuildAndClearWritePhase := by
  refine ⟨fun s t h => ⟨fun h0 h1 => ?_, fun h1 h0 => ?_⟩, fun s t h herr => ?_, fun s t h => ?_, assertReset_phase⟩
  · rcases step_flags_cases h with ⟨-, rfl⟩ | ⟨-, -, rfl⟩ | ⟨hturn, hbuild, rfl⟩ | ⟨_, -, -, hphase, -⟩ | ⟨hphase, -⟩
    · simp at h1
    · simp at h1
    · exact ⟨hturn, hbuild, rfl⟩
    · simp [hphase, h0] at h1
    · simp [hphase, h0] at h1
  · rcases step_flags_cases h with ⟨hturn, -⟩ | ⟨hturn, hclear, -⟩ | ⟨-, -, rfl⟩ | ⟨_, -, -, hphase, -⟩ | ⟨hphase, -⟩
    · exact .inl hturn
    · exact .inr ⟨hturn, hclear⟩
    · simp at h0
    · simp [hphase, h1] at h0
    · simp [hphase, h1] at h0
  · obtain ⟨rfl, -⟩ | ⟨rfl, -⟩ | ⟨rfl, -⟩ := execBuild_cases h
    · simp at herr
    · simp at herr
    · rfl
  · rw [execClear_cases h]; rfl

end Sys2Proof.Machine
end

section
/-! ## The words that are no command (30_encoding.md R81, R83, R84)

The opcode map has three kinds of rows: reserved opcodes, format N and format A. One lemma for each says what it answers. -/

namespace Sys2Proof.Machine

open Sys2Proof

variable {op a : Nat} {s : State}

/-! ### The rows of the opcode map -/

theorem formatN_error_iff (op a : Nat) (i : Instr) : (∃ e, formatN op a i = .error e) ↔ a ≠ 0 := by
  unfold formatN
  split <;> simp [*]

theorem decodeFields_of_reserved (h : 0x0D ≤ op) : decodeFields op a = .error (.reservedOpcode op) := by
  obtain ⟨n, rfl⟩ := Nat.exists_eq_add_of_le' h
  rfl

/-- The opcodes of the format-N rows (30_encoding.md R83). -/
abbrev FormatNOpcode (op : Nat) : Prop := op ∈ [0x00, 0x01, 0x03, 0x05, 0x0B, 0x0C]

theorem decodeFields_of_formatN (h : FormatNOpcode op) : ∃ i, decodeFields op a = formatN op a i := by
  simp only [FormatNOpcode, List.mem_cons, List.not_mem_nil, or_false] at h
  rcases h with rfl | rfl | rfl | rfl | rfl | rfl <;> exact ⟨_, rfl⟩

/-- Below the reserved opcodes, a row that is not of format N is of format A, which accepts every operand. -/
theorem decodeFields_of_formatA (hlt : op < 0x0D) (h : ¬ FormatNOpcode op) : ∃ i, decodeFields op a = .ok i := by
  have hop : op = 0x02 ∨ op = 0x04 ∨ op = 0x06 ∨ op = 0x07 ∨ op = 0x08 ∨ op = 0x09 ∨ op = 0x0A := by
    simp only [FormatNOpcode, List.mem_cons, List.not_mem_nil, or_false] at h
    omega
  rcases hop with rfl | rfl | rfl | rfl | rfl | rfl | rfl <;> exact ⟨_, rfl⟩

theorem decodeFields_error_iff (op a : Nat) :
    (∃ e, decodeFields op a = .error e) ↔ 0x0D ≤ op ∨ (FormatNOpcode op ∧ a ≠ 0) := by
  by_cases hres : 0x0D ≤ op
  · simp [decodeFields_of_reserved hres, hres]
  by_cases hN : FormatNOpcode op
  · obtain ⟨i, hi⟩ := decodeFields_of_formatN (a := a) hN
    rw [hi, formatN_error_iff]
    simp only [hres, hN, false_or, true_and]
  · obtain ⟨i, hi⟩ := decodeFields_of_formatA (a := a) (Nat.lt_of_not_le hres) hN
    simp [hi, hres, hN]

/-! ### What the engine does with the latched word -/

theorem runLatched_of_decode_error {e : DecodeError} (h : decode (latchedWord s) = .error e) :
    runLatched s = .next (complete .illegalCommand s) := by
  rw [runLatched, h]
  exact raise_eq _ _

/-- Taking an error writes what the statements say of it (60_exceptions.md R181). -/
theorem complete_eq_afterError (e : Err) (s : State) : complete e s = s.afterError e := rfl

/-- Settles O3: each kind of row says when it rejects, and a rejected word's run takes the error. -/
theorem reservedWordsRaiseIllegalCommand : Obligations.ReservedWordsRaiseIllegalCommand := by
  refine ⟨fun w => ?_, fun s e he => ?_⟩
  · have ha : (aField w).toNat ≠ 0 ↔ aField w ≠ 0 := BitVec.toNat_ne_iff_ne (y := 0)
    rw [decode, decodeFields_error_iff, ha]
  · rw [runLatched_of_decode_error he, complete_eq_afterError]

end Sys2Proof.Machine
end

section
/-! ## Session control: NOP and CLEAR (40_session_control.md R100, R101)

What the engine does with a latched word of a format-N row, for every such row, and the state CLEAR leaves. -/

namespace Sys2Proof.Machine

open Sys2Proof

variable {s t : State} {i : Instr} {op : BitVec 8}

/-! ### The rows of format N -/

theorem decode_latchedWord (s : State) : decode (latchedWord s) = decodeFields s.lcmd.op.toNat s.lcmd.a.toNat := by
  simp [decode, latchedWord]

theorem runLatched_of_decode_ok (h : decode (latchedWord s) = .ok i) : runLatched s = exec i s := by
  rw [runLatched, h]

/-- An opcode whose row of the map is of format N runs its command exactly when A = 0 (30_encoding.md R81). -/
theorem runsFormatN_of_row (hrow : ∀ a, decodeFields op.toNat a = formatN op.toNat a i) (s : State) :
    RunsFormatN op i s := by
  rintro rfl
  have hdecode : decode (latchedWord s) = formatN s.lcmd.op.toNat s.lcmd.a.toNat i := by rw [decode_latchedWord, hrow]
  by_cases ha : s.lcmd.a = 0
  · rw [if_pos ha, runLatched_of_decode_ok (by rw [hdecode, ha]; rfl)]
  · have hne : s.lcmd.a.toNat ≠ 0 := BitVec.toNat_ne_iff_ne (y := 0) |>.mpr ha
    obtain ⟨e, he⟩ := (formatN_error_iff s.lcmd.op.toNat s.lcmd.a.toNat i).mpr hne
    rw [if_neg ha, runLatched_of_decode_error (hdecode.trans he), complete_eq_afterError]

/-! ### NOP and CLEAR -/

theorem exec_nop (s : State) : exec .nop s = .next (complete .ok s) := rfl

theorem exec_clear (s : State) : exec .clear s = .next (complete .ok (clearSession s)) := rfl

/-- After CLEAR every entry of the four tables reads as its value after reset. -/
theorem tables_clearSession (s : State) (k : Nat) :
    freqAt (clearSession s) k = 0 ∧ codeAt (clearSession s) k = [] ∧ nodeAt (clearSession s) k = Node.zero ∧
      bsWord (clearSession s) k = 0 := ⟨rfl, rfl, rfl, rfl⟩

/-- What CLEAR commits is the reset state but for ARG, the empty latch's other fields and the model's own fields
(40_session_control.md R101). -/
theorem complete_clearSession_eq_resetOf (s : State) :
    complete .ok (clearSession s) = { State.resetOf s.cfg with
      arg := s.arg, lcmd := { s.lcmd with valid := false }, resetState := s.resetState, host := s.host,
      busData := s.busData, busyFor := s.busyFor, issued := s.issued } := rfl

theorem eos_clearSession (s : State) : eos (clearSession s) = true := by simp [eos]

/-- A command that leaves READY is CLEAR: BUILD enters it, and no other command writes PHASE. -/
theorem eq_clear_of_leaves_ready (hready : s.phase = .ready) (h : exec i s = .next t) (hcounting : t.phase = .counting) :
    i = .clear := by
  rcases exec_flags_cases h with ⟨hi, -⟩ | ⟨-, rfl⟩ | ⟨hphase, -⟩
  · exact hi
  · simp at hcounting
  · simp [hphase, hready] at hcounting

/-- Settles O7: NOP commits the state as it stands, and its row is of format N. -/
theorem nopOnlyClearsErr : Obligations.NopOnlyClearsErr := fun s =>
  ⟨exec_nop s, runsFormatN_of_row (fun _ => rfl) s⟩

/-- Settles O8: CLEAR commits the cleared session, which is the reset state but for ARG and the model's own fields. -/
theorem clearStartsANewSession : Obligations.ClearStartsANewSession := by
  refine fun s => ⟨⟨_, exec_clear s, tables_clearSession s, ?_⟩, fun i t => eq_clear_of_leaves_ready,
    runsFormatN_of_row (fun _ => rfl) s⟩
  exact ⟨rfl, rfl, rfl, rfl, rfl, rfl, rfl, rfl, rfl, rfl, rfl, eos_clearSession s, complete_clearSession_eq_resetOf s⟩

end Sys2Proof.Machine
end

section
/-! ## RDFREQ (41_frequency_counter.md R112)

What the engine does with a latched word of a format-A row, for every such row, and the two answers of RDFREQ. -/

namespace Sys2Proof.Machine

open Sys2Proof

variable {s : State} {a : Nat}

/-- An opcode whose row of the map is of format A runs its command on the latched operand (30_encoding.md R81). -/
theorem runsFormatA_of_row {op : BitVec 8} {i : Nat → Instr} (hrow : ∀ a, decodeFields op.toNat a = .ok (i a))
    (s : State) : RunsFormatA op i s := by
  rintro rfl
  exact runLatched_of_decode_ok (by rw [decode_latchedWord, hrow])

theorem isSymbol_of_lt (h : a < s.cfg.nsym) : isSymbol s a = true := decide_eq_true h

theorem isSymbol_of_le (h : s.cfg.nsym ≤ a) : isSymbol s a = false := decide_eq_false (Nat.not_lt.mpr h)

/-- The range check is RDFREQ's only one: no phase is asked for. -/
theorem exec_rdfreq_of_lt (h : a < s.cfg.nsym) :
    exec (.rdfreq a) s = .next (complete .ok { s with result0 := zext32 (freqAt s a) }) := by
  rw [exec, execRdfreq, isSymbol_of_lt h]
  exact finish_eq _

theorem exec_rdfreq_of_le (h : s.cfg.nsym ≤ a) : exec (.rdfreq a) s = .next (s.afterError .range) := by
  rw [exec, execRdfreq, isSymbol_of_le h, ← complete_eq_afterError]
  exact raise_eq _ _

/-- Settles O10: the range check decides between the read and the error, and the row of RDFREQ is of format A. -/
theorem rdfreqReadsOneCount : Obligations.RdfreqReadsOneCount := fun s _ =>
  ⟨exec_rdfreq_of_lt, exec_rdfreq_of_le, runsFormatA_of_row (fun _ => rfl) s⟩

end Sys2Proof.Machine
end

section
/-! ## The merge engine (42_tree_builder.md R121, R123)

The loop's list holds the priority collection: it has no index twice, and its members are the nodes made so far that no
node made so far has as a child. From that each merge takes the two least keys, and a later merge does not touch the
nodes an earlier one speaks of. -/

namespace Sys2Proof.Machine

open Sys2Proof

variable {t u : Table Node} {n i j next : Nat} {q q' : List Nat}

/-! ### The key order of the collection -/

/-- The key `(NODE[i].freq, i)` in its lexicographic order (R121). -/
def nodeKey (t : Table Node) (i : Nat) : ℕ ×ₗ ℕ := toLex ((nodeGet t i).freq, i)

theorem nodeKey_lt_iff : nodeKey t i < nodeKey t j ↔
    (nodeGet t i).freq < (nodeGet t j).freq ∨ ((nodeGet t i).freq = (nodeGet t j).freq ∧ i < j) :=
  Prod.Lex.toLex_lt_toLex

theorem keyLt_iff : keyLt t i j = true ↔ nodeKey t i < nodeKey t j := by rw [keyLt, decide_eq_true_iff, nodeKey_lt_iff]

theorem before_iff (s : State) (x y : Nat) : Before s x y ↔ nodeKey s.node x < nodeKey s.node y := nodeKey_lt_iff.symm

/-- The index is part of the key, so two nodes never share one (R123). -/
theorem nodeKey_injective (t : Table Node) : Function.Injective (nodeKey t) := fun _ _ h =>
  congrArg (fun k => (ofLex k).2) h

theorem nodeKey_congr (h : nodeGet u i = nodeGet t i) : nodeKey u i = nodeKey t i := by rw [nodeKey, nodeKey, h]

/-! ### Removing the least member -/

theorem least_mem (t : Table Node) (x : Nat) (q : List Nat) : least t x q ∈ x :: q := by
  induction q generalizing x with
  | nil => exact List.mem_singleton_self x
  | cons y q ih =>
    rw [least]
    split
    · exact List.mem_cons_of_mem x (ih y)
    · exact ((q.sublist_cons_self y).cons_cons x).mem (ih x)

theorem nodeKey_least_le (t : Table Node) (x : Nat) (q : List Nat) :
    ∀ j ∈ x :: q, nodeKey t (least t x q) ≤ nodeKey t j := by
  induction q generalizing x with
  | nil => simp [least]
  | cons y q ih =>
    rw [least]
    simp only [keyLt_iff, List.forall_mem_cons] at ih ⊢
    split
    · next hlt => exact ⟨(ih y).1.trans hlt.le, ih y⟩
    · next hge => exact ⟨(ih x).1, (ih x).1.trans (not_lt.mp hge), (ih x).2⟩

/-- What is removed is a member with the least key, and the rest stays (R121). -/
theorem removeLeast_some {x : Nat} (h : removeLeast t q = some (x, q')) :
    x ∈ q ∧ q' = q.erase x ∧ ∀ j ∈ q, j ≠ x → nodeKey t x < nodeKey t j := by
  cases q with
  | nil => cases h
  | cons a q =>
    cases h
    exact ⟨least_mem t a q, rfl, fun j hj hne =>
      (nodeKey_least_le t a q j hj).lt_of_ne fun heq => hne (nodeKey_injective t heq).symm⟩

/-! ### The collection and its merges -/

/-- `Available` on a table: of the nodes below `i`, the leaves being those below `n`, node `j` has no parent. -/
def InCollection (t : Table Node) (n i j : Nat) : Prop :=
  j < i ∧ ∀ p, n ≤ p → p < i → (nodeGet t p).left ≠ j ∧ (nodeGet t p).right ≠ j

theorem available_iff (s : State) (i j : Nat) : Available s i j ↔ InCollection s.node s.nleaf i j := Iff.rfl

/-- Node `i` merges the two members with the least keys of the collection it was made from (R121). -/
structure MergesTwoLeast (t : Table Node) (n i : Nat) : Prop where
  left_mem : InCollection t n i (nodeGet t i).left
  right_mem : InCollection t n i (nodeGet t i).right
  left_first : nodeKey t (nodeGet t i).left < nodeKey t (nodeGet t i).right
  right_next : ∀ j, InCollection t n i j → j ≠ (nodeGet t i).left → j ≠ (nodeGet t i).right →
    nodeKey t (nodeGet t i).right < nodeKey t j
  freq_eq : (nodeGet t i).freq = (nodeGet t (nodeGet t i).left).freq + (nodeGet t (nodeGet t i).right).freq

/-- The collection at node `i` depends only on the nodes below `i`. -/
theorem inCollection_congr (h : ∀ p < i, nodeGet u p = nodeGet t p) : InCollection u n i j ↔ InCollection t n i j :=
  and_congr_right fun _ => forall₂_congr fun p _ => forall_congr' fun hp => by rw [h p hp]

/-- The merge of node `i` depends only on the nodes up to `i`. -/
theorem MergesTwoLeast.congr (h : ∀ p ≤ i, nodeGet u p = nodeGet t p) (hm : MergesTwoLeast t n i) :
    MergesTwoLeast u n i := by
  have hcoll : ∀ j, InCollection u n i j ↔ InCollection t n i j := fun j => inCollection_congr fun p hp => h p hp.le
  have hkey : ∀ {j}, j < i → nodeKey u j = nodeKey t j := fun hj => nodeKey_congr (h _ hj.le)
  obtain ⟨hleft, hright, hfirst, hnext, hfreq⟩ := hm
  have hi := h i le_rfl
  constructor
  · rw [hi, hcoll]; exact hleft
  · rw [hi, hcoll]; exact hright
  · rw [hi, hkey hleft.1, hkey hright.1]; exact hfirst
  · intro j hj
    rw [hi, hkey hright.1, hkey hj.1]
    exact hnext j ((hcoll j).mp hj)
  · rw [hi, h _ hleft.1.le, h _ hright.1.le]; exact hfreq

/-! ### The loop's invariant -/

/-- Before node `next` is made, the list `q` holds the collection, and every internal node so far is a merge of the two
least. -/
structure Collects (t : Table Node) (n : Nat) (q : List Nat) (next : Nat) : Prop where
  sorted : (t.map Prod.fst).Pairwise (· < ·)
  leaves_le : n ≤ next
  nodup : q.Nodup
  mem_iff : ∀ j, j ∈ q ↔ InCollection t n next j
  merges : ∀ i, n ≤ i → i < next → MergesTwoLeast t n i

/-- The collection of the leaves, before any merge. -/
theorem collects_range (hs : (t.map Prod.fst).Pairwise (· < ·)) (n : Nat) : Collects t n (List.range n) n where
  sorted := hs
  leaves_le := le_rfl
  nodup := List.nodup_range
  mem_iff j := by
    rw [List.mem_range, InCollection, iff_self_and]
    intro _ p hn hp
    omega
  merges i hn hi := by omega

/-- The node that becomes the parent of `x` and `y` (R121). -/
def mergedNode (t : Table Node) (x y : Nat) : Node :=
  { leaf := false, sym := 0, left := x, right := y, freq := (nodeGet t x).freq + (nodeGet t y).freq }

/-- Once node `i` is written, the collection gains it and loses its two children. -/
theorem inCollection_succ (hn : n ≤ i) (hbelow : ∀ p, n ≤ p → p ≤ i → (nodeGet t p).left < i ∧ (nodeGet t p).right < i) :
    InCollection t n (i + 1) j ↔
      j = i ∨ (InCollection t n i j ∧ j ≠ (nodeGet t i).left ∧ j ≠ (nodeGet t i).right) := by
  constructor
  · rintro ⟨hj, hp⟩
    rcases Nat.lt_succ_iff_lt_or_eq.mp hj with hlt | heq
    · obtain ⟨hleft, hright⟩ := hp i hn i.lt_succ_self
      exact .inr ⟨⟨hlt, fun p hnp hpi => hp p hnp (by omega)⟩, hleft.symm, hright.symm⟩
    · exact .inl heq
  · rintro (rfl | ⟨⟨hj, hp⟩, hleft, hright⟩)
    · refine ⟨j.lt_succ_self, fun p hnp hpj => ?_⟩
      obtain ⟨hl, hr⟩ := hbelow p hnp (Nat.lt_succ_iff.mp hpj)
      exact ⟨hl.ne, hr.ne⟩
    · refine ⟨by omega, fun p hnp hpi => ?_⟩
      rcases Nat.lt_succ_iff_lt_or_eq.mp hpi with hlt | rfl
      · exact hp p hnp hlt
      · exact ⟨hleft.symm, hright.symm⟩

/-- The node written from the two members with the least keys is a merge of the two least. -/
theorem mergesTwoLeast_of_mergedNode {x y : Nat} (hmem : ∀ j, j ∈ q ↔ InCollection t n next j) (hx : x ∈ q) (hy : y ∈ q)
    (hyx : y ≠ x) (hxleast : ∀ j ∈ q, j ≠ x → nodeKey t x < nodeKey t j)
    (hyleast : ∀ j ∈ q, j ≠ x → j ≠ y → nodeKey t y < nodeKey t j)
    (hnew : nodeGet u next = mergedNode t x y) (hold : ∀ p < next, nodeGet u p = nodeGet t p) :
    MergesTwoLeast u n next := by
  have hcoll : ∀ j, InCollection u n next j ↔ j ∈ q := fun j => (inCollection_congr hold).trans (hmem j).symm
  have hget : ∀ {j}, j ∈ q → nodeGet u j = nodeGet t j := fun hj => hold _ ((hmem _).mp hj).1
  have hkey : ∀ {j}, j ∈ q → nodeKey u j = nodeKey t j := fun hj => nodeKey_congr (hget hj)
  constructor <;> simp only [hnew, mergedNode, hcoll]
  · exact hx
  · exact hy
  · rw [hkey hx, hkey hy]
    exact hxleast y hy hyx
  · intro j hj hjx hjy
    rw [hkey hy, hkey hj]
    exact hyleast j hj hjx hjy
  · rw [hget hx, hget hy]

/-- One merge keeps the invariant: its node is a merge of the two least, and the earlier ones are untouched. -/
theorem Collects.merge {x y : Nat} {q1 q2 : List Nat} (h : Collects t n q next)
    (hx : removeLeast t q = some (x, q1)) (hy : removeLeast t q1 = some (y, q2)) :
    Collects (nodeSet t next (mergedNode t x y)) n (next :: q2) (next + 1) := by
  obtain ⟨hsorted, hn, hnodup, hmem, hmerges⟩ := h
  obtain ⟨hxq, rfl, hxleast⟩ := removeLeast_some hx
  obtain ⟨hyq, rfl, hyleast⟩ := removeLeast_some hy
  simp only [hnodup.mem_erase_iff] at hyq hyleast
  have hsorted' : ((nodeSet t next (mergedNode t x y)).map Prod.fst).Pairwise (· < ·) := Table.sorted_set hsorted
  have hnew : nodeGet (nodeSet t next (mergedNode t x y)) next = mergedNode t x y := Table.get_set_same hsorted
  have hold : ∀ p < next, nodeGet (nodeSet t next (mergedNode t x y)) p = nodeGet t p := fun p hp =>
    Table.get_set_other hp.ne
  generalize nodeSet t next (mergedNode t x y) = u at hsorted' hnew hold ⊢
  have hmerges' : ∀ i, n ≤ i → i < next + 1 → MergesTwoLeast u n i := by
    intro i hni hi
    rcases Nat.lt_succ_iff_lt_or_eq.mp hi with hlt | rfl
    · exact (hmerges i hni hlt).congr fun p hp => hold p (by omega)
    · exact mergesTwoLeast_of_mergedNode hmem hxq hyq.2 hyq.1 hxleast
        (fun j hj hjx hjy => hyleast j ⟨hjx, hj⟩ hjy) hnew hold
  refine ⟨hsorted', by omega, ?_, fun j => ?_, hmerges'⟩
  · refine List.nodup_cons.mpr ⟨fun hmem' => ?_, (hnodup.erase x).erase y⟩
    exact Nat.lt_irrefl next ((hmem next).mp (List.mem_of_mem_erase (List.mem_of_mem_erase hmem'))).1
  · have hbelow : ∀ p, n ≤ p → p ≤ next → (nodeGet u p).left < next ∧ (nodeGet u p).right < next := fun p hnp hp =>
      have hm := hmerges' p hnp (by omega)
      ⟨hm.left_mem.1.trans_le hp, hm.right_mem.1.trans_le hp⟩
    rw [inCollection_succ hn hbelow, inCollection_congr hold, ← hmem, hnew, List.mem_cons,
      (hnodup.erase x).mem_erase_iff, hnodup.mem_erase_iff, mergedNode]
    tauto

/-- The loop ends with the invariant at the node after the last one written. -/
theorem collects_mergeLoop (fuel : Nat) (h : Collects t n q next) (hnext : 1 ≤ next) :
    ∃ q', Collects (mergeLoop fuel t q next).1 n q' ((mergeLoop fuel t q next).2 + 1) := by
  have hend : Collects t n q (next - 1 + 1) := by rwa [Nat.sub_add_cancel hnext]
  induction fuel generalizing t q next with
  | zero => exact ⟨q, hend⟩
  | succ fuel ih =>
    rw [mergeLoop]
    split
    · exact ⟨q, hend⟩
    · next x q1 hx =>
      split
      · exact ⟨q, hend⟩
      · next y q2 hy => exact ih (h.merge hx hy) (by omega) (h.merge hx hy)

/-! ### The tree BUILD makes -/

theorem sorted_writeLeaves {freq : Table Nat} (ks : List Nat) (hs : (t.map Prod.fst).Pairwise (· < ·)) :
    ((writeLeaves freq t j ks).map Prod.fst).Pairwise (· < ·) := by
  induction ks generalizing t j with
  | nil => exact hs
  | cons k ks ih => exact ih (Table.sorted_set hs)

/-- TreeBuild of two leaves or more ends with the invariant at the node after its root. -/
theorem collects_treeBuild {c : Config} {freq : Table Nat} (hs : (t.map Prod.fst).Pairwise (· < ·)) (hn : 2 ≤ n) :
    ∃ q, Collects (treeBuild c freq n t).1 n q ((treeBuild c freq n t).2 + 1) := by
  rw [treeBuild, if_neg (by omega)]
  exact collects_mergeLoop (n - 1) (collects_range (sorted_writeLeaves _ hs) n) (by omega)

/-- In READY every internal node up to the root is a merge of the two least. -/
theorem mergesTwoLeast_of_ready {s : State} (hinv : s.Inv) (hrun : s.resetState = .running) (hready : s.phase = .ready)
    (hn : 2 ≤ s.nleaf) (hni : s.nleaf ≤ i) (hi : i ≤ s.root) : MergesTwoLeast s.node s.nleaf i := by
  obtain ⟨-, hbuilt, -⟩ := (hinv.running hrun).2.2 hready
  obtain ⟨q, h⟩ := collects_treeBuild (c := s.cfg) (freq := s.freq) (t := []) List.Pairwise.nil hn
  rw [← hbuilt] at h
  exact h.merges i hni (Nat.lt_succ_of_le hi)

/-- Settles O43: the tree of READY is TreeBuild's, whose loop keeps the collection in its list. -/
theorem mergesTakeTheTwoLeast : Obligations.MergesTakeTheTwoLeast := by
  intro s hinv hrun hready hn i hni hi
  obtain ⟨hleft, hright, hfirst, hnext, hfreq⟩ := mergesTwoLeast_of_ready hinv hrun hready hn hni hi
  simp only [available_iff, before_iff]
  exact ⟨hleft, hright, hfirst, hnext, hfreq⟩

end Sys2Proof.Machine
end

section
/-! ## RDNODE (42_tree_builder.md R125)

The three answers of RDNODE, by phase and then by index. -/

namespace Sys2Proof.Machine

open Sys2Proof

variable {s : State} {i : Nat}

theorem isNodeIndex_of_lt (h : i < 2 * s.nleaf - 1) : isNodeIndex s i = true := decide_eq_true h

theorem isNodeIndex_of_le (h : 2 * s.nleaf - 1 ≤ i) : isNodeIndex s i = false := decide_eq_false (Nat.not_lt.mpr h)

theorem exec_rdnode_of_not_ready (hphase : s.phase ≠ .ready) : exec (.rdnode i) s = .next (s.afterError .sequence) := by
  rw [exec, execRdnode, if_pos hphase, ← complete_eq_afterError]
  exact raise_eq _ _

theorem exec_rdnode_of_le (hphase : s.phase = .ready) (h : 2 * s.nleaf - 1 ≤ i) :
    exec (.rdnode i) s = .next (s.afterError .range) := by
  rw [exec, execRdnode, if_neg (not_not_intro hphase), isNodeIndex_of_le h, ← complete_eq_afterError]
  exact raise_eq _ _

theorem exec_rdnode_of_lt (hphase : s.phase = .ready) (h : i < 2 * s.nleaf - 1) :
    exec (.rdnode i) s = .next (complete .ok { s with
      result0 := nodeHead (nodeAt s i)
      result1 := zext32 (nodeAt s i).right
      result2 := zext32 (nodeAt s i).freq }) := by
  rw [exec, execRdnode, if_neg (not_not_intro hphase), isNodeIndex_of_lt h]
  exact finish_eq _

/-- Settles O12: the phase, then the range check, decide between the read and the two errors, and the row of RDNODE is of
format A. -/
theorem rdnodeReadsOneNode : Obligations.RdnodeReadsOneNode := fun s _ =>
  ⟨exec_rdnode_of_lt, exec_rdnode_of_not_ready, exec_rdnode_of_le, runsFormatA_of_row (fun _ => rfl) s⟩

end Sys2Proof.Machine
end

section
/-! ## RDCODE (43_code_assigner.md R143)

One word of a code, bit by bit, and the answers of RDCODE by phase, then by operand, then by whether there is a code. -/

namespace Sys2Proof.Machine

open Sys2Proof

variable {s : State} {a : Nat}

/-- Bit `j` of word `k` is code bit `32k + j`, or 0 beyond the code (R143). -/
theorem getLsbD_codeWord (c : Code) (k : Nat) {j : Nat} (hj : j < 32) :
    (codeWord c k).getLsbD j = if 32 * k + j < c.length then c.getD (32 * k + j) false else false := by
  rw [codeWord, getLsbD_wordOfBits _ _ _ le_rfl, decide_eq_true hj, Bool.true_and]
  split
  · rfl
  · next h => exact List.getD_eq_default _ _ (Nat.not_lt.mp h)

theorem exec_rdcode_of_not_ready (hphase : s.phase ≠ .ready) : exec (.rdcode a) s = .next (s.afterError .sequence) := by
  rw [exec, execRdcode, if_pos hphase, ← complete_eq_afterError]
  exact raise_eq _ _

/-- Both range checks raise Range, so their order does not show. -/
theorem exec_rdcode_of_not_inRange (hphase : s.phase = .ready)
    (h : s.cfg.nsym ≤ a ∨ s.cfg.codeWords ≤ s.lcmd.arg.toNat) : exec (.rdcode a) s = .next (s.afterError .range) := by
  rw [exec, execRdcode, if_neg (not_not_intro hphase), ← complete_eq_afterError]
  by_cases ha : a < s.cfg.nsym
  · have hk : isCodeWord s (latchedArg s).toNat = false := decide_eq_false (Nat.not_lt.mpr (h.resolve_left ha.not_ge))
    rw [isSymbol_of_lt ha, hk]
    exact raise_eq _ _
  · rw [isSymbol_of_le (Nat.not_lt.mp ha)]
    exact raise_eq _ _

/-- With its operands in range, RDCODE asks only whether the symbol has a code. -/
theorem exec_rdcode_of_inRange (hphase : s.phase = .ready) (ha : a < s.cfg.nsym)
    (hk : s.lcmd.arg.toNat < s.cfg.codeWords) :
    exec (.rdcode a) s =
      if (codeAt s a).length = 0 then .next (s.afterError .unknownSymbol)
      else .next (complete .ok { s with
        result0 := codeWord (codeAt s a) s.lcmd.arg.toNat
        result1 := zext32 (codeAt s a).length }) := by
  have hk' : isCodeWord s (latchedArg s).toNat = true := decide_eq_true hk
  rw [exec, execRdcode, if_neg (not_not_intro hphase), isSymbol_of_lt ha, hk']
  rfl

/-- Settles O13: the checks decide, in their order, between the read and the errors; the word read is the code's, bit by
bit; and the row of RDCODE is of format A. -/
theorem rdcodeReadsOneCodeWord : Obligations.RdcodeReadsOneCodeWord := fun s _ =>
  ⟨fun hphase ha hk hlen =>
      ⟨_, (exec_rdcode_of_inRange hphase ha hk).trans (if_neg hlen), fun _ => getLsbD_codeWord _ _, rfl⟩,
    exec_rdcode_of_not_ready, exec_rdcode_of_not_inRange,
    fun hphase ha hk hlen => (exec_rdcode_of_inRange hphase ha hk).trans (if_pos hlen),
    runsFormatA_of_row (fun _ => rfl) s⟩

end Sys2Proof.Machine
end

section
/-! ## The finished tree (42_tree_builder.md R121, R122)

With n leaves the merge loop makes all its n - 1 merges, so it ends with one node in the collection: the root. The
leaves keep what was written there, every later node is internal, and every node but the root has a parent. -/

namespace Sys2Proof.Machine

open Sys2Proof

variable {t : Table Node} {freq : Table Nat} {ks q : List Nat} {i j k next root : Nat}

/-! ### The leaves -/

/-- The leaf of a symbol (R121). -/
def leafNode (freq : Table Nat) (k : Nat) : Node :=
  { leaf := true, sym := k, left := 0, right := 0, freq := Table.get 0 freq k }

theorem nodeGet_writeLeaves_of_lt (ks : List Nat) (h : i < j) : nodeGet (writeLeaves freq t j ks) i = nodeGet t i := by
  induction ks generalizing t j with
  | nil => rfl
  | cons k ks ih => exact (ih (Nat.lt_succ_of_lt h)).trans (Table.get_set_other h.ne)

/-- The `i`-th symbol of the list has its leaf `i` nodes after the first. -/
theorem nodeGet_writeLeaves (hs : (t.map Prod.fst).Pairwise (· < ·)) (h : ks[i]? = some k) :
    nodeGet (writeLeaves freq t j ks) (j + i) = leafNode freq k := by
  induction ks generalizing t j i with
  | nil => cases h
  | cons k' ks ih =>
    cases i with
    | zero =>
      obtain rfl : k' = k := Option.some.inj h
      exact (nodeGet_writeLeaves_of_lt ks j.lt_succ_self).trans (Table.get_set_same hs)
    | succ i =>
      rw [show j + (i + 1) = j + 1 + i by omega]
      exact ih (Table.sorted_set hs) h

/-! ### The merge loop, to its end -/

theorem removeLeast_of_length {m : Nat} (h : q.length = m + 1) :
    ∃ x q', removeLeast t q = some (x, q') ∧ q'.length = m := by
  cases q with
  | nil => cases h
  | cons a q => exact ⟨_, _, rfl, by rw [List.length_erase_of_mem (least_mem t a q), h, Nat.add_sub_cancel]⟩

/-- What every merge keeps holds when the loop has made as many merges as its collection allows: one member is left. -/
theorem mergeLoop_induction {P : Table Node → List Nat → Nat → Prop}
    (hmerge : ∀ {t q next x q1 y q2}, P t q next → removeLeast t q = some (x, q1) → removeLeast t q1 = some (y, q2) →
      P (nodeSet t next (mergedNode t x y)) (next :: q2) (next + 1))
    (fuel : Nat) (h : P t q next) (hq : q.length = fuel + 1) (hnext : 1 ≤ next) :
    (mergeLoop fuel t q next).2 + 1 = next + fuel ∧
      ∃ r, P (mergeLoop fuel t q next).1 [r] ((mergeLoop fuel t q next).2 + 1) := by
  induction fuel generalizing t q next with
  | zero =>
    obtain ⟨r, rfl⟩ := List.length_eq_one_iff.mp hq
    have hlast : next - 1 + 1 = next := Nat.sub_add_cancel hnext
    exact ⟨hlast, r, hlast.symm ▸ h⟩
  | succ fuel ih =>
    obtain ⟨x, q1, hx, hq1⟩ := removeLeast_of_length (t := t) hq
    obtain ⟨y, q2, hy, hq2⟩ := removeLeast_of_length (t := t) hq1
    have hstep : mergeLoop (fuel + 1) t q next =
        mergeLoop fuel (nodeSet t next (mergedNode t x y)) (next :: q2) (next + 1) := by
      simp only [mergeLoop, hx, hy, mergedNode]
    rw [hstep, show next + (fuel + 1) = next + 1 + fuel by omega]
    exact ih (hmerge h hx hy) (by rw [List.length_cons, hq2]) (by omega)

/-- Before node `next` is made from the leaves of `ks`: the list `q` holds the collection, the leaves stand first, and
the nodes after them are internal. -/
structure GrowsFrom (freq : Table Nat) (ks : List Nat) (t : Table Node) (q : List Nat) (next : Nat) : Prop where
  collects : Collects t ks.length q next
  leaf : ∀ {i k}, ks[i]? = some k → nodeGet t i = leafNode freq k
  internal : ∀ {i}, ks.length ≤ i → i < next → (nodeGet t i).leaf = false

theorem growsFrom_writeLeaves (freq : Table Nat) (ks : List Nat) :
    GrowsFrom freq ks (writeLeaves freq [] 0 ks) (List.range ks.length) ks.length where
  collects := collects_range (sorted_writeLeaves ks List.Pairwise.nil) ks.length
  leaf h := by simpa using nodeGet_writeLeaves (freq := freq) (t := []) (j := 0) List.Pairwise.nil h
  internal hge hlt := absurd hlt hge.not_gt

theorem GrowsFrom.merge {x y : Nat} {q1 q2 : List Nat} (h : GrowsFrom freq ks t q next)
    (hx : removeLeast t q = some (x, q1)) (hy : removeLeast t q1 = some (y, q2)) :
    GrowsFrom freq ks (nodeSet t next (mergedNode t x y)) (next :: q2) (next + 1) where
  collects := h.collects.merge hx hy
  leaf {i k} hk := by
    have hi : i < next := (List.getElem?_eq_some_iff.mp hk).1.trans_le h.collects.leaves_le
    exact (Table.get_set_other hi.ne).trans (h.leaf hk)
  internal {i} hge hlt := by
    rw [nodeGet_nodeSet h.collects.sorted]
    split
    · rfl
    · exact h.internal hge (by omega)

theorem GrowsFrom.leaf_of_lt (h : GrowsFrom freq ks t q next) (hi : i < ks.length) : (nodeGet t i).leaf = true := by
  rw [h.leaf (List.getElem?_eq_getElem hi)]
  rfl

/-- Below `next`, the leaves are the first nodes. -/
theorem GrowsFrom.leaf_iff (h : GrowsFrom freq ks t q next) (hi : i < next) :
    (nodeGet t i).leaf = true ↔ i < ks.length := by
  refine ⟨fun hleaf => ?_, h.leaf_of_lt⟩
  by_contra hge
  rw [h.internal (Nat.not_lt.mp hge) hi] at hleaf
  cases hleaf

/-- The children of an internal node are older than it. -/
theorem GrowsFrom.child_lt (h : GrowsFrom freq ks t q next) (hge : ks.length ≤ i) (hi : i < next) (b : Bool) :
    child (nodeGet t i) b < i := by
  obtain ⟨hleft, hright, -⟩ := h.collects.merges i hge hi
  cases b
  · exact hright.1
  · exact hleft.1

/-- When one member is left it is the last node, since no node has that one as a child. -/
theorem GrowsFrom.root_eq {r : Nat} (h : GrowsFrom freq ks t [r] (root + 1)) : root = r := by
  rw [← List.mem_singleton, h.collects.mem_iff]
  refine ⟨root.lt_succ_self, fun p hge hp => ?_⟩
  have hleft : (nodeGet t p).left < p := h.child_lt hge hp true
  have hright : (nodeGet t p).right < p := h.child_lt hge hp false
  omega

/-! ### The finished tree -/

/-- TreeBuild of two present symbols or more makes `2n - 1` nodes, of which the last is the one member left. -/
theorem growsFrom_treeBuild (c : Config) (freq : Table Nat) (hn : 2 ≤ (presentSymbols c freq).length) :
    (treeBuild c freq (presentSymbols c freq).length []).2 + 2 = 2 * (presentSymbols c freq).length ∧
      GrowsFrom freq (presentSymbols c freq) (treeBuild c freq (presentSymbols c freq).length []).1
        [(treeBuild c freq (presentSymbols c freq).length []).2]
        ((treeBuild c freq (presentSymbols c freq).length []).2 + 1) := by
  rw [treeBuild, if_neg (by omega)]
  obtain ⟨hroot, r, hgrows⟩ := mergeLoop_induction (P := GrowsFrom freq (presentSymbols c freq)) GrowsFrom.merge
    ((presentSymbols c freq).length - 1) (growsFrom_writeLeaves freq (presentSymbols c freq))
    (by rw [List.length_range]; omega) (by omega)
  have hlast := hgrows.root_eq
  exact ⟨by omega, hlast ▸ hgrows⟩

/-- Every node of the finished tree but the root is the child of an internal node (R122). -/
theorem GrowsFrom.exists_parent (h : GrowsFrom freq ks t [root] (root + 1)) (hj : j < root) :
    ∃ p b, ks.length ≤ p ∧ p ≤ root ∧ child (nodeGet t p) b = j := by
  have hout : ¬ InCollection t ks.length (root + 1) j := by
    rw [← h.collects.mem_iff, List.mem_singleton]
    exact hj.ne
  by_contra hno
  exact hout ⟨by omega, fun p hge hp => ⟨fun heq => hno ⟨p, true, hge, Nat.lt_succ_iff.mp hp, heq⟩,
    fun heq => hno ⟨p, false, hge, Nat.lt_succ_iff.mp hp, heq⟩⟩⟩

end Sys2Proof.Machine
end

section
/-! ## The code assigner (43_code_assigner.md R140, R141)

A leaf path is a bit sequence that leads through internal nodes to the leaf of a symbol. The walk writes a leaf path for
each symbol that has one within its depth, and no other code; in the finished tree the symbols with a leaf path from the
root are the counted ones, and none is longer than n - 1, since the indices fall along it. -/

namespace Sys2Proof.Machine

open Sys2Proof

variable {t : Table Node} {freq : Table Nat} {codes : Table Code} {ks : List Nat} {p : Code} {b : Bool}
  {k root v : Nat}

/-- From node `v` the bits `p` lead through internal nodes only to the leaf of symbol `k` (R140). -/
structure LeafPath (t : Table Node) (v : Nat) (p : Code) (k : Nat) : Prop where
  leaf : (nodeGet t (follow t v p)).leaf = true
  sym : (nodeGet t (follow t v p)).sym = k
  internal : ∀ m, m < p.length → (nodeGet t (follow t v (p.take m))).leaf = false

theorem leafPath_nil_iff : LeafPath t v [] k ↔ (nodeGet t v).leaf = true ∧ (nodeGet t v).sym = k :=
  ⟨fun ⟨hleaf, hsym, _⟩ => ⟨hleaf, hsym⟩, fun ⟨hleaf, hsym⟩ => ⟨hleaf, hsym, fun _ hm => absurd hm (Nat.not_lt_zero _)⟩⟩

theorem leafPath_cons_iff :
    LeafPath t v (b :: p) k ↔ (nodeGet t v).leaf = false ∧ LeafPath t (child (nodeGet t v) b) p k := by
  constructor
  · rintro ⟨hleaf, hsym, hinternal⟩
    exact ⟨hinternal 0 (Nat.succ_pos _), hleaf, hsym, fun m hm => hinternal (m + 1) (Nat.succ_lt_succ hm)⟩
  · rintro ⟨hv, hleaf, hsym, hinternal⟩
    refine ⟨hleaf, hsym, fun m hm => ?_⟩
    cases m with
    | zero => exact hv
    | succ m => exact hinternal m (Nat.lt_of_succ_lt_succ hm)

/-! ### The walk -/

theorem sorted_assignFrom (fuel v : Nat) (path : Code) (hs : (codes.map Prod.fst).Pairwise (· < ·)) :
    ((assignFrom t fuel v path codes).map Prod.fst).Pairwise (· < ·) := by
  induction fuel generalizing v path codes with
  | zero => exact hs
  | succ fuel ih =>
    rw [assignFrom]
    split
    · exact Table.sorted_set hs
    · exact ih _ _ (ih _ _ hs)

/-- The walk from `v` gives symbol `k` the bits that led to `v` and then a leaf path from `v`, if there is one within
the depth; otherwise it leaves the symbol's entry alone. -/
theorem get_assignFrom (fuel v : Nat) (path : Code) (hs : (codes.map Prod.fst).Pairwise (· < ·)) :
    (∃ p, p.length < fuel ∧ LeafPath t v p k ∧ Table.get [] (assignFrom t fuel v path codes) k = path ++ p) ∨
    ((∀ p, p.length < fuel → ¬ LeafPath t v p k) ∧
      Table.get [] (assignFrom t fuel v path codes) k = Table.get [] codes k) := by
  induction fuel generalizing v path codes with
  | zero => exact .inr ⟨fun _ hp => absurd hp (Nat.not_lt_zero _), rfl⟩
  | succ fuel ih =>
    rw [assignFrom]
    split
    · next hleaf =>
      rw [Table.get_set hs]
      split
      · next hk => exact .inl ⟨[], Nat.succ_pos _, leafPath_nil_iff.mpr ⟨hleaf, hk.symm⟩, (List.append_nil _).symm⟩
      · next hk =>
        refine .inr ⟨fun p _ hp => ?_, rfl⟩
        cases p with
        | nil => exact hk (leafPath_nil_iff.mp hp).2.symm
        | cons b p => simp [leafPath_cons_iff, hleaf] at hp
    · next hleaf =>
      have hinternal : (nodeGet t v).leaf = false := Bool.eq_false_iff.mpr hleaf
      have hextend : ∀ {b p}, p.length < fuel → LeafPath t (child (nodeGet t v) b) p k →
          (b :: p).length < fuel + 1 ∧ LeafPath t v (b :: p) k := fun hlen hp =>
        ⟨Nat.succ_lt_succ hlen, leafPath_cons_iff.mpr ⟨hinternal, hp⟩⟩
      rcases ih (child (nodeGet t v) false) (path ++ [false])
        (sorted_assignFrom fuel (child (nodeGet t v) true) (path ++ [true]) hs) with
        ⟨p, hlen, hp, hget⟩ | ⟨hright, hget⟩
      · exact .inl ⟨false :: p, (hextend hlen hp).1, (hextend hlen hp).2, hget.trans (List.append_assoc _ _ _)⟩
      · rw [hget]
        rcases ih (child (nodeGet t v) true) (path ++ [true]) hs with ⟨p, hlen, hp, hget⟩ | ⟨hleft, hget⟩
        · exact .inl ⟨true :: p, (hextend hlen hp).1, (hextend hlen hp).2, hget.trans (List.append_assoc _ _ _)⟩
        · refine .inr ⟨fun p hlen hp => ?_, hget⟩
          cases p with
          | nil => exact hleaf (leafPath_nil_iff.mp hp).1
          | cons b p =>
            have htail := (leafPath_cons_iff.mp hp).2
            cases b
            · exact hright p (Nat.lt_of_succ_lt_succ hlen) htail
            · exact hleft p (Nat.lt_of_succ_lt_succ hlen) htail

/-! ### Leaf paths of the finished tree -/

/-- A leaf path ends at the leaf of a symbol of the list; the indices fall along it, so it has at most one bit for each
internal node up to its start (R141). -/
theorem GrowsFrom.mem_and_length_le {q : List Nat} {next : Nat} (h : GrowsFrom freq ks t q next) (hv : v < next)
    (hp : LeafPath t v p k) : k ∈ ks ∧ p.length ≤ v + 1 - ks.length := by
  induction p generalizing v with
  | nil =>
    obtain ⟨hleaf, hsym⟩ := leafPath_nil_iff.mp hp
    have hlt := (h.leaf_iff hv).mp hleaf
    rw [h.leaf (List.getElem?_eq_getElem hlt)] at hsym
    exact ⟨hsym ▸ List.getElem_mem hlt, Nat.zero_le _⟩
  | cons b p ih =>
    obtain ⟨hinternal, htail⟩ := leafPath_cons_iff.mp hp
    have hge : ks.length ≤ v := by
      by_contra hlt
      rw [h.leaf_of_lt (Nat.not_le.mp hlt)] at hinternal
      cases hinternal
    have hchild := h.child_lt hge hv b
    obtain ⟨hmem, hlen⟩ := ih (hchild.trans hv) htail
    exact ⟨hmem, by rw [List.length_cons]; omega⟩

/-- A leaf path from any node is the end of one from the root, through the node's parents. -/
theorem GrowsFrom.exists_leafPath_root (h : GrowsFrom freq ks t [root] (root + 1)) (hv : v ≤ root)
    (hp : LeafPath t v p k) : ∃ p', LeafPath t root p' k := by
  induction hd : root - v using Nat.strong_induction_on generalizing v p with
  | _ d ih =>
    rcases hv.eq_or_lt with rfl | hlt
    · exact ⟨p, hp⟩
    · obtain ⟨w, b, hge, hw, rfl⟩ := h.exists_parent hlt
      have hchild := h.child_lt hge (Nat.lt_succ_of_le hw) b
      exact ih (root - w) (by omega) hw (leafPath_cons_iff.mpr ⟨h.internal hge (Nat.lt_succ_of_le hw), hp⟩) rfl

/-- In the finished tree the symbols with a leaf path from the root are those of the list. -/
theorem GrowsFrom.exists_leafPath_iff (h : GrowsFrom freq ks t [root] (root + 1)) :
    (∃ p, LeafPath t root p k) ↔ k ∈ ks := by
  refine ⟨fun ⟨p, hp⟩ => (h.mem_and_length_le root.lt_succ_self hp).1, fun hk => ?_⟩
  obtain ⟨i, hi⟩ := List.mem_iff_getElem?.mp hk
  have hlt : i < root + 1 := (List.getElem?_eq_some_iff.mp hi).1.trans_le h.collects.leaves_le
  refine h.exists_leafPath_root (Nat.lt_succ_iff.mp hlt) (p := []) (leafPath_nil_iff.mpr ?_)
  rw [h.leaf hi]
  exact ⟨rfl, rfl⟩

/-! ### The codes of the two trees -/

/-- From two leaves on, CodeAssign gives each symbol of the list a leaf path from the root, and no other symbol a
code. -/
theorem GrowsFrom.get_codeAssign (h : GrowsFrom freq ks t [root] (root + 1)) (hn : 2 ≤ ks.length)
    (hroot : root + 2 = 2 * ks.length) (k : Nat) :
    (k ∈ ks → LeafPath t root (Table.get [] (codeAssign t ks.length root []) k) k) ∧
      (k ∉ ks → Table.get [] (codeAssign t ks.length root []) k = []) := by
  have hinternal : (nodeGet t root).leaf = false := h.internal (by omega) root.lt_succ_self
  rw [codeAssign, if_neg (Bool.eq_false_iff.mp hinternal)]
  rcases get_assignFrom (t := t) (k := k) (codes := []) ks.length root [] List.Pairwise.nil with
    ⟨p, -, hp, hget⟩ | ⟨hnone, hget⟩
  · rw [hget]
    exact ⟨fun _ => hp, fun hk => absurd (h.exists_leafPath_iff.mp ⟨p, hp⟩) hk⟩
  · refine ⟨fun hk => ?_, fun _ => hget⟩
    obtain ⟨p, hp⟩ := h.exists_leafPath_iff.mpr hk
    have hlen := (h.mem_and_length_le root.lt_succ_self hp).2
    exact absurd hp (hnone p (by omega))

/-- The one symbol of a one-leaf tree gets the code "0" (R140). -/
theorem get_codeAssign_oneLeaf {c : Config} {x : Nat} (hx : presentSymbols c freq = [x]) (k : Nat) :
    Table.get [] (codeAssign (treeBuild c freq 1 []).1 1 (treeBuild c freq 1 []).2 []) k =
      if k = x then [false] else [] := by
  have hleaf : nodeGet (treeBuild c freq 1 []).1 0 = leafNode freq x := by
    rw [treeBuild, if_pos rfl, hx]
    exact nodeGet_writeLeaves (i := 0) List.Pairwise.nil rfl
  have hroot : (treeBuild c freq 1 []).2 = 0 := by rw [treeBuild, if_pos rfl]
  rw [codeAssign, hroot, hleaf, leafNode, if_pos rfl]
  exact Table.get_set List.Pairwise.nil

variable {s : State}

theorem mem_presentSymbols_iff (hk : k < s.cfg.nsym) : k ∈ presentSymbols s.cfg s.freq ↔ 0 < freqAt s k :=
  mem_presentSymbols.trans (and_iff_right hk)

/-- In READY with two leaves or more the tree is finished and the code table is CodeAssign's. -/
theorem ready_tree (hinv : s.Inv) (hrun : s.resetState = .running) (hready : s.phase = .ready) (hn : 2 ≤ s.nleaf) :
    s.nleaf = (presentSymbols s.cfg s.freq).length ∧ s.root + 2 = 2 * s.nleaf ∧
      GrowsFrom s.freq (presentSymbols s.cfg s.freq) s.node [s.root] (s.root + 1) ∧
      s.code = codeAssign s.node s.nleaf s.root [] := by
  obtain ⟨⟨-, -, hnleaf⟩, -, hsession⟩ := hinv.running hrun
  obtain ⟨-, hbuilt, hcode⟩ := hsession hready
  obtain ⟨hroot, hgrows⟩ := growsFrom_treeBuild s.cfg s.freq (hnleaf ▸ hn)
  rw [← hnleaf, ← hbuilt] at hroot hgrows
  exact ⟨hnleaf, hroot, hgrows, hcode⟩

/-- In READY with one leaf the counted symbol has the code "0", and no other symbol has a code. -/
theorem codeAt_of_oneLeaf (hinv : s.Inv) (hrun : s.resetState = .running) (hready : s.phase = .ready) (hn : s.nleaf = 1)
    (hk : k < s.cfg.nsym) : codeAt s k = if 0 < freqAt s k then [false] else [] := by
  obtain ⟨⟨-, -, hnleaf⟩, -, hsession⟩ := hinv.running hrun
  obtain ⟨-, hbuilt, hcode⟩ := hsession hready
  obtain ⟨x, hx⟩ := List.length_eq_one_iff.mp (hnleaf.symm.trans hn)
  rw [hn] at hbuilt hcode
  have hget := get_codeAssign_oneLeaf hx k
  rw [← hbuilt, ← hcode] at hget
  exact hget.trans (if_congr (by rw [← mem_presentSymbols_iff hk, hx, List.mem_singleton]) rfl rfl)

/-- In READY with two leaves or more a counted symbol's code is a leaf path from the root, and no other symbol has a
code. -/
theorem codeAt_of_tree (hinv : s.Inv) (hrun : s.resetState = .running) (hready : s.phase = .ready) (hn : 2 ≤ s.nleaf)
    (hk : k < s.cfg.nsym) :
    (0 < freqAt s k → LeafPath s.node s.root (codeAt s k) k) ∧ (¬ 0 < freqAt s k → codeAt s k = []) := by
  obtain ⟨hnleaf, hroot, hgrows, hcode⟩ := ready_tree hinv hrun hready hn
  rw [codeAt, ← mem_presentSymbols_iff hk, hcode, hnleaf]
  exact hgrows.get_codeAssign (hnleaf ▸ hn) (hnleaf ▸ hroot) k

/-- A leaf path from the root of two leaves or more has 1 to NLEAF - 1 bits (R141). -/
theorem length_leafPath_of_tree (hinv : s.Inv) (hrun : s.resetState = .running) (hready : s.phase = .ready)
    (hn : 2 ≤ s.nleaf) (hp : LeafPath s.node s.root p k) : 1 ≤ p.length ∧ p.length ≤ s.nleaf - 1 := by
  obtain ⟨hnleaf, hroot, hgrows, -⟩ := ready_tree hinv hrun hready hn
  have hlen := (hgrows.mem_and_length_le s.root.lt_succ_self hp).2
  refine ⟨List.length_pos_iff.mpr fun hnil => ?_, by omega⟩
  subst hnil
  have hlt := (hgrows.leaf_iff s.root.lt_succ_self).mp (leafPath_nil_iff.mp hp).1
  omega

/-- Settles O46: the code table of READY is what the walk writes from the finished tree, and that is leaf paths. -/
theorem codeIsThePathToTheLeaf : Obligations.CodeIsThePathToTheLeaf := by
  intro s hinv hrun hready k hk
  have hn : s.nleaf = 1 ∨ 2 ≤ s.nleaf := by
    obtain ⟨-, -, hsession⟩ := hinv.running hrun
    obtain ⟨hpos, -⟩ := hsession hready
    omega
  rcases hn with hn | hn
  · have hcode := codeAt_of_oneLeaf hinv hrun hready hn hk
    exact ⟨fun h0 => hcode.trans (if_neg (by omega)), fun hpos _ => hcode.trans (if_pos hpos), fun _ h2 => by omega⟩
  · obtain ⟨hcounted, huncounted⟩ := codeAt_of_tree hinv hrun hready hn hk
    refine ⟨fun h0 => huncounted (by omega), fun _ h1 => by omega, fun hpos _ => ?_⟩
    have hpath := hcounted hpos
    obtain ⟨hge, hle⟩ := length_leafPath_of_tree hinv hrun hready hn hpath
    exact ⟨hge, hle, hpath.leaf, hpath.sym, hpath.internal⟩

end Sys2Proof.Machine
end

section
/-! ## The bitstream encoder (44_bitstream_encoder.md R150, R154, R156, R158, R160)

ENC's answers by phase, then by symbol, then by the code and the room for it, and the bits it appends; and the answers of
the four commands on the buffer's words and its two positions, which need no phase. -/

namespace Sys2Proof.Machine

open Sys2Proof

variable {s : State} {a j p : Nat}

/-! ### ENC -/

theorem exec_enc_of_not_ready (hphase : s.phase ≠ .ready) : exec (.enc a) s = .next (s.afterError .sequence) := by
  rw [exec, execEnc, if_pos hphase, ← complete_eq_afterError]
  exact raise_eq _ _

theorem exec_enc_of_le (hphase : s.phase = .ready) (h : s.cfg.nsym ≤ a) :
    exec (.enc a) s = .next (s.afterError .range) := by
  rw [exec, execEnc, if_neg (not_not_intro hphase), isSymbol_of_le h, ← complete_eq_afterError]
  exact raise_eq _ _

/-- With its symbol in range, ENC asks first whether the symbol has a code, then whether the code fits. -/
theorem exec_enc_of_lt (hphase : s.phase = .ready) (h : a < s.cfg.nsym) :
    exec (.enc a) s =
      if (codeAt s a).length = 0 then .next (s.afterError .unknownSymbol)
      else if s.cfg.bsCap < s.bslen + (codeAt s a).length then .next (s.afterError .bsOverflow)
      else .next (complete .ok (appendCode a s)) := by
  rw [exec, execEnc, if_neg (not_not_intro hphase), isSymbol_of_lt h]
  rfl

theorem exec_enc_of_fits (hphase : s.phase = .ready) (h : a < s.cfg.nsym) (hlen : (codeAt s a).length ≠ 0)
    (hfits : s.bslen + (codeAt s a).length ≤ s.cfg.bsCap) :
    exec (.enc a) s = .next (complete .ok (appendCode a s)) := by
  rw [exec_enc_of_lt hphase h, if_neg hlen, if_neg (Nat.not_lt.mpr hfits)]

/-- The appended stream has the code's bits from BSLEN on, and the old bits elsewhere. -/
theorem bsBit_appendCode (hwf : Memory.wf s) (a p : Nat) :
    bsBit (appendCode a s) p =
      if s.bslen ≤ p ∧ p < s.bslen + (codeAt s a).length then (codeAt s a).getD (p - s.bslen) false else bsBit s p := by
  obtain ⟨-, -, -, hsorted, -⟩ := hwf
  exact bitGet_writeBits hsorted s.bslen (codeAt s a) p

theorem bsBit_appendCode_of_lt (hwf : Memory.wf s) {k : Nat} (hk : k < (codeAt s a).length) :
    bsBit (appendCode a s) (s.bslen + k) = (codeAt s a).getD k false := by
  rw [bsBit_appendCode hwf, if_pos (by omega), Nat.add_sub_cancel_left]

theorem bsBit_appendCode_other (hwf : Memory.wf s) (hp : p < s.bslen ∨ s.bslen + (codeAt s a).length ≤ p) :
    bsBit (appendCode a s) p = bsBit s p := by
  rw [bsBit_appendCode hwf, if_neg (by omega)]

/-- A stream that has grown past BSRD has bits left to decode. -/
theorem eos_appendCode (hlen : (codeAt s a).length ≠ 0) (hbsrd : s.bsrd ≤ s.bslen) : eos (appendCode a s) = false := by
  rw [eos, appendCode_bsrd, appendCode_bslen]
  exact decide_eq_false (by omega)

/-- Settles O14: the checks decide, in their order, between the errors and appending the code; and the row of ENC is of
format A. -/
theorem encAppendsTheCode : Obligations.EncAppendsTheCode := fun s _ hwf =>
  ⟨fun hphase ha hlen hfits =>
      ⟨_, exec_enc_of_fits hphase ha hlen hfits, fun _ => bsBit_appendCode_of_lt hwf,
        fun _ => bsBit_appendCode_other hwf, eos_appendCode hlen, rfl⟩,
    exec_enc_of_not_ready, exec_enc_of_le,
    fun hphase ha hlen => (exec_enc_of_lt hphase ha).trans (if_pos hlen),
    fun hphase ha hlen hover => (exec_enc_of_lt hphase ha).trans ((if_neg hlen).trans (if_pos hover)),
    runsFormatA_of_row (fun _ => rfl) s⟩

/-! ### WRBS and RDBS -/

theorem isBsWord_of_lt (h : j < s.cfg.bsWords) : isBsWord s j = true := decide_eq_true h

theorem isBsWord_of_le (h : s.cfg.bsWords ≤ j) : isBsWord s j = false := decide_eq_false (Nat.not_lt.mpr h)

theorem exec_wrbs_of_lt (h : j < s.cfg.bsWords) :
    exec (.wrbs j) s = .next (complete .ok { s with bs := Table.set 0 s.bs j s.lcmd.arg }) := by
  rw [exec, execWrbs, isBsWord_of_lt h]
  exact finish_eq _

theorem exec_wrbs_of_le (h : s.cfg.bsWords ≤ j) : exec (.wrbs j) s = .next (s.afterError .range) := by
  rw [exec, execWrbs, isBsWord_of_le h, ← complete_eq_afterError]
  exact raise_eq _ _

/-- Settles O15: the word written is read back and every other word reads as before; and the row of WRBS is of format
A. -/
theorem wrbsWritesOneWord : Obligations.WrbsWritesOneWord := by
  intro s j hwf
  obtain ⟨-, -, -, hsorted, -⟩ := hwf
  exact ⟨fun hj => ⟨_, exec_wrbs_of_lt hj, Table.get_set_same hsorted, fun _ => Table.get_set_other, rfl⟩,
    exec_wrbs_of_le, runsFormatA_of_row (fun _ => rfl) s⟩

theorem exec_rdbs_of_lt (h : j < s.cfg.bsWords) :
    exec (.rdbs j) s = .next (complete .ok { s with result0 := bsWord s j }) := by
  rw [exec, execRdbs, isBsWord_of_lt h]
  exact finish_eq _

theorem exec_rdbs_of_le (h : s.cfg.bsWords ≤ j) : exec (.rdbs j) s = .next (s.afterError .range) := by
  rw [exec, execRdbs, isBsWord_of_le h, ← complete_eq_afterError]
  exact raise_eq _ _

theorem bsWord_resetOf (c : Config) (j : Nat) : bsWord (State.resetOf c) j = 0 := Table.get_nil j

theorem bsWord_of_exec_clear {t : State} (h : exec .clear s = .next t) (j : Nat) : bsWord t j = 0 := by
  obtain ⟨-, -, -, hword⟩ := tables_clearSession s j
  rw [execClear_cases h, bsWord_complete, hword]

/-- Settles O16: the range check decides between the read and the error, the buffer is empty after reset and CLEAR, and
the row of RDBS is of format A. -/
theorem rdbsReadsOneWord : Obligations.RdbsReadsOneWord := fun s j =>
  ⟨exec_rdbs_of_lt, exec_rdbs_of_le, fun c => bsWord_resetOf c j, fun _ h => bsWord_of_exec_clear h j,
    runsFormatA_of_row (fun _ => rfl) s⟩

/-! ### SETBS and REWIND -/

/-- A stream with BSRD at its start is at its end exactly when it is empty. -/
theorem eos_of_bsrd_eq_zero (h : s.bsrd = 0) : eos s = decide (s.bslen = 0) := by
  rw [eos, h]
  exact decide_eq_decide.mpr eq_comm

theorem exec_setbs_of_le (h : s.lcmd.arg.toNat ≤ s.cfg.bsCap) :
    exec .setbs s = .next (complete .ok { s with bslen := s.lcmd.arg.toNat, bsrd := 0 }) := by
  have hlength : isLength s (latchedArg s).toNat = true := decide_eq_true h
  rw [exec, execSetbs, hlength]
  exact finish_eq _

theorem exec_setbs_of_lt (h : s.cfg.bsCap < s.lcmd.arg.toNat) : exec .setbs s = .next (s.afterError .range) := by
  have hlength : isLength s (latchedArg s).toNat = false := decide_eq_false (Nat.not_le.mpr h)
  rw [exec, execSetbs, hlength, ← complete_eq_afterError]
  exact raise_eq _ _

/-- Settles O17: the range check decides between the new length and the error, and the row of SETBS is of format N. -/
theorem setbsSetsTheLength : Obligations.SetbsSetsTheLength := fun s =>
  ⟨fun h => ⟨_, exec_setbs_of_le h, eos_of_bsrd_eq_zero rfl, rfl⟩, exec_setbs_of_lt,
    runsFormatN_of_row (fun _ => rfl) s⟩

theorem exec_rewind (s : State) : exec .rewind s = .next (complete .ok { s with bsrd := 0 }) := rfl

/-- Settles O18: REWIND only moves BSRD back to the start, and its row is of format N. -/
theorem rewindRestartsDecoding : Obligations.RewindRestartsDecoding := fun s =>
  ⟨⟨_, exec_rewind s, eos_of_bsrd_eq_zero rfl, rfl⟩, runsFormatN_of_row (fun _ => rfl) s⟩

end Sys2Proof.Machine
end

section
/-! ## One path to each node of the finished tree (42_tree_builder.md R122)

Every node but the root has one parent, on one side, so the bits that lead to a node from the root are determined by the
node. A symbol has one leaf, so its code is the only leaf path to it. -/

namespace Sys2Proof.Machine

open Sys2Proof

variable {t : Table Node} {freq : Table Nat} {ks : List Nat} {p p' : Code} {i j k next root v w : Nat}

theorem follow_append (t : Table Node) (v : Nat) (p p' : Code) : follow t v (p ++ p') = follow t (follow t v p) p' := by
  induction p generalizing v with
  | nil => rfl
  | cons b p ih => exact ih _

/-- The bits `p` lead from node `v` through internal nodes; where they end is left open. -/
def InnerPath (t : Table Node) (v : Nat) (p : Code) : Prop :=
  ∀ m, m < p.length → (nodeGet t (follow t v (p.take m))).leaf = false

theorem innerPath_concat {b : Bool} (h : InnerPath t v (p ++ [b])) :
    InnerPath t v p ∧ (nodeGet t (follow t v p)).leaf = false := by
  constructor
  · intro m hm
    have := h m (by rw [List.length_append]; omega)
    rwa [List.take_append_of_le_length hm.le] at this
  · have := h p.length (by rw [List.length_append]; exact Nat.lt_succ_self _)
    rwa [List.take_left] at this

/-- An internal node is not one of the leaves. -/
theorem GrowsFrom.length_le_of_internal {q : List Nat} (h : GrowsFrom freq ks t q next)
    (hi : (nodeGet t i).leaf = false) : ks.length ≤ i := by
  by_contra hlt
  rw [h.leaf_of_lt (Nat.not_le.mp hlt)] at hi
  cases hi

/-- A child is in the collection its parent is made from, so no older node has it as a child. -/
theorem GrowsFrom.child_ne_of_lt {q : List Nat} (h : GrowsFrom freq ks t q next) (hv : ks.length ≤ v) (hvw : v < w)
    (hw : w < next) (b c : Bool) : child (nodeGet t v) b ≠ child (nodeGet t w) c := by
  obtain ⟨hleft, hright, -⟩ := h.collects.merges w (by omega) hw
  have hmem : InCollection t ks.length w (child (nodeGet t w) c) := by
    cases c
    · exact hright
    · exact hleft
  obtain ⟨hl, hr⟩ := hmem.2 v hv hvw
  cases b
  · exact hr
  · exact hl

/-- A node has one parent, and is its left or its right child but not both (R122). -/
theorem GrowsFrom.child_injective {q : List Nat} {b c : Bool} (h : GrowsFrom freq ks t q next) (hv : ks.length ≤ v)
    (hw : ks.length ≤ w) (hvn : v < next) (hwn : w < next) (heq : child (nodeGet t v) b = child (nodeGet t w) c) :
    v = w ∧ b = c := by
  rcases lt_trichotomy v w with hlt | rfl | hgt
  · exact absurd heq (h.child_ne_of_lt hv hlt hwn b c)
  · have hne : (nodeGet t v).left ≠ (nodeGet t v).right := fun h' =>
      (h.collects.merges v hv hvn).left_first.ne (congrArg (nodeKey t) h')
    refine ⟨rfl, ?_⟩
    cases b <;> cases c
    · rfl
    · exact absurd heq.symm hne
    · exact absurd heq hne
    · rfl
  · exact absurd heq.symm (h.child_ne_of_lt hw hgt hvn c b)

/-- The indices fall along a path through internal nodes. -/
theorem GrowsFrom.follow_add_length_le (h : GrowsFrom freq ks t [root] (root + 1)) (hp : InnerPath t root p) :
    follow t root p + p.length ≤ root := by
  induction p using List.reverseRecOn with
  | nil => exact le_rfl
  | append_singleton p b ih =>
    obtain ⟨hinner, hinternal⟩ := innerPath_concat hp
    have hle := ih hinner
    have hchild := h.child_lt (h.length_le_of_internal hinternal) (by omega) b
    simp only [follow_append, follow, List.length_append, List.length_singleton]
    omega

/-- Two paths from the root to the same node are the same bits. -/
theorem GrowsFrom.follow_injective (h : GrowsFrom freq ks t [root] (root + 1)) (hp : InnerPath t root p)
    (hp' : InnerPath t root p') (heq : follow t root p = follow t root p') : p = p' := by
  induction p using List.reverseRecOn generalizing p' with
  | nil =>
    have hle := h.follow_add_length_le hp'
    rw [← heq] at hle
    exact (List.length_eq_zero_iff.mp (by simpa [follow] using hle)).symm
  | append_singleton p b ih =>
    obtain ⟨hinner, hinternal⟩ := innerPath_concat hp
    rcases p'.eq_nil_or_concat' with rfl | ⟨p', c, rfl⟩
    · have hle := h.follow_add_length_le hp
      rw [heq, List.length_append] at hle
      simp [follow] at hle
    · obtain ⟨hinner', hinternal'⟩ := innerPath_concat hp'
      have hlt := h.follow_add_length_le hinner
      have hlt' := h.follow_add_length_le hinner'
      rw [follow_append, follow_append] at heq
      obtain ⟨hnode, rfl⟩ := h.child_injective (h.length_le_of_internal hinternal)
        (h.length_le_of_internal hinternal') (by omega) (by omega) heq
      rw [ih hinner hinner' hnode]

/-- In the finished tree of distinct symbols a symbol has one leaf, so it has one leaf path from the root. -/
theorem GrowsFrom.leafPath_unique (h : GrowsFrom freq ks t [root] (root + 1)) (hks : ks.Nodup)
    (hp : LeafPath t root p k) (hp' : LeafPath t root p' k) : p = p' := by
  have hindex : ∀ {p}, LeafPath t root p k → ks[follow t root p]? = some k := fun {p} hp => by
    have hlt := (h.leaf_iff (by have := h.follow_add_length_le hp.internal; omega)).mp hp.leaf
    have hget := List.getElem?_eq_getElem hlt
    have hsym := hp.sym
    rw [h.leaf hget] at hsym
    exact hget.trans (congrArg some hsym)
  refine h.follow_injective hp.internal hp'.internal ?_
  have hlt := (List.getElem?_eq_some_iff.mp (hindex hp)).1
  exact (List.getElem?_inj hlt hks).mp ((hindex hp).trans (hindex hp').symm)

variable {s : State}

theorem nodup_presentSymbols (c : Config) (freq : Table Nat) : (presentSymbols c freq).Nodup :=
  List.nodup_range.filter _

theorem lt_nsym_of_counted (hwf : Memory.wf s) (hk : 0 < freqAt s k) : k < s.cfg.nsym := by
  by_contra hge
  rw [freqAt, Table.get_of_ge hwf.1 (Nat.not_lt.mp hge)] at hk
  exact Nat.lt_irrefl 0 hk

/-- In READY with two leaves or more, the leaf paths from the root are the codes of the counted symbols. -/
theorem leafPath_iff_code (hinv : s.Inv) (hrun : s.resetState = .running) (hready : s.phase = .ready)
    (hn : 2 ≤ s.nleaf) : LeafPath s.node s.root p k ↔ 0 < freqAt s k ∧ codeAt s k = p := by
  obtain ⟨-, -, hgrows, -⟩ := ready_tree hinv hrun hready hn
  have hcode : 0 < freqAt s k → LeafPath s.node s.root (codeAt s k) k := fun hk =>
    (codeAt_of_tree hinv hrun hready hn (lt_nsym_of_counted hinv.memory hk)).1 hk
  constructor
  · intro hp
    have hk : 0 < freqAt s k := (mem_presentSymbols.mp (hgrows.exists_leafPath_iff.mp ⟨p, hp⟩)).2
    exact ⟨hk, hgrows.leafPath_unique (nodup_presentSymbols _ _) (hcode hk) hp⟩
  · rintro ⟨hk, rfl⟩
    exact hcode hk

/-- In READY a counted symbol's code has at least one bit. -/
theorem length_codeAt_pos (hinv : s.Inv) (hrun : s.resetState = .running) (hready : s.phase = .ready)
    (hk : 0 < freqAt s k) : 0 < (codeAt s k).length := by
  obtain ⟨hpos, -⟩ := (hinv.running hrun).2.2 hready
  rcases (show 1 ≤ s.nleaf from hpos).eq_or_lt with hn | hn
  · rw [codeAt_of_oneLeaf hinv hrun hready hn.symm (lt_nsym_of_counted hinv.memory hk), if_pos hk]
    exact Nat.one_pos
  · exact (length_leafPath_of_tree hinv hrun hready hn ((leafPath_iff_code hinv hrun hready hn).mpr ⟨hk, rfl⟩)).1

end Sys2Proof.Machine
end

section
/-! ## The bitstream decoder (45_bitstream_decoder.md R170, R171)

One DEC returns the counted symbol whose code begins the unread stream, and raises the error of its tree when there is
none. A run of DECs therefore parses the stream from BSRD on until it is exhausted or no code begins what is left. -/

namespace Sys2Proof.Machine

open Sys2Proof

variable {s t u : State} {c : Code} {k m n p v : Nat} {ys : List Nat}

/-! ### The stream -/

theorem streamBits_add (s : State) (p m n : Nat) :
    streamBits s p (m + n) = streamBits s p m ++ streamBits s (p + m) n := by
  simp [streamBits, List.range_add, Nat.add_assoc]

theorem streamBits_succ (s : State) (p n : Nat) : streamBits s p (n + 1) = bsBit s p :: streamBits s (p + 1) n := by
  rw [Nat.add_comm, streamBits_add]
  rfl

@[simp] theorem length_streamBits (s : State) (p n : Nat) : (streamBits s p n).length = n := by simp [streamBits]

theorem prefix_streamBits_iff : c <+: streamBits s p n ↔ c.length ≤ n ∧ streamBits s p c.length = c := by
  constructor
  · intro h
    have hle : c.length ≤ n := by simpa using h.length_le
    rw [← Nat.add_sub_of_le hle, streamBits_add] at h
    have hpre := List.prefix_of_prefix_length_le h (List.prefix_append _ _) (by simp)
    exact ⟨hle, (hpre.eq_of_length (by simp)).symm⟩
  · rintro ⟨hle, hc⟩
    rw [← Nat.add_sub_of_le hle, streamBits_add, hc]
    exact List.prefix_append _ _

/-- The stream bits from BSRD to BSLEN - 1, all that DEC may read (R170). -/
def unread (s : State) : List Bool := streamBits s s.bsrd (s.bslen - s.bsrd)

theorem unread_of_lt (h : s.bsrd < s.bslen) :
    unread s = bsBit s s.bsrd :: streamBits s (s.bsrd + 1) (s.bslen - s.bsrd - 1) := by
  rw [unread, show s.bslen - s.bsrd = s.bslen - s.bsrd - 1 + 1 by omega, streamBits_succ, Nat.add_sub_cancel]

/-! ### One DEC -/

/-- The walk of DEC from an internal node ends at the leaf of the one leaf path that begins the bits it may read, or
finds none and no leaf path begins them. -/
theorem decodeWalk_cases (hv : (nodeGet s.node v).leaf = false) :
    (∃ w m, m ≤ n ∧ decodeWalk s.node s.bs n p v = some (w, p + m) ∧
      LeafPath s.node v (streamBits s p m) (nodeAt s w).sym) ∨
    (decodeWalk s.node s.bs n p v = none ∧ ∀ c k, LeafPath s.node v c k → ¬ c <+: streamBits s p n) := by
  have hne : ∀ {k}, ¬ LeafPath s.node v [] k := fun h => by simp [leafPath_nil_iff, hv] at h
  induction n generalizing p v with
  | zero => exact .inr ⟨rfl, fun c k hc hpre => hne (List.prefix_nil.mp hpre ▸ hc)⟩
  | succ n ih =>
    have hstep : ∀ {c k}, LeafPath s.node (child (nodeGet s.node v) (bsBit s p)) c k →
        LeafPath s.node v (bsBit s p :: c) k := fun h => leafPath_cons_iff.mpr ⟨hv, h⟩
    rw [decodeWalk]
    split
    · next hleaf =>
      exact .inl ⟨_, 1, by omega, rfl, hstep (leafPath_nil_iff.mpr ⟨hleaf, rfl⟩)⟩
    · next hleaf =>
      have hinternal := Bool.eq_false_iff.mpr hleaf
      rcases ih (p := p + 1) hinternal (fun h => hleaf (leafPath_nil_iff.mp h).1) with
        ⟨w, m, hm, hwalk, hpath⟩ | ⟨hwalk, hnone⟩
      · refine .inl ⟨w, m + 1, Nat.succ_le_succ hm, ?_, streamBits_succ s p m ▸ hstep hpath⟩
        rw [Nat.add_comm m 1, ← Nat.add_assoc]
        exact hwalk
      · refine .inr ⟨hwalk, fun c k hc hpre => ?_⟩
        cases c with
        | nil => exact hne hc
        | cons b c =>
          rw [streamBits_succ, List.cons_prefix_cons] at hpre
          obtain ⟨rfl, hpre⟩ := hpre
          exact hnone c k (leafPath_cons_iff.mp hc).2 hpre

/-- The next code of the stream: a counted symbol whose code begins the unread bits. -/
def NextCode (s : State) (k : Nat) : Prop := 0 < freqAt s k ∧ codeAt s k <+: unread s

/-- The state after a DEC that returns symbol `k` (R170). -/
def decoded (k : Nat) (s : State) : State := complete .ok (emitSymbol k (codeAt s k).length s)

@[simp] theorem decoded_bsrd (k : Nat) (s : State) : (decoded k s).bsrd = s.bsrd + (codeAt s k).length := rfl
@[simp] theorem decoded_bslen (k : Nat) (s : State) : (decoded k s).bslen = s.bslen := rfl

/-- DEC of a tree with an internal root. -/
theorem exec_dec_of_tree (hinv : s.Inv) (hrun : s.resetState = .running) (hready : s.phase = .ready)
    (hn : 2 ≤ s.nleaf) (hbsrd : s.bsrd < s.bslen) :
    (∃ k, NextCode s k ∧ exec .dec s = .next (decoded k s)) ∨
    ((∀ k, ¬ NextCode s k) ∧ exec .dec s = .next (s.afterError .truncatedStream)) := by
  obtain ⟨hnleaf, hroot, hgrows, -⟩ := ready_tree hinv hrun hready hn
  have hinternal : (nodeAt s s.root).leaf = false := hgrows.internal (by omega) s.root.lt_succ_self
  rw [exec, execDec, if_neg (not_not_intro hready), if_neg hbsrd.ne, if_neg (Bool.eq_false_iff.mp hinternal)]
  rcases decodeWalk_cases (n := s.bslen - s.bsrd) (p := s.bsrd) hinternal with ⟨w, m, hm, hwalk, hpath⟩ | ⟨hwalk, hnone⟩
  · obtain ⟨hk, hcode⟩ := (leafPath_iff_code hinv hrun hready hn).mp hpath
    refine .inl ⟨_, ⟨hk, ?_⟩, ?_⟩
    · rw [hcode, unread, prefix_streamBits_iff, length_streamBits]
      exact ⟨hm, rfl⟩
    · rw [hwalk, decoded, hcode, length_streamBits]
      simp only [Nat.add_sub_cancel_left, finish_eq]
  · refine .inr ⟨fun k ⟨hk, hpre⟩ => hnone _ k ((leafPath_iff_code hinv hrun hready hn).mpr ⟨hk, rfl⟩) hpre, ?_⟩
    rw [hwalk]
    exact raise_eq _ _

/-- In READY with one leaf, the root is the leaf of the one counted symbol. -/
theorem root_of_oneLeaf (hinv : s.Inv) (hrun : s.resetState = .running) (hready : s.phase = .ready)
    (hn : s.nleaf = 1) : (nodeAt s s.root).leaf = true ∧ 0 < freqAt s (nodeAt s s.root).sym := by
  obtain ⟨⟨-, -, hnleaf⟩, -, hsession⟩ := hinv.running hrun
  obtain ⟨-, hbuilt, -⟩ := hsession hready
  obtain ⟨x, hx⟩ := List.length_eq_one_iff.mp (hnleaf.symm.trans hn)
  rw [hn, treeBuild, if_pos rfl, hx] at hbuilt
  obtain ⟨hnode, hroot⟩ := Prod.mk.inj hbuilt
  have hleaf : nodeAt s s.root = leafNode s.freq x := by
    rw [nodeAt, hnode, hroot]
    exact nodeGet_writeLeaves (i := 0) List.Pairwise.nil rfl
  rw [hleaf]
  exact ⟨rfl, (mem_presentSymbols.mp (hx ▸ List.mem_singleton_self x)).2⟩

/-- DEC of a one-leaf tree: its one code is "0". -/
theorem exec_dec_of_oneLeaf (hinv : s.Inv) (hrun : s.resetState = .running) (hready : s.phase = .ready)
    (hn : s.nleaf = 1) (hbsrd : s.bsrd < s.bslen) :
    (∃ k, NextCode s k ∧ exec .dec s = .next (decoded k s)) ∨
    ((∀ k, ¬ NextCode s k) ∧ exec .dec s = .next (s.afterError .invalidPath)) := by
  obtain ⟨hleaf, hcounted⟩ := root_of_oneLeaf hinv hrun hready hn
  have hcode : ∀ {k}, 0 < freqAt s k → codeAt s k = [false] := fun hk =>
    (codeAt_of_oneLeaf hinv hrun hready hn (lt_nsym_of_counted hinv.memory hk)).trans (if_pos hk)
  have hnext : ∀ {k}, 0 < freqAt s k → (codeAt s k <+: unread s ↔ false = bsBit s s.bsrd) := fun hk => by
    rw [hcode hk, unread_of_lt hbsrd, List.cons_prefix_cons, and_iff_left List.nil_prefix]
  rw [exec, execDec, if_neg (not_not_intro hready), if_neg hbsrd.ne, if_pos hleaf]
  cases hbit : bsBit s s.bsrd with
  | false =>
    refine .inl ⟨_, ⟨hcounted, (hnext hcounted).mpr hbit.symm⟩, ?_⟩
    rw [decoded, hcode hcounted]
    exact finish_eq _
  | true =>
    refine .inr ⟨fun k ⟨hk, hpre⟩ => Bool.false_ne_true (((hnext hk).mp hpre).trans hbit), ?_⟩
    exact raise_eq _ _

/-- What DEC raises when no code begins the unread stream. -/
def pathError (s : State) : Err := if s.nleaf = 1 then .invalidPath else .truncatedStream

/-- In READY, before the end of the stream, DEC returns the symbol of the next code, or raises its tree's error when
there is none (R170, R171). -/
theorem exec_dec_of_ready (hinv : s.Inv) (hrun : s.resetState = .running) (hready : s.phase = .ready)
    (heos : eos s = false) :
    (∃ k, NextCode s k ∧ exec .dec s = .next (decoded k s)) ∨
    ((∀ k, ¬ NextCode s k) ∧ exec .dec s = .next (s.afterError (pathError s))) := by
  have hbsrd : s.bsrd < s.bslen := hinv.stream.1.lt_of_ne (of_decide_eq_false heos)
  obtain ⟨hpos, -⟩ := (hinv.running hrun).2.2 hready
  rw [pathError]
  split
  · next hn => exact exec_dec_of_oneLeaf hinv hrun hready hn hbsrd
  · next hn => exact exec_dec_of_tree hinv hrun hready (by omega) hbsrd

/-! ### A run of DECs -/

theorem nextCode_iff_streamBits : NextCode s k ↔
    0 < freqAt s k ∧ (codeAt s k).length ≤ s.bslen - s.bsrd ∧ streamBits s s.bsrd (codeAt s k).length = codeAt s k :=
  and_congr_right fun _ => prefix_streamBits_iff

/-- DEC consumes bits of the stream only, so it keeps the invariant. -/
theorem inv_decoded (hinv : s.Inv) (hrun : s.resetState = .running) (hk : NextCode s k) : (decoded k s).Inv := by
  obtain ⟨hlegal, hmemory, ⟨hbsrd, hbslen⟩, hrunning, -⟩ := hinv
  have hle := (nextCode_iff_streamBits.mp hk).2.1
  refine ⟨hlegal, hmemory, ⟨?_, hbslen⟩, hrunning, fun h => absurd hrun h⟩
  rw [decoded_bsrd, decoded_bslen]
  omega

/-- From `s`, as many successful DECs as `ys` has symbols return `ys` and end in `t`: the symbols are counted, their
codes are the stream from the BSRD of `s` to that of `t`, and the tables and the stream are those of `s`. -/
structure Decodes (s : State) (ys : List Nat) (t : State) : Prop where
  run : decodeMany ys.length s = some (ys.map (BitVec.ofNat 32), t)
  counted : ∀ y ∈ ys, 0 < freqAt s y
  bsrd_le : s.bsrd ≤ t.bsrd
  codes : (ys.map (codeAt s)).flatten = streamBits s s.bsrd (t.bsrd - s.bsrd)
  freq : t.freq = s.freq
  code : t.code = s.code
  bs : t.bs = s.bs
  bslen : t.bslen = s.bslen
  nleaf : t.nleaf = s.nleaf

theorem Decodes.nil (s : State) : Decodes s [] s where
  run := rfl
  counted _ h := absurd h List.not_mem_nil
  bsrd_le := le_rfl
  codes := by rw [Nat.sub_self]; rfl
  freq := rfl
  code := rfl
  bs := rfl
  bslen := rfl
  nleaf := rfl

/-- A successful DEC before EOS comes first in the run that goes on from its next state. -/
theorem decodeMany_succ {ws : List Word} (heos : eos s = false) (hexec : exec .dec s = .next u) (herr : u.err = .ok)
    (h : decodeMany n u = some (ws, t)) : decodeMany (n + 1) s = some (u.result0 :: ws, t) := by
  have hrun : runCommands [.dec] s = some u := runCommands_cons hexec herr
  simp only [decodeMany, heos, hrun, h, Bool.false_eq_true, if_false]

theorem Decodes.cons (heos : eos s = false) (hk : NextCode s k) (hexec : exec .dec s = .next (decoded k s))
    (h : Decodes (decoded k s) ys t) : Decodes s (k :: ys) t where
  run := decodeMany_succ heos hexec rfl h.run
  counted := List.forall_mem_cons.mpr ⟨hk.1, h.counted⟩
  bsrd_le := (Nat.le_add_right _ _).trans h.bsrd_le
  codes := by
    have hle : s.bsrd + (codeAt s k).length ≤ t.bsrd := h.bsrd_le
    have hrest : (ys.map (codeAt s)).flatten =
        streamBits s (s.bsrd + (codeAt s k).length) (t.bsrd - (s.bsrd + (codeAt s k).length)) := h.codes
    rw [List.map_cons, List.flatten_cons, hrest,
      show t.bsrd - s.bsrd = (codeAt s k).length + (t.bsrd - (s.bsrd + (codeAt s k).length)) by omega, streamBits_add,
      (nextCode_iff_streamBits.mp hk).2.2]
  freq := h.freq
  code := h.code
  bs := h.bs
  bslen := h.bslen
  nleaf := h.nleaf

theorem Decodes.nextCode_end_iff (h : Decodes s ys t) :
    NextCode t k ↔ 0 < freqAt s k ∧ codeAt s k <+: streamBits s t.bsrd (s.bslen - t.bsrd) := by
  have hbit : bsBit t = bsBit s := funext fun i => by rw [bsBit, bsBit, h.bs]
  rw [NextCode, freqAt, codeAt, unread, streamBits, hbit, h.freq, h.code, h.bslen]
  rfl

/-- In READY, DECs succeed until the stream is exhausted or no code begins what is left of it, and then DEC raises its
tree's error: each success consumes a bit at least. -/
theorem exists_decodes (hinv : s.Inv) (hrun : s.resetState = .running) (hready : s.phase = .ready) :
    ∃ ys t, Decodes s ys t ∧ (eos t = true ∨
      (eos t = false ∧ (∀ k, ¬ NextCode t k) ∧ exec .dec t = .next (t.afterError (pathError t)))) := by
  induction hd : s.bslen - s.bsrd using Nat.strong_induction_on generalizing s with
  | _ d ih =>
    cases heos : eos s with
    | true => exact ⟨[], s, .nil s, .inl heos⟩
    | false =>
      rcases exec_dec_of_ready hinv hrun hready heos with ⟨k, hk, hexec⟩ | ⟨hnone, hexec⟩
      · have hpos := length_codeAt_pos hinv hrun hready hk.1
        have hle := (nextCode_iff_streamBits.mp hk).2.1
        have hless : (decoded k s).bslen - (decoded k s).bsrd < d := by
          rw [decoded_bsrd, decoded_bslen]
          omega
        obtain ⟨ys, t, hdec, hstop⟩ := ih _ hless (inv_decoded hinv hrun hk) hrun hready rfl
        exact ⟨k :: ys, t, hdec.cons heos hk hexec, hstop⟩
      · exact ⟨[], s, .nil s, .inr ⟨heos, hnone, hexec⟩⟩

/-- Settles O54: the run of DECs cannot exhaust the stream, since its symbols would then parse it; so it ends at a DEC
that finds no code. -/
theorem unparsableStreamFailsToDecode : Obligations.UnparsableStreamFailsToDecode := by
  intro s hinv hrun hready hbsrd hunparsable
  obtain ⟨ys, t, hdec, hstop⟩ := exists_decodes hinv hrun hready
  have hcodes := hdec.codes
  rw [hbsrd, Nat.sub_zero] at hcodes
  rcases hstop with heos | ⟨heos, hnone, hexec⟩
  · have hend : t.bsrd = s.bslen := (of_decide_eq_true heos).trans hdec.bslen
    exact absurd ⟨ys, hdec.counted, hend ▸ hcodes⟩ hunparsable
  · rw [pathError, hdec.nleaf] at hexec
    exact ⟨ys.length, _, t, ys, hdec.run, hdec.counted, rfl, hcodes, heos, hexec, fun k hk hpre =>
      hnone k (hdec.nextCode_end_iff.mpr ⟨hk, hpre⟩)⟩

end Sys2Proof.Machine
end

section
/-! ## Taking an error (60_exceptions.md R181)

A command ends in one of two ways: its writes are committed with ERR = 0, or an error is raised on the state before it. -/

namespace Sys2Proof.Machine

open Sys2Proof

variable {s t : State} {i : Instr}

/-- Each command's checks come before its writes, and its writes are committed with ERR = 0 only. -/
theorem exec_ok_or_afterError (h : exec i s = .next t) : t.err = .ok ∨ t = s.afterError t.err := by
  cases i with
  | nop => obtain rfl := execNop_cases h; exact .inl rfl
  | clear => obtain rfl := execClear_cases h; exact .inl rfl
  | count a =>
    obtain ⟨rfl, -⟩ | ⟨rfl, -⟩ | ⟨rfl, -⟩ | ⟨rfl, -⟩ := execCount_cases h
    exacts [.inr rfl, .inr rfl, .inr rfl, .inl rfl]
  | build =>
    obtain ⟨rfl, -⟩ | ⟨rfl, -⟩ | ⟨rfl, -⟩ := execBuild_cases h
    exacts [.inr rfl, .inr rfl, .inl rfl]
  | enc a =>
    obtain ⟨rfl, -⟩ | ⟨rfl, -⟩ | ⟨rfl, -⟩ | ⟨rfl, -⟩ | ⟨rfl, -⟩ := execEnc_cases h
    exacts [.inr rfl, .inr rfl, .inr rfl, .inr rfl, .inl rfl]
  | dec =>
    obtain ⟨rfl, -⟩ | rfl | rfl | ⟨rfl, -⟩ | ⟨rfl, -⟩ | ⟨v, p, rfl, -⟩ := execDec_cases h
    exacts [.inr rfl, .inr rfl, .inr rfl, .inl rfl, .inl rfl, .inl rfl]
  | rdfreq a =>
    obtain ⟨rfl, -⟩ | ⟨rfl, -⟩ := execRdfreq_cases h
    exacts [.inr rfl, .inl rfl]
  | rdcode a =>
    obtain ⟨rfl, -⟩ | ⟨rfl, -⟩ | ⟨rfl, -⟩ | ⟨rfl, -⟩ := execRdcode_cases h
    exacts [.inr rfl, .inr rfl, .inr rfl, .inl rfl]
  | rdnode n =>
    obtain ⟨rfl, -⟩ | ⟨rfl, -⟩ | ⟨rfl, -⟩ := execRdnode_cases h
    exacts [.inr rfl, .inr rfl, .inl rfl]
  | wrbs j =>
    obtain ⟨rfl, -⟩ | ⟨rfl, -⟩ := execWrbs_cases h
    exacts [.inr rfl, .inl rfl]
  | rdbs j =>
    obtain ⟨rfl, -⟩ | ⟨rfl, -⟩ := execRdbs_cases h
    exacts [.inr rfl, .inl rfl]
  | setbs =>
    obtain ⟨rfl, -⟩ | ⟨rfl, -⟩ := execSetbs_cases h
    exacts [.inr rfl, .inl rfl]
  | rewind => obtain rfl := execRewind_cases h; exact .inl rfl

/-- The same of a latched word: it runs its command, or it is no command and raises IllegalCommand. -/
theorem runLatched_ok_or_afterError (h : runLatched s = .next t) : t.err = .ok ∨ t = s.afterError t.err := by
  cases hword : decode (latchedWord s) with
  | ok i =>
    rw [runLatched_of_decode_ok hword] at h
    exact exec_ok_or_afterError h
  | error e =>
    rw [runLatched_of_decode_error hword] at h
    cases h
    exact .inr rfl

/-- Out of reset only a latched command keeps the block busy, and an error has emptied the latch. -/
theorem busy_afterError (hrun : s.resetState = .running) (e : Err) : busy (s.afterError e) = false := by
  simp [busy, State.afterError, hrun]

/-- Settles O21: a latched word or a command that does not end with ERR = 0 ends with an error raised on the state before
it. -/
theorem errorChangesOnlyErrAndBusy : Obligations.ErrorChangesOnlyErrAndBusy := by
  intro s t hend herr
  have hor : t.err = .ok ∨ t = s.afterError t.err := by
    rcases hend with h | ⟨i, h⟩
    · exact runLatched_ok_or_afterError h
    · exact exec_ok_or_afterError h
  have ht : t = s.afterError t.err := hor.resolve_left herr
  refine ⟨ht, fun hrun => ?_⟩
  rw [ht]
  exact busy_afterError hrun _

end Sys2Proof.Machine
end

section
/-! ## Accesses the specification refuses (70_reset_and_hazards.md R202, 20_memory.md R60)

Reset is checked before the address, so while it is asserted the window plays no part. Out of reset only the address of the
first byte decides (log 14): neither the size nor the value written does. -/

namespace Sys2Proof.Machine

open Sys2Proof

variable {s : State} {addr : Nat}

theorem windowOffset_eq_none_iff {c : Config} : windowOffset c addr = none ↔ addr < c.base ∨ c.base + 0x40 ≤ addr := by
  rw [windowOffset, ite_eq_right_iff]
  simp only [reduceCtorEq, imp_false]
  omega

theorem hostRead_of_outside (hout : windowOffset s.cfg addr = none) (size : Size) :
    hostRead addr size s = .refused .accessOutsideWindow := by
  rw [hostRead, hout]

theorem hostWrite_of_outside (hout : windowOffset s.cfg addr = none) (size : Size) (v : Word) :
    hostWrite addr size v s = .refused .accessOutsideWindow := by
  rw [hostWrite, hout]

/-- Settles O36: the host's step checks reset first, and an address outside the window has no offset. -/
theorem accessesTheSpecRefuses : Obligations.AccessesTheSpecRefuses := by
  intro s addr size v
  refine ⟨fun hreset => ⟨if_pos hreset, if_pos hreset, if_pos hreset⟩, fun hreset hout => ?_⟩
  have hnone : windowOffset s.cfg addr = none := windowOffset_eq_none_iff.mpr hout
  exact ⟨(if_neg hreset).trans (hostRead_of_outside hnone size), (if_neg hreset).trans (hostWrite_of_outside hnone size v)⟩

end Sys2Proof.Machine
end

section
/-! ## The command words (30_encoding.md R80 to R89)

The encoder and the decoder are read from one opcode map, so each row of it says both: what its fields decode to, and
which command has those fields. -/

namespace Sys2Proof.Machine

open Sys2Proof

variable {op a : Nat} {i j : Instr}

theorem decode_mkWord (op : BitVec 8) (a : BitVec 24) : decode (mkWord op a) = decodeFields op.toNat a.toNat := by
  rw [decode, opField_mkWord, aField_mkWord]

/-- A command can be encoded exactly when its operand fits the field A. -/
theorem wf_iff_operand_lt (i : Instr) : i.wf = true ↔ i.operand < 2 ^ 24 := by
  cases i <;> simp [Instr.wf, fitsOperand, Instr.operand]

/-- Each row of the opcode map answers the command whose opcode and operand it is given. -/
theorem decodeFields_opcode_operand (i : Instr) : decodeFields i.opcode.toNat i.operand = .ok i := by
  cases i <;> rfl

theorem formatN_eq_ok (h : formatN op a j = .ok i) : i = j ∧ a = 0 := by
  unfold formatN at h
  split at h
  · next ha => cases h; exact ⟨rfl, ha⟩
  · cases h

/-- The fields a row accepts are the opcode and the operand of the command it answers. -/
theorem fields_of_decodeFields (h : decodeFields op a = .ok i) : i.opcode.toNat = op ∧ i.operand = a := by
  have hformatN : ∀ {j}, formatN op a j = .ok i → j.opcode.toNat = op → j.operand = 0 →
      i.opcode.toNat = op ∧ i.operand = a := by
    rintro j hj hop hoperand
    obtain ⟨rfl, rfl⟩ := formatN_eq_ok hj
    exact ⟨hop, hoperand⟩
  unfold decodeFields at h
  split at h
  -- The rows of format N, the reserved opcodes, and the rows of format A.
  case h_1 | h_2 | h_4 | h_6 | h_12 | h_13 => exact hformatN h rfl rfl
  case h_14 => cases h
  all_goals cases h; exact ⟨rfl, rfl⟩

/-- The fields of the word are the opcode and the operand, and their row answers the command. -/
theorem decode_encode (hwf : i.wf = true) : decode (encode i) = .ok i := by
  have hoperand : (BitVec.ofNat 24 i.operand).toNat = i.operand := by
    rw [BitVec.toNat_ofNat, Nat.mod_eq_of_lt ((wf_iff_operand_lt i).mp hwf)]
  rw [encode, decode_mkWord, hoperand, decodeFields_opcode_operand]

/-- Settles O1: the operand of a well-formed command fits the field A, so nothing of it is lost. -/
theorem decodeOfEncodeIsTheCommand : Obligations.DecodeOfEncodeIsTheCommand := fun _ => decode_encode

/-- Settles O2: the word's fields are the opcode and the operand of the command, so the operand fits and the command's
word has the same fields. -/
theorem encodeOfDecodeIsTheWord : Obligations.EncodeOfDecodeIsTheWord := by
  intro w i h
  obtain ⟨hop, ha⟩ := fields_of_decodeFields h
  refine ⟨(wf_iff_operand_lt i).mpr (ha ▸ (aField w).isLt), ?_⟩
  rw [encode, BitVec.eq_of_toNat_eq hop, ha, BitVec.ofNat_toNat, BitVec.setWidth_eq, mkWord_fields]

/-- Settles O4: the words are closed, so the decoder runs on them. -/
theorem exampleWordsDecode : Obligations.ExampleWordsDecode := by
  unfold Obligations.ExampleWordsDecode
  decide

end Sys2Proof.Machine
end

section
/-! ## COUNT, BUILD and DEC (41_frequency_counter.md R110, 42_tree_builder.md R120, 45_bitstream_decoder.md R170)

The answers of the three commands that write the counts, the tree and the read position, check by check. -/

namespace Sys2Proof.Machine

open Sys2Proof

variable {s : State} {a : Nat}

/-! ### COUNT -/

theorem exec_count_of_not_counting (hphase : s.phase ≠ .counting) :
    exec (.count a) s = .next (s.afterError .sequence) := by
  rw [exec, execCount, if_pos hphase, ← complete_eq_afterError]
  exact raise_eq _ _

theorem exec_count_of_le (hphase : s.phase = .counting) (h : s.cfg.nsym ≤ a) :
    exec (.count a) s = .next (s.afterError .range) := by
  rw [exec, execCount, if_neg (not_not_intro hphase), isSymbol_of_le h, ← complete_eq_afterError]
  exact raise_eq _ _

/-- With its symbol in range, COUNT asks only whether TOTAL may go up. -/
theorem exec_count_of_lt (hphase : s.phase = .counting) (h : a < s.cfg.nsym) :
    exec (.count a) s =
      if s.total = s.cfg.cntMax then .next (s.afterError .countOverflow)
      else .next (complete .ok (countSymbol a s)) := by
  rw [exec, execCount, if_neg (not_not_intro hphase), isSymbol_of_lt h]
  rfl

/-- Only the count of the symbol goes up, by 1. -/
theorem freqAt_countSymbol (hwf : Memory.wf s) (a k : Nat) :
    freqAt (countSymbol a s) k = if k = a then freqAt s a + 1 else freqAt s k := by
  obtain ⟨⟨hsorted, -⟩, -⟩ := hwf
  exact Table.get_set hsorted

theorem freqAt_countSymbol_same (hwf : Memory.wf s) (a : Nat) : freqAt (countSymbol a s) a = freqAt s a + 1 := by
  rw [freqAt_countSymbol hwf, if_pos rfl]

theorem freqAt_countSymbol_other (hwf : Memory.wf s) {k : Nat} (hk : k ≠ a) :
    freqAt (countSymbol a s) k = freqAt s k := by
  rw [freqAt_countSymbol hwf, if_neg hk]

/-- A count is one of the summands of TOTAL (10_state.md R45 item 1). -/
theorem freqAt_le_total (hinv : s.Inv) (hrun : s.resetState = .running) (a : Nat) : freqAt s a ≤ s.total := by
  obtain ⟨⟨htotal, -⟩, -⟩ := hinv.running hrun
  by_cases ha : a < s.cfg.nsym
  · rw [htotal]
    exact List.single_le_sum (fun _ _ => Nat.zero_le _) _ (List.mem_map_of_mem (List.mem_range.mpr ha))
  · rw [freqAt, Table.get_of_ge hinv.memory.1 (Nat.not_lt.mp ha)]
    exact Nat.zero_le _

/-- Settles O9: the checks decide, in their order, between the errors and counting the symbol; and the row of COUNT is of
format A. -/
theorem countAddsOneSymbol : Obligations.CountAddsOneSymbol := fun s a hwf =>
  ⟨fun hphase ha htotal =>
      ⟨_, (exec_count_of_lt hphase ha).trans (if_neg htotal), freqAt_countSymbol_same hwf a,
        fun _ => freqAt_countSymbol_other hwf, rfl⟩,
    exec_count_of_not_counting, exec_count_of_le,
    fun hphase ha htotal => (exec_count_of_lt hphase ha).trans (if_pos htotal),
    fun hinv hrun => freqAt_le_total hinv hrun a, runsFormatA_of_row (fun _ => rfl) s⟩

/-! ### BUILD -/

theorem exec_build_of_not_counting (hphase : s.phase ≠ .counting) :
    exec .build s = .next (s.afterError .sequence) := by
  rw [exec, execBuild, if_pos hphase, ← complete_eq_afterError]
  exact raise_eq _ _

/-- In COUNTING, BUILD asks only whether a symbol has been counted. -/
theorem exec_build_of_counting (hphase : s.phase = .counting) :
    exec .build s =
      if s.nleaf = 0 then .next (s.afterError .emptyInput) else .next (complete .ok (buildTables s)) := by
  rw [exec, execBuild, if_neg (not_not_intro hphase)]
  rfl

/-- The running maximum of `f` over the first `n` numbers. -/
theorem foldl_max_range_succ (f : Nat → Nat) (n : Nat) :
    (List.range (n + 1)).foldl (fun m k => max m (f k)) 0 = max ((List.range n).foldl (fun m k => max m (f k)) 0) (f n) := by
  rw [List.range_succ, List.foldl_append]
  rfl

/-- It bounds every value and is one of them, if there is any. -/
theorem foldl_max_range (f : Nat → Nat) (n : Nat) :
    (∀ k < n, f k ≤ (List.range n).foldl (fun m k => max m (f k)) 0) ∧
      (0 < n → ∃ k < n, f k = (List.range n).foldl (fun m k => max m (f k)) 0) := by
  induction n with
  | zero => simp
  | succ n ih =>
    obtain ⟨hle, hattained⟩ := ih
    rw [foldl_max_range_succ]
    refine ⟨fun k hk => ?_, fun _ => ?_⟩
    · rcases Nat.lt_succ_iff_lt_or_eq.mp hk with hlt | rfl
      · exact (hle k hlt).trans (le_max_left _ _)
      · exact le_max_right _ _
    · rcases Nat.eq_zero_or_pos n with rfl | hn
      · exact ⟨0, Nat.one_pos, (Nat.zero_max _).symm⟩
      · obtain ⟨k, hk, hkmax⟩ := hattained hn
        rcases le_total (f n) (f k) with hge | hlt
        · exact ⟨k, by omega, by rw [← hkmax, max_eq_left hge]⟩
        · exact ⟨n, by omega, by rw [← hkmax, max_eq_right hlt]⟩

theorem length_le_longestCode {c : Config} (codes : Table Code) {k : Nat} (hk : k < c.nsym) :
    (Table.get [] codes k).length ≤ longestCode c codes :=
  (foldl_max_range (fun k => (Table.get [] codes k).length) c.nsym).1 k hk

theorem exists_length_eq_longestCode (c : Config) (codes : Table Code) :
    ∃ k < c.nsym, (Table.get [] codes k).length = longestCode c codes :=
  (foldl_max_range (fun k => (Table.get [] codes k).length) c.nsym).2 (Nat.two_pow_pos c.symW)

/-- Settles O11: BUILD's checks come in their order, RESULT2 is the maximum of the lengths, and the row of BUILD is of format
N. -/
theorem buildMakesTreeAndCodes : Obligations.BuildMakesTreeAndCodes := fun s =>
  ⟨fun hphase hnleaf => ⟨_, longestCode s.cfg (builtCode s), (exec_build_of_counting hphase).trans (if_neg hnleaf),
      fun _ => length_le_longestCode (builtCode s), exists_length_eq_longestCode s.cfg (builtCode s), rfl⟩,
    exec_build_of_not_counting, fun hphase hnleaf => (exec_build_of_counting hphase).trans (if_pos hnleaf),
    runsFormatN_of_row (fun _ => rfl) s⟩

/-! ### DEC -/

theorem exec_dec_of_not_ready (hphase : s.phase ≠ .ready) : exec .dec s = .next (s.afterError .sequence) := by
  rw [exec, execDec, if_pos hphase, ← complete_eq_afterError]
  exact raise_eq _ _

theorem exec_dec_of_eos (hphase : s.phase = .ready) (heos : s.bsrd = s.bslen) :
    exec .dec s = .next (complete .ok { s with result0 := 0xFFFFFFFF, result1 := 0 }) := by
  rw [exec, execDec, if_neg (not_not_intro hphase), if_pos heos]
  exact finish_eq _

/-- When the root is a leaf, the next bit decides. -/
theorem exec_dec_of_leaf (hphase : s.phase = .ready) (hlt : s.bsrd < s.bslen) (hleaf : (nodeAt s s.root).leaf = true) :
    exec .dec s =
      if bsBit s s.bsrd then .next (s.afterError .invalidPath)
      else .next (complete .ok (emitSymbol (nodeAt s s.root).sym 1 s)) := by
  rw [exec, execDec, if_neg (not_not_intro hphase), if_neg hlt.ne, if_pos hleaf]
  rfl

/-- When the root is an internal node, DEC finds the symbol of the leaf path that begins the stream bits it may read, or
raises TruncatedStream when none does. -/
theorem exec_dec_of_internal (hphase : s.phase = .ready) (hlt : s.bsrd < s.bslen)
    (hinternal : (nodeAt s s.root).leaf = false) :
    (∃ n k, n ≤ s.bslen - s.bsrd ∧ LeafPath s.node s.root (streamBits s s.bsrd n) k ∧
      exec .dec s = .next (complete .ok (emitSymbol k n s))) ∨
    ((∀ c k, LeafPath s.node s.root c k → ¬ c <+: streamBits s s.bsrd (s.bslen - s.bsrd)) ∧
      exec .dec s = .next (s.afterError .truncatedStream)) := by
  rw [exec, execDec, if_neg (not_not_intro hphase), if_neg hlt.ne, if_neg (Bool.eq_false_iff.mp hinternal)]
  rcases decodeWalk_cases (n := s.bslen - s.bsrd) (p := s.bsrd) hinternal with ⟨w, n, hn, hwalk, hpath⟩ | ⟨hwalk, hnone⟩
  · refine .inl ⟨n, _, hn, hpath, ?_⟩
    rw [hwalk]
    simp only [Nat.add_sub_cancel_left, finish_eq]
  · refine .inr ⟨hnone, ?_⟩
    rw [hwalk]
    exact raise_eq _ _

theorem take_streamBits (s : State) (p : Nat) {m n : Nat} (h : m ≤ n) :
    (streamBits s p n).take m = streamBits s p m := by
  rw [streamBits, streamBits, ← List.map_take, List.take_range, min_eq_left h]

theorem streamBits_prefix (s : State) (p : Nat) {m n : Nat} (h : m ≤ n) : streamBits s p m <+: streamBits s p n :=
  take_streamBits s p h ▸ List.take_prefix _ _

/-- Of two leaf paths from one node, neither goes on where the other has ended. -/
theorem LeafPath.eq_of_prefix {t : Table Node} {v j k : Nat} {p p' : Code} (hp : LeafPath t v p j)
    (hp' : LeafPath t v p' k) (hpre : p <+: p') : p = p' := by
  by_contra hne
  have hlt : p.length < p'.length := hpre.length_le.lt_of_ne fun h => hne (hpre.eq_of_length h)
  have hinternal := hp'.internal p.length hlt
  rw [← List.prefix_iff_eq_take.mp hpre, hp.leaf] at hinternal
  cases hinternal

/-- The stream bits up to the first leaf of the walk are a leaf path. -/
theorem leafPath_streamBits {p n : Nat} (hroot : (nodeAt s s.root).leaf = false)
    (hinternal : ∀ m, 1 ≤ m → m < n → (nodeAt s (follow s.node s.root (streamBits s p m))).leaf = false)
    (hleaf : (nodeAt s (follow s.node s.root (streamBits s p n))).leaf = true) :
    LeafPath s.node s.root (streamBits s p n) (nodeAt s (follow s.node s.root (streamBits s p n))).sym where
  leaf := hleaf
  sym := rfl
  internal m hm := by
    rw [length_streamBits] at hm
    rw [take_streamBits s p hm.le]
    rcases Nat.eq_zero_or_pos m with rfl | hpos
    · exact hroot
    · exact hinternal m hpos hm

/-- DEC returns the symbol of a leaf path that begins the stream bits it may read: there is only one. -/
theorem exec_dec_of_leafPath {n k : Nat} (hphase : s.phase = .ready) (hlt : s.bsrd < s.bslen)
    (hinternal : (nodeAt s s.root).leaf = false) (hn : n ≤ s.bslen - s.bsrd)
    (hpath : LeafPath s.node s.root (streamBits s s.bsrd n) k) :
    exec .dec s = .next (complete .ok (emitSymbol k n s)) := by
  rcases exec_dec_of_internal hphase hlt hinternal with ⟨m, j, -, hpath', hexec⟩ | ⟨hnone, -⟩
  · have heq : streamBits s s.bsrd m = streamBits s s.bsrd n := by
      rcases le_total m n with hle | hle
      · exact hpath'.eq_of_prefix hpath (streamBits_prefix s _ hle)
      · exact (hpath.eq_of_prefix hpath' (streamBits_prefix s _ hle)).symm
    have hlen : m = n := by simpa using congrArg List.length heq
    subst hlen
    rw [hexec, ← hpath.sym, hpath'.sym]
  · exact absurd (streamBits_prefix s _ hn) (hnone _ _ hpath)

/-- DEC raises TruncatedStream when no leaf is reached before BSLEN. -/
theorem exec_dec_of_no_leaf (hphase : s.phase = .ready) (hlt : s.bsrd < s.bslen)
    (hinternal : (nodeAt s s.root).leaf = false)
    (hnone : ∀ m, 1 ≤ m → m ≤ s.bslen - s.bsrd →
      (nodeAt s (follow s.node s.root (streamBits s s.bsrd m))).leaf = false) :
    exec .dec s = .next (s.afterError .truncatedStream) := by
  rcases exec_dec_of_internal hphase hlt hinternal with ⟨n, k, hn, hpath, -⟩ | ⟨-, hexec⟩
  · have hleaf := hpath.leaf
    rcases Nat.eq_zero_or_pos n with rfl | hpos
    · exact absurd hleaf (Bool.eq_false_iff.mp hinternal)
    · exact absurd hleaf (Bool.eq_false_iff.mp (hnone n hpos hn))
  · exact hexec

/-- Settles O19: the phase, the end of the stream, the root and the walk decide between DEC's answers; and the row of DEC is
of format N. -/
theorem decDecodesOneSymbol : Obligations.DecDecodesOneSymbol := fun s _ =>
  ⟨exec_dec_of_not_ready, exec_dec_of_eos,
    fun hphase hlt hleaf hbit => (exec_dec_of_leaf hphase hlt hleaf).trans (if_neg (Bool.eq_false_iff.mp hbit)),
    fun hphase hlt hleaf hbit => (exec_dec_of_leaf hphase hlt hleaf).trans (if_pos hbit),
    fun hphase hlt hroot _ _ hn hinternal hleaf =>
      exec_dec_of_leafPath hphase hlt hroot hn (leafPath_streamBits hroot hinternal hleaf),
    exec_dec_of_no_leaf, runsFormatN_of_row (fun _ => rfl) s⟩

end Sys2Proof.Machine
end

section
/-! ## What every command does (10_state.md R40, 60_exceptions.md R181 to R185)

Every command completes; it keeps the parameters, ARG, the reset input and the host's side; it reads neither the host's
side nor the ERR and valid bits it is about to write; and its checks come in the order of R182. -/

namespace Sys2Proof.Machine

open Sys2Proof

variable {s t : State} {i : Instr} {e : Err} {p : Phase}

/-! ### What every command keeps -/

/-- What the latched command leaves alone: the parameters, ARG, the latch but for its valid bit, the reset input and the
model's own fields. -/
structure CommandFrame (s t : State) : Prop where
  cfg : t.cfg = s.cfg
  arg : t.arg = s.arg
  lcmd : t.lcmd = { s.lcmd with valid := false }
  resetState : t.resetState = s.resetState
  host : t.host = s.host
  busData : t.busData = s.busData
  busyFor : t.busyFor = s.busyFor
  issued : t.issued = s.issued

theorem CommandFrame.of_eq (h : t = { t with
    cfg := s.cfg, arg := s.arg, lcmd := { s.lcmd with valid := false }, resetState := s.resetState, host := s.host,
    busData := s.busData, busyFor := s.busyFor, issued := s.issued }) : CommandFrame s t := by
  rw [h]
  exact ⟨rfl, rfl, rfl, rfl, rfl, rfl, rfl, rfl⟩

/-- A command's writes are to the session's registers and tables. -/
theorem exec_frame (h : exec i s = .next t) : CommandFrame s t := by
  cases i with
  | nop => obtain rfl := execNop_cases h; exact .of_eq rfl
  | clear => obtain rfl := execClear_cases h; exact .of_eq rfl
  | count a => obtain ⟨rfl, -⟩ | ⟨rfl, -⟩ | ⟨rfl, -⟩ | ⟨rfl, -⟩ := execCount_cases h <;> exact .of_eq rfl
  | build => obtain ⟨rfl, -⟩ | ⟨rfl, -⟩ | ⟨rfl, -⟩ := execBuild_cases h <;> exact .of_eq rfl
  | enc a => obtain ⟨rfl, -⟩ | ⟨rfl, -⟩ | ⟨rfl, -⟩ | ⟨rfl, -⟩ | ⟨rfl, -⟩ := execEnc_cases h <;> exact .of_eq rfl
  | dec =>
    obtain ⟨rfl, -⟩ | rfl | rfl | ⟨rfl, -⟩ | ⟨rfl, -⟩ | ⟨v, p, rfl, -⟩ := execDec_cases h <;> exact .of_eq rfl
  | rdfreq a => obtain ⟨rfl, -⟩ | ⟨rfl, -⟩ := execRdfreq_cases h <;> exact .of_eq rfl
  | rdcode a => obtain ⟨rfl, -⟩ | ⟨rfl, -⟩ | ⟨rfl, -⟩ | ⟨rfl, -⟩ := execRdcode_cases h <;> exact .of_eq rfl
  | rdnode n => obtain ⟨rfl, -⟩ | ⟨rfl, -⟩ | ⟨rfl, -⟩ := execRdnode_cases h <;> exact .of_eq rfl
  | wrbs j => obtain ⟨rfl, -⟩ | ⟨rfl, -⟩ := execWrbs_cases h <;> exact .of_eq rfl
  | rdbs j => obtain ⟨rfl, -⟩ | ⟨rfl, -⟩ := execRdbs_cases h <;> exact .of_eq rfl
  | setbs => obtain ⟨rfl, -⟩ | ⟨rfl, -⟩ := execSetbs_cases h <;> exact .of_eq rfl
  | rewind => obtain rfl := execRewind_cases h; exact .of_eq rfl

/-! ### What no command reads -/

theorem exec_complete (i : Instr) (e : Err) (s : State) : exec i (complete e s) = exec i s := by
  cases i <;> rfl

/-- `s` with other values in the model's own fields (log 5, log 6, log 7). -/
def withOwnFields (h : List HostStmt) (d : Option Word) (b n : Nat) (s : State) : State :=
  { s with host := h, busData := d, busyFor := b, issued := n }

/-- The outcome with its next state, if it has one, changed by `f`. -/
def mapNext (f : State → State) : Host.Outcome State Fault Refusal → Host.Outcome State Fault Refusal
  | .next t => .next (f t)
  | .fault r => .fault r
  | .refused r => .refused r

theorem exec_withOwnFields (i : Instr) (h : List HostStmt) (d : Option Word) (b n : Nat) (s : State) :
    exec i (withOwnFields h d b n s) = mapNext (withOwnFields h d b n) (exec i s) := by
  cases i with
  | nop => rfl
  | clear => rfl
  | count a => simp only [exec, execCount, apply_ite (mapNext _)]; rfl
  | build => simp only [exec, execBuild, apply_ite (mapNext _)]; rfl
  | enc a => simp only [exec, execEnc, apply_ite (mapNext _)]; rfl
  | dec =>
    simp only [exec, execDec, apply_ite (mapNext _)]
    cases hwalk : decodeWalk s.node s.bs (s.bslen - s.bsrd) s.bsrd s.root <;>
      simp only [withOwnFields, hwalk] <;> rfl
  | rdfreq a => simp only [exec, execRdfreq, apply_ite (mapNext _)]; rfl
  | rdcode a => simp only [exec, execRdcode, apply_ite (mapNext _)]; rfl
  | rdnode n => simp only [exec, execRdnode, apply_ite (mapNext _)]; rfl
  | wrbs j => simp only [exec, execWrbs, apply_ite (mapNext _)]; rfl
  | rdbs j => simp only [exec, execRdbs, apply_ite (mapNext _)]; rfl
  | setbs => simp only [exec, execSetbs, apply_ite (mapNext _)]; rfl
  | rewind => rfl

/-! ### Completion -/

/-- Every branch of a command commits or raises, and both answer a next state. -/
theorem exec_next (i : Instr) (s : State) : ∃ t, exec i s = .next t := by
  cases i with
  | nop | clear | rewind => exact ⟨_, rfl⟩
  | count a => simp only [exec, execCount]; split_ifs <;> exact ⟨_, rfl⟩
  | build => simp only [exec, execBuild]; split_ifs <;> exact ⟨_, rfl⟩
  | enc a => simp only [exec, execEnc]; split_ifs <;> exact ⟨_, rfl⟩
  | dec =>
    simp only [exec, execDec]
    split_ifs
    · exact ⟨_, rfl⟩
    · exact ⟨_, rfl⟩
    · exact ⟨_, rfl⟩
    · exact ⟨_, rfl⟩
    · split <;> exact ⟨_, rfl⟩
  | rdfreq a => simp only [exec, execRdfreq]; split_ifs <;> exact ⟨_, rfl⟩
  | rdcode a => simp only [exec, execRdcode]; split_ifs <;> exact ⟨_, rfl⟩
  | rdnode n => simp only [exec, execRdnode]; split_ifs <;> exact ⟨_, rfl⟩
  | wrbs j => simp only [exec, execWrbs]; split_ifs <;> exact ⟨_, rfl⟩
  | rdbs j => simp only [exec, execRdbs]; split_ifs <;> exact ⟨_, rfl⟩
  | setbs => simp only [exec, execSetbs]; split_ifs <;> exact ⟨_, rfl⟩

/-- Settles O20: every command answers a next state, and its frame empties the latch. -/
theorem everyCommandCompletes : Obligations.EveryCommandCompletes := by
  intro i s
  obtain ⟨t, h⟩ := exec_next i s
  exact ⟨t, h, (exec_frame h).lcmd⟩

/-- Settles O57: the model's own fields pass through every branch of a command. -/
theorem commandsIgnoreTheModelsOwnFields : Obligations.CommandsIgnoreTheModelsOwnFields := by
  intro i s t h d b n hexec
  have hown := exec_withOwnFields i h d b n s
  rw [hexec] at hown
  exact hown

/-- Settles O24: the state a failed command left differs from the one before only in what no command reads. -/
theorem reissuedCommandFailsAgain : Obligations.ReissuedCommandFailsAgain := by
  intro i s t h herr
  have ht : t = complete t.err s := (exec_ok_or_afterError h).resolve_left herr
  rw [ht, exec_complete, h, ← ht]

/-! ### The error codes -/

/-- The codes a command can report are those of its row of the table (60_exceptions.md R185). -/
theorem exec_err_mem (h : exec i s = .next t) : t.err = .ok ∨ t.err ∈ errorsOfOpcode i.opcode.toNat := by
  cases i with
  | nop => obtain rfl := execNop_cases h; exact .inl rfl
  | clear => obtain rfl := execClear_cases h; exact .inl rfl
  | count a =>
    obtain ⟨rfl, -⟩ | ⟨rfl, -⟩ | ⟨rfl, -⟩ | ⟨rfl, -⟩ := execCount_cases h <;> simp [errorsOfOpcode, Instr.opcode]
  | build => obtain ⟨rfl, -⟩ | ⟨rfl, -⟩ | ⟨rfl, -⟩ := execBuild_cases h <;> simp [errorsOfOpcode, Instr.opcode]
  | enc a =>
    obtain ⟨rfl, -⟩ | ⟨rfl, -⟩ | ⟨rfl, -⟩ | ⟨rfl, -⟩ | ⟨rfl, -⟩ := execEnc_cases h <;>
      simp [errorsOfOpcode, Instr.opcode]
  | dec =>
    obtain ⟨rfl, -⟩ | rfl | rfl | ⟨rfl, -⟩ | ⟨rfl, -⟩ | ⟨v, p, rfl, -⟩ := execDec_cases h <;>
      simp [errorsOfOpcode, Instr.opcode]
  | rdfreq a => obtain ⟨rfl, -⟩ | ⟨rfl, -⟩ := execRdfreq_cases h <;> simp [errorsOfOpcode, Instr.opcode]
  | rdcode a =>
    obtain ⟨rfl, -⟩ | ⟨rfl, -⟩ | ⟨rfl, -⟩ | ⟨rfl, -⟩ := execRdcode_cases h <;> simp [errorsOfOpcode, Instr.opcode]
  | rdnode n => obtain ⟨rfl, -⟩ | ⟨rfl, -⟩ | ⟨rfl, -⟩ := execRdnode_cases h <;> simp [errorsOfOpcode, Instr.opcode]
  | wrbs j => obtain ⟨rfl, -⟩ | ⟨rfl, -⟩ := execWrbs_cases h <;> simp [errorsOfOpcode, Instr.opcode]
  | rdbs j => obtain ⟨rfl, -⟩ | ⟨rfl, -⟩ := execRdbs_cases h <;> simp [errorsOfOpcode, Instr.opcode]
  | setbs => obtain ⟨rfl, -⟩ | ⟨rfl, -⟩ := execSetbs_cases h <;> simp [errorsOfOpcode, Instr.opcode]
  | rewind => obtain rfl := execRewind_cases h; exact .inl rfl

/-- The opcodes of words that are no command can report IllegalCommand. -/
theorem illegalCommand_mem_errorsOfOpcode {op : Nat} (h : 0x0D ≤ op ∨ FormatNOpcode op) :
    Err.illegalCommand ∈ errorsOfOpcode op := by
  rcases h with h | h
  · obtain ⟨n, rfl⟩ := Nat.exists_eq_add_of_le' h
    exact List.mem_singleton_self _
  · simp only [FormatNOpcode, List.mem_cons, List.not_mem_nil, or_false] at h
    rcases h with rfl | rfl | rfl | rfl | rfl | rfl <;> decide

theorem runLatched_err_mem (h : runLatched s = .next t) : t.err = .ok ∨ t.err ∈ errorsOfOpcode s.lcmd.op.toNat := by
  cases hword : decode (latchedWord s) with
  | ok i =>
    rw [runLatched_of_decode_ok hword] at h
    rw [decode_latchedWord] at hword
    obtain ⟨hop, -⟩ := fields_of_decodeFields hword
    exact hop ▸ exec_err_mem h
  | error e =>
    rw [runLatched_of_decode_error hword] at h
    cases h
    rw [decode_latchedWord] at hword
    have hrow := (decodeFields_error_iff _ _).mp ⟨e, hword⟩
    exact .inr (illegalCommand_mem_errorsOfOpcode (hrow.imp_right And.left))

theorem Err.number_le (e : Err) : e.number.toNat ≤ 9 := by
  cases e <;> decide

/-- Settles O22: each row's codes are the table's, and the ERR field of STATUS is the number of the code. -/
theorem errorCodesPerCommand : Obligations.ErrorCodesPerCommand := by
  refine ⟨fun s t h => runLatched_err_mem h, fun s e n hn he => ?_, fun s => ?_⟩
  · rw [statusWord_err, he]
    simp only [List.mem_cons, Prod.mk.injEq, List.not_mem_nil, or_false] at hn
    rcases hn with ⟨rfl, rfl⟩ | ⟨rfl, rfl⟩ | ⟨rfl, rfl⟩ | ⟨rfl, rfl⟩ | ⟨rfl, rfl⟩ | ⟨rfl, rfl⟩ | ⟨rfl, rfl⟩ | ⟨rfl, rfl⟩ |
      ⟨rfl, rfl⟩ | ⟨rfl, rfl⟩ <;> rfl
  · rw [statusWord_err]
    exact Err.number_le _

/-! ### The order of the checks (60_exceptions.md R182) -/

theorem exec_of_wrong_phase (hneeds : Instr.phaseNeeded i = some p) (hphase : s.phase ≠ p) :
    exec i s = .next (s.afterError .sequence) := by
  cases i with
  | count a => cases hneeds; exact exec_count_of_not_counting hphase
  | build => cases hneeds; exact exec_build_of_not_counting hphase
  | enc a => cases hneeds; exact exec_enc_of_not_ready hphase
  | dec => cases hneeds; exact exec_dec_of_not_ready hphase
  | rdcode a => cases hneeds; exact exec_rdcode_of_not_ready hphase
  | rdnode n => cases hneeds; exact exec_rdnode_of_not_ready hphase
  | nop | clear | rdfreq a | wrbs j | rdbs j | setbs | rewind => cases hneeds

theorem exec_of_not_inRange (hphase : ∀ p, Instr.phaseNeeded i = some p → s.phase = p) (h : ¬ Instr.inRange s i) :
    exec i s = .next (s.afterError .range) := by
  cases i with
  | count a => exact exec_count_of_le (hphase _ rfl) (Nat.not_lt.mp h)
  | enc a => exact exec_enc_of_le (hphase _ rfl) (Nat.not_lt.mp h)
  | rdfreq a => exact exec_rdfreq_of_le (Nat.not_lt.mp h)
  | rdcode a =>
    exact exec_rdcode_of_not_inRange (hphase _ rfl) ((not_and_or.mp h).imp Nat.not_lt.mp Nat.not_lt.mp)
  | rdnode n => exact exec_rdnode_of_le (hphase _ rfl) (Nat.not_lt.mp h)
  | wrbs j => exact exec_wrbs_of_le (Nat.not_lt.mp h)
  | rdbs j => exact exec_rdbs_of_le (Nat.not_lt.mp h)
  | setbs => exact exec_setbs_of_lt (Nat.not_le.mp h)
  | nop | clear | build | dec | rewind => exact absurd trivial h

/-- The errors left when the word is legal, the phase right and the operand in range: the command's own. -/
abbrev OwnErr (e : Err) : Prop := e ≠ .illegalCommand ∧ e ≠ .sequence ∧ e ≠ .range

theorem ownErr_complete {u : State} (he : OwnErr e := by decide) : OwnErr (complete e u).err := he

/-- With the phase right and the operand in range, only a command's own errors are left. -/
theorem exec_ownErr (hphase : ∀ p, Instr.phaseNeeded i = some p → s.phase = p) (hrange : Instr.inRange s i)
    (h : exec i s = .next t) : OwnErr t.err := by
  cases i with
  | nop => obtain rfl := execNop_cases h; exact ownErr_complete
  | clear => obtain rfl := execClear_cases h; exact ownErr_complete
  | count a =>
    obtain ⟨-, hwrong⟩ | ⟨-, hout⟩ | ⟨rfl, -⟩ | ⟨rfl, -⟩ := execCount_cases h
    exacts [absurd (hphase _ rfl) hwrong, absurd hrange hout.not_gt, ownErr_complete, ownErr_complete]
  | build =>
    obtain ⟨-, hwrong⟩ | ⟨rfl, -⟩ | ⟨rfl, -⟩ := execBuild_cases h
    exacts [absurd (hphase _ rfl) hwrong, ownErr_complete, ownErr_complete]
  | enc a =>
    obtain ⟨-, hwrong⟩ | ⟨-, hout⟩ | ⟨rfl, -⟩ | ⟨rfl, -⟩ | ⟨rfl, -⟩ := execEnc_cases h
    exacts [absurd (hphase _ rfl) hwrong, absurd hrange hout.not_gt, ownErr_complete, ownErr_complete, ownErr_complete]
  | dec =>
    obtain ⟨-, hwrong⟩ | rfl | rfl | ⟨rfl, -⟩ | ⟨rfl, -⟩ | ⟨v, p, rfl, -⟩ := execDec_cases h
    exacts [absurd (hphase _ rfl) hwrong, ownErr_complete, ownErr_complete, ownErr_complete, ownErr_complete,
      ownErr_complete]
  | rdfreq a =>
    obtain ⟨-, hout⟩ | ⟨rfl, -⟩ := execRdfreq_cases h
    exacts [absurd hrange hout.not_gt, ownErr_complete]
  | rdcode a =>
    obtain ⟨-, hwrong⟩ | ⟨-, hout | hout⟩ | ⟨rfl, -⟩ | ⟨rfl, -⟩ := execRdcode_cases h
    exacts [absurd (hphase _ rfl) hwrong, absurd hrange.1 hout.not_gt, absurd hrange.2 hout.not_gt, ownErr_complete,
      ownErr_complete]
  | rdnode n =>
    obtain ⟨-, hwrong⟩ | ⟨-, hout⟩ | ⟨rfl, -⟩ := execRdnode_cases h
    exacts [absurd (hphase _ rfl) hwrong, absurd hrange hout.not_gt, ownErr_complete]
  | wrbs j =>
    obtain ⟨-, hout⟩ | ⟨rfl, -⟩ := execWrbs_cases h
    exacts [absurd hrange hout.not_gt, ownErr_complete]
  | rdbs j =>
    obtain ⟨-, hout⟩ | ⟨rfl, -⟩ := execRdbs_cases h
    exacts [absurd hrange hout.not_gt, ownErr_complete]
  | setbs =>
    obtain ⟨-, hout⟩ | ⟨rfl, -⟩ := execSetbs_cases h
    exacts [absurd hrange hout.not_ge, ownErr_complete]
  | rewind => obtain rfl := execRewind_cases h; exact ownErr_complete

/-- Settles O23: the decoder rejects first, then the phase and the range check decide, in this order, and what is left is the
command's own. -/
theorem errorPriority : Obligations.ErrorPriority := by
  refine fun s => ⟨fun e he => runLatched_of_decode_error he, fun i hi => ?_⟩
  rw [runLatched_of_decode_ok hi]
  exact ⟨fun p => exec_of_wrong_phase, fun hphase =>
    ⟨exec_of_not_inRange hphase, fun hrange t => exec_ownErr hphase hrange⟩⟩

end Sys2Proof.Machine
end

section
/-! ## The host's accesses to the window (10_state.md R39, R40, 20_memory.md R61 to R66)

Out of reset an access inside the window is answered; the statements about reads and writes then speak of `readAt` and
`writeAt` only. -/

namespace Sys2Proof.Machine

open Sys2Proof

variable {s t : State} {off addr : Nat} {size : Size} {v w : Word}

/-! ### Reads -/

/-- The state after a read that puts `v` on the bus. -/
def readDone (v : Word) (s : State) : State := { nextStmt (tick s) with busData := some v }

theorem hostStep_read (hreset : s.resetState ≠ .asserted) (hoff : off < 0x40) (size : Size) :
    hostStep (.read (s.cfg.base + off) size) s = .next (readDone (readAt s off size) s) := by
  simp only [hostStep, if_neg hreset, hostRead, windowOffset_base _ hoff]
  rfl

theorem hostStep_read_cases (h : hostStep (.read addr size) s = .next t) :
    s.resetState ≠ .asserted ∧ ∃ off, off < 0x40 ∧ addr = s.cfg.base + off := by
  obtain ⟨h, -⟩ | ⟨h, -⟩ | ⟨hreset, ⟨_, _, off, hread, hoff, -⟩ | ⟨_, _, _, _, h, -⟩ | ⟨h, -⟩ | ⟨h, -⟩⟩ := hostStep_cases h
  case inr.inr.inl =>
    cases hread
    refine ⟨hreset, off, ?_, addr_of_windowOffset hoff⟩
    have hin : ¬ (addr < s.cfg.base ∨ s.cfg.base + 0x40 ≤ addr) := fun hout => by
      rw [windowOffset_eq_none_iff.mpr hout] at hoff
      cases hoff
    have := addr_of_windowOffset hoff
    omega
  all_goals cases h

/-- No register depends on what a read changes: the host's list, the value returned and the free count. -/
theorem statusWord_readDone (v : Word) (s : State) : statusWord (readDone v s) = statusWord s := by
  simp only [statusWord, eos, busy, readDone, nextStmt_err, nextStmt_ovr, nextStmt_bsrd, nextStmt_bslen, nextStmt_phase,
    nextStmt_lcmd, nextStmt_resetState, tick_err, tick_ovr, tick_bsrd, tick_bslen, tick_phase, tick_lcmd,
    tick_resetState]
  rfl

theorem regAt_readDone (v : Word) (s : State) (off : Nat) : regAt (readDone v s) off = regAt s off := by
  unfold regAt
  split
  case h_5 => exact statusWord_readDone v s -- the offset of STATUS
  all_goals rfl

theorem readAt_readDone (v : Word) (s : State) (off : Nat) (size : Size) :
    readAt (readDone v s) off size = readAt s off size := by
  cases size <;> simp only [readAt, regAt_readDone]

/-- Settles O25: each offset of the map is in the window, and its word is the register's. -/
theorem registerMapReads : Obligations.RegisterMapReads := by
  intro s off v hreset hmap
  have hoff : off < 0x40 ∧ readAt s off .word = v := by
    simp only [List.mem_cons, Prod.mk.injEq, List.not_mem_nil, or_false] at hmap
    rcases hmap with ⟨rfl, rfl⟩ | ⟨rfl, rfl⟩ | ⟨rfl, rfl⟩ | ⟨rfl, rfl⟩ | ⟨rfl, rfl⟩ | ⟨rfl, rfl⟩ | ⟨rfl, rfl⟩ | ⟨rfl, rfl⟩ |
      ⟨rfl, rfl⟩ | ⟨rfl, rfl⟩ | ⟨rfl, rfl⟩ | ⟨rfl, rfl⟩ | ⟨rfl, rfl⟩ | ⟨rfl, rfl⟩ | ⟨rfl, rfl⟩ | ⟨rfl, rfl⟩ <;>
      exact ⟨by decide, rfl⟩
  exact ⟨_, hostStep_read hreset hoff.1 .word, congrArg some hoff.2⟩

/-- Settles O28: a read writes nothing that a register reads, so the same read finds the same word. -/
theorem readsHaveNoSideEffect : Obligations.ReadsHaveNoSideEffect := by
  intro s t addr size h
  obtain ⟨hreset, off, hoff, rfl⟩ := hostStep_read_cases h
  rw [hostStep_read hreset hoff] at h
  cases h
  exact ⟨rfl, _, hostStep_read (s := readDone (readAt s off size) s) hreset hoff size,
    congrArg some (readAt_readDone _ s off size)⟩

/-! ### Lanes -/

theorem getLsbD_byteLane (w : Word) (k j : Nat) : (byteLane w k).getLsbD j = (decide (j < 8) && w.getLsbD (8 * k + j)) := by
  have hmask : (0xFF : Word) = BitVec.setWidth 32 (BitVec.allOnes 8) := rfl
  rw [byteLane, BitVec.getLsbD_and, BitVec.getLsbD_ushiftRight, hmask, BitVec.getLsbD_setWidth, BitVec.getLsbD_allOnes]
  by_cases hj : j < 8
  · simp [hj, show j < 32 by omega]
  · simp [hj]

theorem getLsbD_halfLane (w : Word) (k j : Nat) :
    (halfLane w k).getLsbD j = (decide (j < 16) && w.getLsbD (8 * k + j)) := by
  have hmask : (0xFFFF : Word) = BitVec.setWidth 32 (BitVec.allOnes 16) := rfl
  rw [halfLane, BitVec.getLsbD_and, BitVec.getLsbD_ushiftRight, hmask, BitVec.getLsbD_setWidth, BitVec.getLsbD_allOnes]
  by_cases hj : j < 16
  · simp [hj, show j < 32 by omega]
  · simp [hj]

/-- An access that is not aligned to its size (R65); alignment is that of the offset (log 21). -/
abbrev Misaligned (off : Nat) (size : Size) : Prop := size = .half ∧ off % 2 = 1 ∨ size = .word ∧ off % 4 ≠ 0

theorem readAt_of_misaligned (s : State) (h : Misaligned off size) : readAt s off size = 0 := by
  rcases h with ⟨rfl, hodd⟩ | ⟨rfl, hoff⟩
  · exact if_neg (by omega)
  · exact if_neg hoff

/-! ### Writes -/

theorem hostStep_write (hreset : s.resetState ≠ .asserted) (hoff : off < 0x40) (size : Size) (v : Word) :
    hostStep (.write (s.cfg.base + off) size v) s = .next (writeAt off size v (nextStmt (tick s))) := by
  simp only [hostStep, if_neg hreset, hostWrite, windowOffset_base _ hoff]

/-- Every write but an aligned word write to CMD or ARG is ignored (R63, R64, R65). -/
theorem writeAt_ignored (v : Word) (s : State) (h : ¬ (size = .word ∧ (off = 0x0C ∨ off = 0x10))) :
    writeAt off size v s = s := by
  rcases writeAt_cases off size v s with hw | ⟨-, hsize, hoff⟩ | ⟨-, hsize, hoff, -⟩ | ⟨-, hsize, hoff, -⟩
  · exact hw
  · exact absurd ⟨hsize, .inr hoff⟩ h
  · exact absurd ⟨hsize, .inl hoff⟩ h
  · exact absurd ⟨hsize, .inl hoff⟩ h

/-- Settles O29: such a write only moves the host on. -/
theorem otherWritesAreIgnored : Obligations.OtherWritesAreIgnored := by
  intro s off size v hreset hoff hother
  rw [hostStep_write hreset hoff, writeAt_ignored v _ hother]
  rfl

/-- Settles O27: a narrow read's bits are the lane's, and a misaligned access reads 0 and writes nothing. -/
theorem narrowReadsReturnLanes : Obligations.NarrowReadsReturnLanes := by
  intro s off hreset hoff
  have hword : readAt s (off - off % 4) .word = regAt s (off - off % 4) := if_pos (by omega)
  refine ⟨⟨_, _, hostStep_read hreset (by omega) .word, congrArg some hword,
    ⟨_, _, hostStep_read hreset hoff .byte, rfl, getLsbD_byteLane _ _⟩, fun heven =>
    ⟨_, _, hostStep_read hreset hoff .half, congrArg some (if_pos heven), getLsbD_halfLane _ _⟩⟩,
    fun size hsize => ⟨⟨_, hostStep_read hreset hoff size, congrArg some (readAt_of_misaligned s hsize)⟩, fun v => ?_⟩⟩
  refine otherWritesAreIgnored s off size v hreset hoff fun ⟨hw, haligned⟩ => ?_
  rcases hsize with ⟨rfl, -⟩ | ⟨-, hmod⟩
  · cases hw
  · omega

theorem writeCmd_of_idle (hidle : busy s = false) : writeCmd w s = issue w s := if_neg (Bool.eq_false_iff.mp hidle)

theorem busy_issue (w : Word) (s : State) : busy (issue w s) = true := by simp [busy]

/-- A word write to CMD by the host is `writeCmd`. -/
theorem hostStep_writeCmd (hreset : s.resetState ≠ .asserted) (w : Word) :
    hostStep (.write (s.cfg.base + 0x0C) .word w) s = .next (writeCmd w (nextStmt (tick s))) :=
  hostStep_write hreset (by decide) .word w

/-- Settles O30: on an idle block the write is an issue. -/
theorem cmdWriteIsAccepted : Obligations.CmdWriteIsAccepted := by
  intro s w hreset hidle
  refine ⟨_, hostStep_writeCmd hreset w, ?_⟩
  rw [writeCmd_of_idle (s := nextStmt (tick s)) hidle]
  exact ⟨busy_issue _ _, rfl⟩

/-- Settles O31: on a busy block the write only sets OVR. -/
theorem cmdWriteWhileBusyIsDropped : Obligations.CmdWriteWhileBusyIsDropped := by
  intro s w hreset hbusy
  rw [hostStep_writeCmd hreset, writeCmd_of_busy (s := nextStmt (tick s)) hbusy]
  rfl

end Sys2Proof.Machine
end

section
/-! ## The invariant (10_state.md R45)

The host's step writes nothing that R45 speaks of but by asserting reset. Of the commands, COUNT, BUILD and CLEAR write the
counts or the tree, each so that they agree again; the others write results, the stream and its two positions. -/

namespace Sys2Proof.Machine

open Sys2Proof

variable {s t : State} {i : Instr} {st : HostStmt} {a : Nat}

/-! ### What the host's step keeps -/

/-- `t` differs from `s` at most in ARG, OVR, the latch, the reset input and the model's own fields: what the host can write
without asserting reset (20_memory.md R70, 70_reset_and_hazards.md R211). -/
def SameSession (s t : State) : Prop :=
  t = { s with
    arg := t.arg, ovr := t.ovr, lcmd := t.lcmd, resetState := t.resetState, host := t.host
    busData := t.busData, busyFor := t.busyFor, issued := t.issued }

theorem sameSession_writeAt (off : Nat) (size : Size) (v : Word) (s : State) : SameSession s (writeAt off size v s) := by
  rcases writeAt_cases off size v s with h | ⟨h, -⟩ | ⟨h, -⟩ | ⟨h, -⟩ <;> rw [h] <;> rfl

theorem sameSession_releaseReset (s : State) : SameSession s (releaseReset s) := by
  unfold releaseReset
  split <;> rfl

theorem hostStep_sameSession (h : hostStep st s = .next t) (hst : st ≠ .assertReset) : SameSession s t := by
  rcases hostStep_cases h with ⟨rfl, -⟩ | ⟨-, rfl⟩ | ⟨-, ⟨_, _, _, -, -, rfl⟩ | ⟨_, size, v, off, -, -, rfl⟩ | ⟨-, -, rfl⟩ |
    ⟨-, -, rfl⟩⟩
  · exact absurd rfl hst
  · exact sameSession_releaseReset (nextStmt s)
  · rfl
  · exact sameSession_writeAt off size v (nextStmt (tick s))
  · rfl
  · rfl

/-- Settles O35: the step is the host's or nobody's, and the host writes none of these without asserting reset. -/
theorem hostStepsShowNoCommandEffect : Obligations.HostStepsShowNoCommandEffect := by
  intro s t h hengine hassert
  obtain ⟨-, ⟨hturn, -⟩ | ⟨st, hturn, hhost⟩ | ⟨-, rfl⟩⟩ := step_cases h
  · exact absurd hturn hengine
  · exact hostStep_sameSession hhost fun hst => hassert (hst ▸ hturn)
  · rfl

/-! ### The parameters -/

theorem SameSession.cfg (h : SameSession s t) : t.cfg = s.cfg := by
  rw [h]

theorem engineStep_cfg (h : engineStep s = .next t) : t.cfg = s.cfg := by
  rcases engineStep_cases h with ⟨-, rfl⟩ | ⟨-, ⟨i, -, hexec⟩ | ⟨_, -, rfl⟩⟩
  · rfl
  · exact (exec_frame hexec).cfg
  · rfl

theorem hostStep_cfg (h : hostStep st s = .next t) : t.cfg = s.cfg := by
  by_cases hst : st = .assertReset
  · subst hst
    cases h
    rfl
  · exact (hostStep_sameSession h hst).cfg

/-- Settles O41: neither agent writes the parameters, and the step checks them first. -/
theorem parametersAreFixed : Obligations.ParametersAreFixed := by
  refine ⟨fun s t h => ?_, fun s hlegal => if_neg (Bool.eq_false_iff.mp hlegal)⟩
  obtain ⟨-, ⟨-, hengine⟩ | ⟨st, -, hhost⟩ | ⟨-, rfl⟩⟩ := step_cases h
  · exact engineStep_cfg hengine
  · exact hostStep_cfg hhost
  · rfl

/-! ### The invariant of states with empty tables -/

theorem countsAgree_of_empty (htotal : s.total = 0) (hnleaf : s.nleaf = 0) (hfreq : s.freq = []) : CountsAgree s := by
  refine ⟨?_, ?_, ?_⟩
  · rw [htotal]
    have hzero : freqAt s = fun _ => 0 := funext fun k => by rw [freqAt, hfreq, Table.get_nil]
    simp [hzero]
  · rw [htotal]
    exact Nat.zero_le _
  · simp [hnleaf, hfreq, presentSymbols]

theorem sessionAgrees_of_counting (hphase : s.phase = .counting) (hnode : s.node = []) (hcode : s.code = [])
    (hroot : s.root = 0) : SessionAgrees s :=
  ⟨fun _ => ⟨hnode, hcode, hroot⟩, fun hready => by rw [hphase] at hready; cases hready⟩

theorem inv_resetOf {c : Config} (hlegal : c.legal = true) : (State.resetOf c).Inv where
  legal := hlegal
  memory := memory_wf_resetOf c
  stream := ⟨le_rfl, Nat.zero_le _⟩
  running _ := ⟨countsAgree_of_empty rfl rfl rfl, sessionAgrees_of_counting rfl rfl rfl rfl⟩
  reset h := absurd rfl h

/-- Settles O39: every table is empty and every register 0. -/
theorem invariantHoldsAtReset : Obligations.InvariantHoldsAtReset :=
  ⟨rfl, by decide, fun _ => inv_resetOf⟩

end Sys2Proof.Machine
end

section
/-! ## Every step keeps the invariant (10_state.md R45) -/

namespace Sys2Proof.Machine

open Sys2Proof

variable {s t : State} {i : Instr} {st : HostStmt} {a : Nat}

/-! ### Commands that leave the counts and the tree alone -/

/-- `t` has the parameters, the reset input, the counts, the tree and the codes of `s`. -/
def SameTree (s t : State) : Prop :=
  t = { t with
    cfg := s.cfg, phase := s.phase, total := s.total, nleaf := s.nleaf, root := s.root, freq := s.freq
    node := s.node, code := s.code, resetState := s.resetState }

/-- The stream of `t` is canonical and within its bounds (R44, R45 item 3). -/
abbrev StreamWf (t : State) : Prop := Table.wf 0 t.cfg.bsWords t.bs ∧ StreamBounds t

theorem State.Inv.streamWf (hinv : s.Inv) : StreamWf s := ⟨hinv.memory.2.2.2, hinv.stream⟩

/-- Out of reset the invariant speaks of the parameters, the counts, the tree, the codes and the stream only. -/
theorem State.Inv.of_sameTree (hinv : s.Inv) (hrun : s.resetState = .running) (h : SameTree s t) (hstream : StreamWf t) :
    t.Inv := by
  obtain ⟨hlegal, ⟨hfreq, hnode, hcode, -⟩, -, hrunning, -⟩ := hinv
  obtain ⟨hbs, hbounds⟩ := hstream
  rw [h] at hbs hbounds ⊢
  exact ⟨hlegal, ⟨hfreq, hnode, hcode, hbs⟩, hbounds, fun _ => hrunning hrun, fun hreset => absurd hrun hreset⟩

/-- BS_CAP is a whole number of words (00_scope.md R7, R8). -/
theorem bsWords_mul {c : Config} (hlegal : c.legal = true) : 32 * c.bsWords = c.bsCap := by
  simp only [Config.legal, Bool.and_eq_true, decide_eq_true_eq] at hlegal
  unfold Config.bsWords
  omega

/-- Every command but CLEAR, COUNT and BUILD writes results and the stream only, and keeps the stream's bounds. -/
theorem exec_sameTree (hinv : s.Inv) (hclear : i ≠ .clear) (hcount : ∀ a, i ≠ .count a) (hbuild : i ≠ .build)
    (h : exec i s = .next t) : SameTree s t ∧ StreamWf t := by
  have hkeeps := hinv.streamWf
  obtain ⟨hbs, hbsrd, hbslen⟩ := hkeeps
  cases i with
  | clear => exact absurd rfl hclear
  | count a => exact absurd rfl (hcount a)
  | build => exact absurd rfl hbuild
  | nop => obtain rfl := execNop_cases h; exact ⟨rfl, hbs, hbsrd, hbslen⟩
  | enc a =>
    obtain ⟨rfl, -⟩ | ⟨rfl, -⟩ | ⟨rfl, -⟩ | ⟨rfl, -⟩ | ⟨rfl, -, -, -, hfits⟩ := execEnc_cases h
    case inr.inr.inr.inr =>
      exact ⟨rfl, wf_writeBits hbs _ _ (by rwa [bsWords_mul hinv.legal]), hbsrd.trans (Nat.le_add_right _ _), hfits⟩
    all_goals exact ⟨rfl, hbs, hbsrd, hbslen⟩
  | dec =>
    obtain ⟨rfl, -⟩ | rfl | rfl | ⟨rfl, -⟩ | ⟨rfl, -, hne, -⟩ | ⟨v, p, rfl, -, -, -, hwalk⟩ := execDec_cases h
    case inr.inr.inr.inr.inl => exact ⟨rfl, hbs, Nat.succ_le_of_lt (hbsrd.lt_of_ne hne), hbslen⟩
    case inr.inr.inr.inr.inr =>
      obtain ⟨-, hlt, hle⟩ := decodeWalk_some hwalk
      exact ⟨rfl, hbs, show s.bsrd + (p - s.bsrd) ≤ s.bslen by omega, hbslen⟩
    all_goals exact ⟨rfl, hbs, hbsrd, hbslen⟩
  | rdfreq a => obtain ⟨rfl, -⟩ | ⟨rfl, -⟩ := execRdfreq_cases h <;> exact ⟨rfl, hbs, hbsrd, hbslen⟩
  | rdcode a =>
    obtain ⟨rfl, -⟩ | ⟨rfl, -⟩ | ⟨rfl, -⟩ | ⟨rfl, -⟩ := execRdcode_cases h <;> exact ⟨rfl, hbs, hbsrd, hbslen⟩
  | rdnode n => obtain ⟨rfl, -⟩ | ⟨rfl, -⟩ | ⟨rfl, -⟩ := execRdnode_cases h <;> exact ⟨rfl, hbs, hbsrd, hbslen⟩
  | wrbs j =>
    obtain ⟨rfl, -⟩ | ⟨rfl, hj⟩ := execWrbs_cases h
    · exact ⟨rfl, hbs, hbsrd, hbslen⟩
    · exact ⟨rfl, Table.wf_set hbs hj, hbsrd, hbslen⟩
  | rdbs j => obtain ⟨rfl, -⟩ | ⟨rfl, -⟩ := execRdbs_cases h <;> exact ⟨rfl, hbs, hbsrd, hbslen⟩
  | setbs =>
    obtain ⟨rfl, -⟩ | ⟨rfl, hle⟩ := execSetbs_cases h
    · exact ⟨rfl, hbs, hbsrd, hbslen⟩
    · exact ⟨rfl, hbs, Nat.zero_le _, hle⟩
  | rewind => obtain rfl := execRewind_cases h; exact ⟨rfl, hbs, Nat.zero_le _, hbslen⟩

/-- Taking an error or finishing with no write keeps the invariant. -/
theorem inv_complete (hinv : s.Inv) (hrun : s.resetState = .running) (e : Err) : (complete e s).Inv :=
  hinv.of_sameTree hrun rfl hinv.streamWf

/-! ### CLEAR, COUNT and BUILD -/

theorem inv_clearSession (hinv : s.Inv) (hrun : s.resetState = .running) : (clearSession s).Inv where
  legal := hinv.legal
  memory := memory_wf_clearSession s
  stream := ⟨le_rfl, Nat.zero_le _⟩
  running _ := ⟨countsAgree_of_empty rfl rfl rfl, sessionAgrees_of_counting rfl rfl rfl rfl⟩
  reset h := absurd hrun h

/-- One count goes up, so does the sum; and the number of present symbols goes up exactly when the symbol is new. -/
theorem countsAgree_countSymbol (hwf : Memory.wf s) (ha : a < s.cfg.nsym) (htotal : s.total ≠ s.cfg.cntMax)
    (h : CountsAgree s) : CountsAgree (countSymbol a s) := by
  obtain ⟨hsum, hle, hnleaf⟩ := h
  have hsame := freqAt_countSymbol_same hwf a
  have hother : ∀ k, k ≠ a → freqAt (countSymbol a s) k = freqAt s k := fun _ => freqAt_countSymbol_other hwf
  refine ⟨?_, ?_, ?_⟩
  · rw [countSymbol_total, countSymbol_cfg, sum_range_update ha hsame hother, ← hsum]
  · rw [countSymbol_total, countSymbol_cfg]
    omega
  · rw [countSymbol_nleaf, hnleaf]
    refine Eq.trans ?_ (length_present_update ha hsame hother).symm
    split <;> rfl

theorem inv_countSymbol (hinv : s.Inv) (hrun : s.resetState = .running) (hphase : s.phase = .counting)
    (ha : a < s.cfg.nsym) (htotal : s.total ≠ s.cfg.cntMax) : (countSymbol a s).Inv := by
  obtain ⟨hcounts, hcounting, -⟩ := hinv.running hrun
  obtain ⟨hnode, hcode, hroot⟩ := hcounting hphase
  exact ⟨hinv.legal, memory_wf_countSymbol hinv.memory ha, hinv.stream,
    fun _ => ⟨countsAgree_countSymbol hinv.memory ha htotal hcounts, sessionAgrees_of_counting hphase hnode hcode hroot⟩,
    fun h => absurd hrun h⟩

theorem inv_buildTables (hinv : s.Inv) (hrun : s.resetState = .running) (hphase : s.phase = .counting)
    (hnleaf : s.nleaf ≠ 0) : (buildTables s).Inv := by
  obtain ⟨hcounts, hcounting, -⟩ := hinv.running hrun
  obtain ⟨hnode, hcode, -⟩ := hcounting hphase
  have hpos : 1 ≤ s.nleaf := Nat.one_le_iff_ne_zero.mpr hnleaf
  have hle : s.nleaf ≤ s.cfg.nsym := hcounts.2.2 ▸ length_presentSymbols_le s.cfg s.freq
  refine ⟨hinv.legal, memory_wf_buildTables hinv.memory hnode hpos hle, hinv.stream,
    fun _ => ⟨hcounts, fun h => (by cases h), fun _ => ⟨hpos, ?_, ?_⟩⟩, fun h => absurd hrun h⟩
  · rw [← hnode]
    rfl
  · rw [← hcode]
    rfl

/-- Every command keeps the invariant. -/
theorem exec_inv (hinv : s.Inv) (hrun : s.resetState = .running) (h : exec i s = .next t) : t.Inv := by
  by_cases hclear : i = .clear
  · subst hclear
    rw [execClear_cases h]
    exact inv_complete (inv_clearSession hinv hrun) hrun _
  by_cases hcount : ∃ a, i = .count a
  · obtain ⟨a, rfl⟩ := hcount
    obtain ⟨rfl, -⟩ | ⟨rfl, -⟩ | ⟨rfl, -⟩ | ⟨rfl, hphase, ha, htotal⟩ := execCount_cases h
    case inr.inr.inr => exact inv_complete (inv_countSymbol hinv hrun hphase ha htotal) hrun _
    all_goals exact inv_complete hinv hrun _
  by_cases hbuild : i = .build
  · subst hbuild
    obtain ⟨rfl, -⟩ | ⟨rfl, -⟩ | ⟨rfl, hphase, hnleaf⟩ := execBuild_cases h
    case inr.inr => exact inv_complete (inv_buildTables hinv hrun hphase hnleaf) hrun _
    all_goals exact inv_complete hinv hrun _
  · obtain ⟨hsame, hstream⟩ := exec_sameTree hinv hclear (not_exists.mp hcount) hbuild h
    exact hinv.of_sameTree hrun hsame hstream

/-! ### The reset input and the host -/

/-- Until initialisation is complete the registers have their reset values, so completing it makes the tables agree. -/
theorem inv_completeInit (hinv : s.Inv) (hreset : s.resetState ≠ .running) : (completeInit s).Inv := by
  obtain ⟨⟨hphase, -, -, -, -, htotal, hnleaf, hroot, hbslen, hbsrd⟩, -⟩ := hinv.reset hreset
  exact ⟨hinv.legal, memory_wf_completeInit s, hinv.stream, fun _ =>
    ⟨countsAgree_of_empty htotal hnleaf rfl, sessionAgrees_of_counting hphase rfl rfl hroot⟩, fun h => absurd rfl h⟩

theorem inv_assertReset (hinv : s.Inv) : (assertReset s).Inv where
  legal := hinv.legal
  memory := hinv.memory
  stream := ⟨le_rfl, Nat.zero_le _⟩
  running h := by cases h
  reset _ := ⟨⟨rfl, rfl, rfl, rfl, rfl, rfl, rfl, rfl, rfl, rfl⟩, rfl⟩

/-- What the host may write without asserting reset is no part of the invariant, but for the reset input and the latch. -/
theorem State.Inv.of_sameSession (hinv : s.Inv) (h : SameSession s t)
    (hreset : t.resetState = .running ↔ s.resetState = .running)
    (hvalid : s.resetState ≠ .running → t.lcmd.valid = s.lcmd.valid) : t.Inv := by
  obtain ⟨hlegal, hmemory, hstream, hrunning, hresets⟩ := hinv
  have hresets' : t.resetState ≠ .running → RegistersAtReset s ∧ t.lcmd.valid = false := fun hr => by
    have hr' : s.resetState ≠ .running := fun hs => hr (hreset.mpr hs)
    obtain ⟨hregisters, hempty⟩ := hresets hr'
    exact ⟨hregisters, (hvalid hr').trans hempty⟩
  have hrunning' : t.resetState = .running → CountsAgree s ∧ SessionAgrees s := fun hr => hrunning (hreset.mp hr)
  rw [h]
  exact ⟨hlegal, hmemory, hstream, hrunning', hresets'⟩

theorem running_or_initialising (h : s.resetState ≠ .asserted) :
    s.resetState = .running ∨ s.resetState = .initialising := by
  cases hr : s.resetState with
  | asserted => exact absurd hr h
  | initialising => exact .inr rfl
  | running => exact .inl rfl

/-- A write of the window keeps the reset input, and latches a command only when the block is idle. -/
theorem writeAt_latch (off : Nat) (size : Size) (v : Word) (s : State) :
    (writeAt off size v s).resetState = s.resetState ∧ (busy s = true → (writeAt off size v s).lcmd = s.lcmd) := by
  rcases writeAt_cases off size v s with h | ⟨h, -⟩ | ⟨h, -⟩ | ⟨h, -, -, hidle⟩
  case inr.inr.inr =>
    rw [h]
    exact ⟨rfl, fun hbusy => by rw [hidle] at hbusy; cases hbusy⟩
  all_goals rw [h]; exact ⟨rfl, fun _ => rfl⟩

theorem busy_of_initialising (h : s.resetState = .initialising) : busy s = true := by simp [busy, h]

/-- The host's step keeps the invariant: during initialisation BUSY = 1, so no command is latched then. -/
theorem hostStep_inv (hinv : s.Inv) (h : hostStep st s = .next t) : t.Inv := by
  have hnext : (nextStmt s).Inv := hinv.of_sameSession rfl Iff.rfl fun _ => rfl
  rcases hostStep_cases h with ⟨-, rfl⟩ | ⟨-, rfl⟩ | ⟨hreset, ⟨_, _, _, -, -, rfl⟩ | ⟨_, size, v, off, -, -, rfl⟩ |
    ⟨-, -, rfl⟩ | ⟨-, -, rfl⟩⟩
  · exact inv_assertReset hnext
  · refine hnext.of_sameSession (sameSession_releaseReset _) ?_ fun _ => by rw [releaseReset_lcmd]
    rw [releaseReset_resetState]
    split
    · next hasserted => simp [show s.resetState = .asserted from hasserted]
    · exact Iff.rfl
  · exact hinv.of_sameSession rfl Iff.rfl fun _ => rfl
  · obtain ⟨hsame, hlatch⟩ := writeAt_latch off size v (nextStmt (tick s))
    refine hinv.of_sameSession (sameSession_writeAt off size v (nextStmt (tick s))) (by rw [hsame]; exact Iff.rfl)
      fun hrunning => congrArg Lcmd.valid (hlatch ?_)
    have hinit : s.resetState = .initialising := (running_or_initialising hreset).resolve_left hrunning
    exact busy_of_initialising (s := nextStmt (tick s)) hinit
  · exact hinv.of_sameSession rfl Iff.rfl fun _ => rfl
  · exact hinv.of_sameSession rfl Iff.rfl fun _ => rfl

theorem engineStep_inv (hinv : s.Inv) (hreset : s.resetState ≠ .asserted) (h : engineStep s = .next t) : t.Inv := by
  rcases engineStep_cases h with ⟨hinit, rfl⟩ | ⟨hinit, hlatched⟩
  · exact inv_completeInit hinv (by rw [hinit]; exact nofun)
  · have hrun : s.resetState = .running := by
      cases hr : s.resetState
      · exact absurd hr hreset
      · exact absurd hr hinit
      · rfl
    rcases hlatched with ⟨i, -, hexec⟩ | ⟨_, -, rfl⟩
    · exact exec_inv hinv hrun hexec
    · exact inv_complete hinv hrun _

/-- Settles O40: each agent's step keeps the invariant, and the engine moves only while reset is not asserted. -/
theorem stepKeepsTheInvariant : Obligations.StepKeepsTheInvariant := by
  intro s t hinv h
  obtain ⟨-, ⟨hturn, hengine⟩ | ⟨st, -, hhost⟩ | ⟨-, rfl⟩⟩ := step_cases h
  · rcases turn_cases s with ⟨-, -, hreset⟩ | ⟨hidle, -⟩ | ⟨_, _, hhost, -⟩
    · exact engineStep_inv hinv hreset hengine
    · rw [hturn] at hidle; cases hidle
    · rw [hturn] at hhost; cases hhost
  · exact hostStep_inv hinv hhost
  · exact hinv

end Sys2Proof.Machine
end

section
/-! ## The turns, ARG and reset (10_state.md R25, R40, 70_reset_and_hazards.md R200, R201, R216) -/

namespace Sys2Proof.Machine

open Sys2Proof

variable {s t : State} {i : Instr} {st : HostStmt} {w : Word}

/-! ### Whose turn it is -/

theorem turn_engine (hbusy : busy s = true) (hreset : s.resetState ≠ .asserted) (h : s.busyFor = 0 ∨ s.host = []) :
    turn s = .engine := if_pos ⟨hbusy, hreset, h⟩

/-- While the busy period may see more accesses, the host moves. -/
theorem turn_host {l : List HostStmt} (hhost : s.host = st :: l) (h : busy s = true → s.busyFor ≠ 0) :
    turn s = .host st := by
  have hengine : ¬ (busy s ∧ s.resetState ≠ .asserted ∧ (s.busyFor = 0 ∨ s.host = [])) := by
    rintro ⟨hbusy, -, h0 | h0⟩
    · exact h hbusy h0
    · rw [hhost] at h0; cases h0
  rw [turn, if_neg hengine, hhost]

theorem busy_of_valid (h : s.lcmd.valid = true) : busy s = true := by simp [busy, h]

theorem engineStep_of_running (hrun : s.resetState = .running) : engineStep s = runLatched s :=
  if_neg (by rw [hrun]; exact nofun)

/-- At its turn, out of reset, the engine runs the latched word and adds nothing. -/
theorem step_runLatched (hlegal : s.cfg.legal = true) (hrun : s.resetState = .running) (hvalid : s.lcmd.valid = true)
    (h : s.busyFor = 0 ∨ s.host = []) : step s = runLatched s := by
  rw [step_of_engine hlegal (turn_engine (busy_of_valid hvalid) (by rw [hrun]; exact nofun) h),
    engineStep_of_running hrun]

/-- Settles O5: the engine runs the latched word, which decodes to the command. -/
theorem stepRunsTheLatchedCommand : Obligations.StepRunsTheLatchedCommand := by
  intro s i hlegal hrun hvalid hturn hdecode
  rw [step_runLatched hlegal hrun hvalid hturn, runLatched_of_decode_ok hdecode]

theorem withFetchWord_eq (s : State) (w : Word) : s.withFetchWord 32 w.toNat = placeCommand w s := by
  rw [State.withFetchWord, Nat.mod_eq_of_lt w.isLt, BitVec.ofNat_toNat, BitVec.setWidth_eq]

/-- Settles O6: the placed word is the latched one, and no host access is left to its busy period. -/
theorem placedWordRunsNext : Obligations.PlacedWordRunsNext := by
  intro s w hlegal
  have hstep : step (placeCommand w s) = runLatched (placeCommand w s) := step_runLatched hlegal rfl rfl (.inl rfl)
  simp only [withFetchWord_eq, hstep]
  refine ⟨rfl, fun i hi => runLatched_of_decode_ok ?_, fun e he => ?_⟩
  · rw [latchedWord_placeCommand, hi]
  · rw [runLatched_of_decode_error (e := e) (by rw [latchedWord_placeCommand, he]), complete_eq_afterError]

/-! ### ARG -/

theorem engineStep_arg (h : engineStep s = .next t) :
    t.arg = s.arg ∨ (s.resetState = .initialising ∧ t.arg = 0) := by
  rcases engineStep_cases h with ⟨hinit, rfl⟩ | ⟨-, ⟨i, -, hexec⟩ | ⟨_, -, rfl⟩⟩
  · exact .inr ⟨hinit, rfl⟩
  · exact .inl (exec_frame hexec).arg
  · exact .inl rfl

theorem hostStep_arg (h : hostStep st s = .next t) :
    t.arg = s.arg ∨ (st = .assertReset ∧ t.arg = 0) ∨ st = .write (s.cfg.base + 0x10) .word t.arg := by
  rcases hostStep_cases h with ⟨hst, rfl⟩ | ⟨-, rfl⟩ | ⟨-, ⟨_, _, _, -, -, rfl⟩ | ⟨addr, size, v, off, rfl, hoff, rfl⟩ |
    ⟨-, -, rfl⟩ | ⟨-, -, rfl⟩⟩
  · exact .inr (.inl ⟨hst, rfl⟩)
  · exact .inl (releaseReset_arg _)
  · exact .inl rfl
  · rcases writeAt_cases off size v (nextStmt (tick s)) with hw | ⟨hw, rfl, rfl⟩ | ⟨hw, -⟩ | ⟨hw, -⟩
    case inr.inl =>
      rw [hw, addr_of_windowOffset hoff]
      exact .inr (.inr rfl)
    all_goals rw [hw]; exact .inl rfl
  · exact .inl rfl
  · exact .inl rfl

/-- Settles O32: no command writes ARG, and of the host's statements only the word write and the assertion of reset do. -/
theorem onlyTheHostWritesArg : Obligations.OnlyTheHostWritesArg := by
  refine ⟨fun i s t h => (exec_frame h).arg, fun s v hreset => hostStep_write hreset (by decide) .word v,
    fun s t h hne => ?_, fun _ => rfl, fun _ _ => rfl, fun _ => rfl⟩
  obtain ⟨-, ⟨hturn, hengine⟩ | ⟨st, hturn, hhost⟩ | ⟨-, rfl⟩⟩ := step_cases h
  · exact .inr (.inl ⟨hturn, (engineStep_arg hengine).resolve_left hne⟩)
  · rw [hturn]
    rcases (hostStep_arg hhost).resolve_left hne with ⟨rfl, harg⟩ | hst
    · exact .inl ⟨rfl, harg⟩
    · exact .inr (.inr (congrArg Turn.host hst))
  · exact absurd rfl hne

/-! ### Reset and its initialisation -/

/-- What completes under the invariant is R200's state, but for OVR and the empty latch's other fields (log 11, log 12). -/
theorem completeInit_eq_resetOf (h : RegistersAtReset s) :
    completeInit s = { State.resetOf s.cfg with
      ovr := s.ovr, lcmd := s.lcmd, host := s.host, busData := s.busData, busyFor := s.busyFor, issued := s.issued } := by
  obtain ⟨hphase, herr, hresult0, hresult1, hresult2, htotal, hnleaf, hroot, hbslen, hbsrd⟩ := h
  simp only [completeInit, State.resetOf, hphase, herr, hresult0, hresult1, hresult2, htotal, hnleaf, hroot, hbslen, hbsrd]

theorem releaseReset_of_asserted (h : s.resetState = .asserted) :
    releaseReset s = { s with
      resetState := .initialising, busyFor := Config.completionAccesses s.issued, issued := s.issued + 1 } := if_pos h

theorem runSteps_one (h : step s = .next t) : runSteps 1 s = .next t := runSteps_succ 0 h

/-- While reset is asserted the block is idle, so the host can release it. -/
theorem step_releaseReset {l : List HostStmt} (hlegal : s.cfg.legal = true) (hasserted : s.resetState = .asserted)
    (hvalid : s.lcmd.valid = false) (hhost : s.host = .releaseReset :: l) :
    step s = .next (releaseReset (nextStmt s)) := by
  have hidle : busy s = false := by simp [busy, hvalid, hasserted]
  exact step_of_host hlegal (turn_host hhost fun hbusy => by rw [hidle] at hbusy; cases hbusy)

/-- With no statement left the initialisation completes in one step. -/
theorem step_completeInit (hlegal : s.cfg.legal = true) (hinit : s.resetState = .initialising)
    (hturn : turn s = .engine) : step s = .next (completeInit s) := by
  rw [step_of_engine hlegal hturn, engineStep, if_pos hinit]

/-- The assertion, the release and the completion, one step each. -/
theorem runSteps_reset (hlegal : s.cfg.legal = true) (hhost : s.host = [.assertReset, .releaseReset])
    (hturn : turn s = .host .assertReset) :
    runSteps 3 s = .next (completeInit (releaseReset (nextStmt (assertReset (nextStmt s))))) := by
  have hassert : step s = .next (assertReset (nextStmt s)) := step_of_host hlegal hturn
  have hrelease : step (assertReset (nextStmt s)) = .next (releaseReset (nextStmt (assertReset (nextStmt s)))) :=
    step_releaseReset (s := assertReset (nextStmt s)) (l := []) hlegal rfl rfl (by simp [hhost])
  have hinit : (releaseReset (nextStmt (assertReset (nextStmt s)))).resetState = .initialising := by
    rw [releaseReset_resetState]
    exact if_pos rfl
  have hcomplete := step_completeInit (s := releaseReset (nextStmt (assertReset (nextStmt s)))) (by simpa using hlegal)
    hinit (turn_engine (busy_of_initialising hinit) (by rw [hinit]; exact nofun) (.inr (by simp [hhost])))
  exact (runSteps_succ 2 hassert).trans ((runSteps_succ 1 hrelease).trans (runSteps_one hcomplete))

/-- Settles O37: the two edges and the completion write the reset values one after the other, and what the host can do
during an initialisation reaches OVR only. -/
theorem resetGivesTheResetState : Obligations.ResetGivesTheResetState := by
  refine ⟨fun s hlegal hhost hturn => ⟨_, runSteps_reset hlegal hhost hturn, ?_⟩, fun s hinv hinit hturn => ?_⟩
  · rw [releaseReset_of_asserted (s := nextStmt (assertReset (nextStmt s))) rfl]
    simp [completeInit, nextStmt, assertReset, State.resetOf, hhost]
  · obtain ⟨hregisters, hvalid⟩ := hinv.reset (by rw [hinit]; exact nofun)
    rw [step_completeInit hinv.legal hinit hturn, completeInit_eq_resetOf hregisters]
    exact ⟨rfl, hvalid⟩

theorem eos_of_registersAtReset (h : RegistersAtReset s) : eos s = true := by
  obtain ⟨-, -, -, -, -, -, -, -, hbslen, hbsrd⟩ := h
  simp [eos, hbslen, hbsrd]

/-- The read-only registers but STATUS read what they read after reset. -/
theorem regAt_of_registersAtReset (h : RegistersAtReset s) {off : Nat}
    (hoff : off ∈ [0x00, 0x04, 0x08, 0x18, 0x1C, 0x20, 0x24, 0x28, 0x2C, 0x30, 0x34]) :
    regAt s off = regAt (State.resetOf s.cfg) off := by
  obtain ⟨-, -, hresult0, hresult1, hresult2, htotal, hnleaf, hroot, hbslen, hbsrd⟩ := h
  simp only [List.mem_cons, List.not_mem_nil, or_false] at hoff
  rcases hoff with rfl | rfl | rfl | rfl | rfl | rfl | rfl | rfl | rfl | rfl | rfl
  · rfl
  · rfl
  · rfl
  · exact hresult0
  · exact hresult1
  · exact hresult2
  · exact congrArg zext32 htotal
  · exact congrArg zext32 hnleaf
  · exact congrArg zext32 hroot
  · exact congrArg zext32 hbslen
  · exact congrArg zext32 hbsrd

/-- Settles O38: BUSY is 1 during initialisation, and the registers have their reset values. -/
theorem initialisationIsBusy : Obligations.InitialisationIsBusy := by
  intro s hinv hinit
  have hbusy := busy_of_initialising hinit
  obtain ⟨hregisters, -⟩ := hinv.reset (by rw [hinit]; exact nofun)
  refine ⟨hbusy, fun hovr => ?_, fun off => regAt_of_registersAtReset hregisters,
    fun w => cmdWriteWhileBusyIsDropped s w (by rw [hinit]; exact nofun) hbusy⟩
  rw [statusWord, hbusy, hovr, eos_of_registersAtReset hregisters, hregisters.1, hregisters.2.1]
  decide

/-! ### The end of a run -/

/-- What the engine does under the invariant leaves the block idle and out of reset, with the host's program as it was. -/
theorem engineStep_next (hinv : s.Inv) (hreset : s.resetState ≠ .asserted) :
    ∃ t, engineStep s = .next t ∧ t.cfg = s.cfg ∧ t.host = s.host ∧ t.resetState = .running ∧ t.lcmd.valid = false := by
  rcases running_or_initialising hreset with hrun | hinit
  · rw [engineStep_of_running hrun]
    cases hword : decode (latchedWord s) with
    | ok i =>
      obtain ⟨t, hexec⟩ := exec_next i s
      have hframe := exec_frame hexec
      exact ⟨t, (runLatched_of_decode_ok hword).trans hexec, hframe.cfg, hframe.host, hframe.resetState.trans hrun,
        by rw [hframe.lcmd]⟩
    | error e => exact ⟨_, runLatched_of_decode_error hword, rfl, rfl, hrun, rfl⟩
  · exact ⟨_, if_pos hinit, rfl, rfl, rfl, (hinv.reset (by rw [hinit]; exact nofun)).2⟩

theorem busy_of_running (hrun : s.resetState = .running) : busy s = s.lcmd.valid := by simp [busy, hrun]

/-- While reset is asserted no command is latched, so BUSY = 0. -/
theorem not_busy_of_asserted (hinv : s.Inv) (h : s.resetState = .asserted) : busy s = false := by
  obtain ⟨-, hvalid⟩ := hinv.reset (by rw [h]; exact nofun)
  simp [busy, h, hvalid]

theorem turn_idle_iff (hinv : s.Inv) : turn s = .idle ↔ s.Ended := by
  constructor
  · intro hidle
    rcases turn_cases s with ⟨h, -⟩ | ⟨-, hhost⟩ | ⟨_, _, h, -⟩
    · rw [hidle] at h; cases h
    · have hbusy : busy s = false := Bool.eq_false_iff.mpr fun hbusy => by
        have hreset : s.resetState ≠ .asserted := fun h => by
          rw [not_busy_of_asserted hinv h] at hbusy; cases hbusy
        rw [turn_engine hbusy hreset (.inr hhost)] at hidle
        cases hidle
      exact ⟨hhost, (Bool.or_eq_false_iff.mp hbusy).1, hbusy⟩
    · rw [hidle] at h; cases h
  · rintro ⟨hhost, -, hbusy⟩
    rw [turn, if_neg (by simp [hbusy]), hhost]

/-- Settles O60: an idle turn has nothing latched and nothing to perform; and with no statement left the engine ends the
busy period in one step. -/
theorem runEndsWhenNobodyMoves : Obligations.RunEndsWhenNobodyMoves := by
  refine fun s hinv => ⟨turn_idle_iff hinv, fun hended => ?_, fun hhost hbusy => ?_⟩
  · rw [step, if_pos hinv.legal, (turn_idle_iff hinv).mpr hended]
  · have hreset : s.resetState ≠ .asserted := fun h => by
      rw [not_busy_of_asserted hinv h] at hbusy; cases hbusy
    have hturn := turn_engine hbusy hreset (.inr hhost)
    obtain ⟨t, hengine, -, hhost', hrun, hvalid⟩ := engineStep_next hinv hreset
    exact ⟨hturn, t, (step_of_engine hinv.legal hturn).trans hengine, hhost'.trans hhost, hvalid,
      (busy_of_running hrun).trans hvalid⟩

end Sys2Proof.Machine
end

section
/-! ## POLL and the mnemonics (30_encoding.md R88, 70_reset_and_hazards.md R214)

A POLL reads STATUS until the busy period is over, the engine completes it, and one more read sees BUSY = 0. -/

namespace Sys2Proof.Machine

open Sys2Proof

variable {s t u : State} {i : Instr} {st : HostStmt} {rest : List HostStmt}

/-! ### POLL -/

/-- `s` with other values in the busy counter and on the bus, as the reads of a POLL leave it. -/
def polled (b : Nat) (d : Option Word) (s : State) : State := { s with busyFor := b, busData := d }

/-- A POLL whose busy period has begun makes all its reads and leaves the rest to the engine. -/
theorem runSteps_poll_busy (hlegal : s.cfg.legal = true) (hreset : s.resetState ≠ .asserted) (hbusy : busy s = true)
    (hhost : s.host = .poll :: rest) : ∃ d, runSteps s.busyFor s = .next (polled 0 d s) := by
  induction hb : s.busyFor generalizing s with
  | zero => exact ⟨s.busData, congrArg Host.Outcome.next (by rw [polled, ← hb])⟩
  | succ b ih =>
    have hstep : step s = .next (polled b (some (statusWord s)) s) := by
      rw [step_of_host hlegal (turn_host hhost fun _ => by omega), hostStep, if_neg hreset, hostPoll, if_pos hbusy,
        tick, polled, hb]
      rfl
    obtain ⟨d, hd⟩ := ih (s := polled b (some (statusWord s)) s) hlegal hreset hbusy hhost rfl
    exact ⟨d, (runSteps_succ b hstep).trans hd⟩

/-- The state after the read of a POLL that sees BUSY = 0. -/
def pollDone (s : State) : State := readDone (statusWord s) s

theorem step_poll_idle (hlegal : s.cfg.legal = true) (hreset : s.resetState ≠ .asserted) (hidle : busy s = false)
    (hhost : s.host = .poll :: rest) : step s = .next (pollDone s) := by
  have hturn := turn_host hhost fun hbusy => by rw [hidle] at hbusy; cases hbusy
  rw [step_of_host hlegal hturn, hostStep, if_neg hreset, hostPoll, if_neg (Bool.eq_false_iff.mp hidle)]
  rfl

/-- The last read of a POLL shows the STATUS word of the state it leaves. -/
theorem busData_pollDone (s : State) : (pollDone s).busData = some (statusWord (pollDone s)) := by
  rw [pollDone, statusWord_readDone]
  rfl

theorem busy_pollDone (s : State) : busy (pollDone s) = busy s := rfl

theorem host_pollDone (hhost : s.host = .poll :: rest) : (pollDone s).host = rest := by
  rw [pollDone, readDone, nextStmt_host, tick_host, hhost]
  rfl

/-- Settles O58: the reads of the busy period, the engine's step and the last read end the POLL; on an idle block the first
read does. -/
theorem pollEndsAfterTheBusyPeriod : Obligations.PollEndsAfterTheBusyPeriod := by
  intro s rest hinv hreset hhost
  cases hbusy : busy s with
  | false =>
    exact ⟨1, _, by omega, runSteps_one (step_poll_idle hinv.legal hreset hbusy hhost), host_pollDone hhost,
      (busy_pollDone s).trans hbusy, busData_pollDone s⟩
  | true =>
    obtain ⟨d, hreads⟩ := runSteps_poll_busy hinv.legal hreset hbusy hhost
    have hpolled : (polled 0 d s).Inv := hinv.of_sameSession rfl Iff.rfl fun _ => rfl
    obtain ⟨t, hengine, hcfg, hhost', hrun, hvalid⟩ := engineStep_next hpolled hreset
    have hstep : step (polled 0 d s) = .next t :=
      (step_of_engine (s := polled 0 d s) hinv.legal (turn_engine hbusy hreset (.inl rfl))).trans hengine
    have hhost'' : t.host = .poll :: rest := hhost'.trans hhost
    have hidle : busy t = false := (busy_of_running hrun).trans hvalid
    have hlast : step t = .next (pollDone t) :=
      step_poll_idle (by rw [hcfg]; exact hinv.legal) (by rw [hrun]; exact nofun) hidle hhost''
    exact ⟨s.busyFor + 2, pollDone t, le_rfl,
      (runSteps_add s.busyFor 2 hreads).trans ((runSteps_succ 1 hstep).trans (runSteps_one hlast)),
      host_pollDone hhost'', (busy_pollDone t).trans hidle, busData_pollDone t⟩

/-! ### The expansion of a mnemonic -/

/-- Some number of steps leads from `s` to `t`. -/
def Reaches (s t : State) : Prop := ∃ n, runSteps n s = .next t

theorem Reaches.refl (s : State) : Reaches s s := ⟨0, rfl⟩

theorem Reaches.of_step (h : step s = .next t) : Reaches s t := ⟨1, runSteps_one h⟩

theorem Reaches.trans (h : Reaches s t) (h' : Reaches t u) : Reaches s u := by
  obtain ⟨m, hm⟩ := h
  obtain ⟨n, hn⟩ := h'
  exact ⟨m + n, (runSteps_add m n hm).trans hn⟩

/-- ARG as the command finds it: the mnemonic's value where the command uses it (30_encoding.md R82). -/
def argOf (i : Instr) (v : Word) (s : State) : Word := if Instr.usesArg i then v else s.arg

/-- An idle block performs the next statement of the host. -/
theorem step_of_idle (hlegal : s.cfg.legal = true) (hidle : busy s = false) (hhost : s.host = st :: rest) :
    step s = hostStep st s :=
  step_of_host hlegal (turn_host hhost fun hbusy => by rw [hidle] at hbusy; cases hbusy)

/-- `WR ARG`, where the command uses ARG, leads to the state with ARG written and `WR CMD` next. -/
theorem reaches_wrCmd (hlegal : s.cfg.legal = true) (hreset : s.resetState ≠ .asserted) (hidle : busy s = false)
    {v : Word} (hhost : s.host = expand s.cfg i v ++ rest) :
    ∃ b, Reaches s { s with arg := argOf i v s, host := wrCmd s.cfg (encode i) :: .poll :: rest, busyFor := b } := by
  unfold expand at hhost
  unfold argOf
  cases harg : Instr.usesArg i with
  | false =>
    rw [harg] at hhost
    refine ⟨s.busyFor, ?_⟩
    simp only [Bool.false_eq_true, if_false]
    rw [show wrCmd s.cfg (encode i) :: .poll :: rest = s.host from hhost.symm]
    exact .refl s
  | true =>
    rw [harg] at hhost
    have hstep : step s = .next { s with arg := v, host := s.host.tail, busyFor := s.busyFor - 1 } :=
      (step_of_idle hlegal hidle hhost).trans (hostStep_write hreset (by decide) .word v)
    rw [hhost] at hstep
    exact ⟨s.busyFor - 1, .of_step hstep⟩

/-- The state in which an issued command runs, its busy period over: the word latched with the ARG of its issue. -/
def latched (i : Instr) (s : State) : State :=
  { s with lcmd := { valid := true, op := i.opcode, a := BitVec.ofNat 24 i.operand, arg := s.arg } }

theorem latchedWord_latched (i : Instr) (s : State) (h : List HostStmt) (d : Option Word) (b n : Nat) :
    latchedWord (withOwnFields h d b n (latched i s)) = encode i := by
  simp only [latchedWord, withOwnFields, latched, encode]

/-- After `WR CMD` on an idle block and the reads of the POLL that follows, the engine is about to run the command. -/
theorem reaches_latched (hlegal : s.cfg.legal = true) (hreset : s.resetState ≠ .asserted) (hidle : busy s = false)
    (hhost : s.host = wrCmd s.cfg (encode i) :: .poll :: rest) :
    ∃ d, Reaches s (withOwnFields (.poll :: rest) d 0 (s.issued + 1) (latched i s)) := by
  have hissue : step s = .next (issue (encode i) (nextStmt (tick s))) := by
    rw [step_of_idle hlegal hidle hhost, wrCmd, hostStep_writeCmd hreset,
      writeCmd_of_idle (s := nextStmt (tick s)) hidle]
  have hpoll : (issue (encode i) (nextStmt (tick s))).host = .poll :: rest := by
    rw [issue_host, nextStmt_host, tick_host, hhost]
    rfl
  obtain ⟨d, hreads⟩ := runSteps_poll_busy (s := issue (encode i) (nextStmt (tick s))) hlegal hreset (busy_issue _ _)
    hpoll
  refine ⟨d, (Reaches.of_step hissue).trans ⟨_, hreads.trans (congrArg Host.Outcome.next ?_)⟩⟩
  simp [polled, withOwnFields, latched, issue, nextStmt, tick, encode, hhost]

/-- A latched command whose busy period is over runs in one step, and the next read ends the POLL. -/
theorem reaches_pollDone (hlegal : s.cfg.legal = true) (hrun : s.resetState = .running) (hwf : i.wf = true)
    (hexec : exec i (latched i s) = .next t) (d : Option Word) (n : Nat) :
    Reaches (withOwnFields (.poll :: rest) d 0 n (latched i s)) (pollDone (withOwnFields (.poll :: rest) d 0 n t)) := by
  have hframe := exec_frame hexec
  have hdone : step (withOwnFields (.poll :: rest) d 0 n (latched i s)) =
      .next (withOwnFields (.poll :: rest) d 0 n t) := by
    rw [step_runLatched (s := withOwnFields _ d 0 n (latched i s)) hlegal hrun rfl (.inl rfl),
      runLatched_of_decode_ok (by rw [latchedWord_latched, decode_encode hwf]), exec_withOwnFields, hexec]
    rfl
  have hrun' : t.resetState = .running := hframe.resetState.trans hrun
  refine (Reaches.of_step hdone).trans (.of_step (step_poll_idle (rest := rest) ?_ ?_ ?_ rfl))
  · exact (congrArg Config.legal hframe.cfg).trans hlegal
  · exact fun h => by rw [show t.resetState = .asserted from h] at hrun'; cases hrun'
  · exact (busy_of_running (s := withOwnFields _ d 0 n t) hrun').trans (congrArg Lcmd.valid hframe.lcmd)

/-- The end of a mnemonic's POLL leaves the command's state with the rest of the program to perform. -/
theorem pollDone_withOwnFields (t : State) (d : Option Word) (n : Nat) :
    pollDone (withOwnFields (.poll :: rest) d 0 n t) = { t with
      host := rest, busData := some (statusWord (pollDone (withOwnFields (.poll :: rest) d 0 n t)))
      busyFor := (pollDone (withOwnFields (.poll :: rest) d 0 n t)).busyFor, issued := n } := by
  rw [pollDone, statusWord_readDone]
  rfl

/-- Settles O59: WR ARG, WR CMD with the reads of the POLL, and the engine's step with the last read, one after the
other. -/
theorem mnemonicRunsItsCommand : Obligations.MnemonicRunsItsCommand := by
  intro s i v rest hinv hrun hidle hwf hhost
  have hreset : s.resetState ≠ .asserted := by rw [hrun]; exact nofun
  obtain ⟨b, harg⟩ := reaches_wrCmd hinv.legal hreset hidle hhost
  obtain ⟨d, hlatched⟩ := reaches_latched (rest := rest) (i := i)
    (s := { s with arg := argOf i v s, host := wrCmd s.cfg (encode i) :: .poll :: rest, busyFor := b })
    hinv.legal hreset hidle rfl
  obtain ⟨t, hexec⟩ := exec_next i (latched i { s with arg := argOf i v s })
  obtain ⟨n, hn⟩ := (harg.trans hlatched).trans (reaches_pollDone (s := { s with arg := argOf i v s }) (rest := rest)
    hinv.legal hrun hwf hexec d (s.issued + 1))
  exact ⟨n, t, _, hn, hexec, pollDone_withOwnFields t d (s.issued + 1)⟩

end Sys2Proof.Machine
end

section
/-! ## The shape of the tree and its frequencies (42_tree_builder.md R120 to R124)

Beside what GrowsFrom says, each merge keeps the frequencies of the collection's members summing to the leaves' sum, and
writes one node at the end. A one-leaf tree is the case of no merge. -/

namespace Sys2Proof.Machine

open Sys2Proof

variable {t : Table Node} {freq : Table Nat} {ks q : List Nat} {i j k n next root : Nat} {s : State}

/-! ### What the merge loop keeps -/

/-- The frequency of a node. -/
def nodeFreq (t : Table Node) (i : Nat) : Nat := (nodeGet t i).freq

/-- The sum of the leaves' frequencies. -/
def leafSum (freq : Table Nat) (ks : List Nat) : Nat := (ks.map (Table.get 0 freq)).sum

/-- Before node `next` is made: the internal nodes have no symbol, nothing is written from `next` on, the collection's
frequencies sum to the leaves', and no node's frequency is larger. -/
structure Weighs (freq : Table Nat) (ks : List Nat) (t : Table Node) (q : List Nat) (next : Nat) : Prop where
  grows : GrowsFrom freq ks t q next
  sym_eq : ∀ {i}, ks.length ≤ i → i < next → (nodeGet t i).sym = 0
  blank : ∀ {i}, next ≤ i → nodeGet t i = Node.zero
  sum_eq : (q.map (nodeFreq t)).sum = leafSum freq ks
  freq_le : ∀ i, nodeFreq t i ≤ leafSum freq ks

theorem nodeGet_writeLeaves_of_ge (ks : List Nat) (h : j + ks.length ≤ i) :
    nodeGet (writeLeaves freq t j ks) i = nodeGet t i := by
  induction ks generalizing t j with
  | nil => rfl
  | cons k ks ih =>
    rw [List.length_cons] at h
    exact (ih (by omega)).trans (Table.get_set_other (by omega))

theorem weighs_writeLeaves (freq : Table Nat) (ks : List Nat) :
    Weighs freq ks (writeLeaves freq [] 0 ks) (List.range ks.length) ks.length := by
  have hgrows := growsFrom_writeLeaves freq ks
  have hblank : ∀ {i}, ks.length ≤ i → nodeGet (writeLeaves freq [] 0 ks) i = Node.zero := fun hi =>
    nodeGet_writeLeaves_of_ge ks (by omega)
  have hleaf : ∀ i (hi : i < ks.length), nodeFreq (writeLeaves freq [] 0 ks) i = Table.get 0 freq ks[i] := fun i hi => by
    rw [nodeFreq, hgrows.leaf (List.getElem?_eq_getElem hi), leafNode]
  refine ⟨hgrows, fun hge hlt => absurd hlt hge.not_gt, hblank, ?_, fun i => ?_⟩
  · refine congrArg List.sum (List.ext_getElem (by simp) fun i hi _ => ?_)
    have hlt : i < ks.length := by simpa using hi
    simp [hleaf i hlt]
  · by_cases hi : i < ks.length
    · rw [hleaf i hi]
      exact List.single_le_sum (fun _ _ => Nat.zero_le _) _ (List.mem_map_of_mem (List.getElem_mem hi))
    · rw [nodeFreq, hblank (Nat.not_lt.mp hi)]
      exact Nat.zero_le _

/-- A merge replaces two members by one with the sum of their frequencies. -/
theorem Weighs.merge {x y : Nat} {q1 q2 : List Nat} (h : Weighs freq ks t q next)
    (hx : removeLeast t q = some (x, q1)) (hy : removeLeast t q1 = some (y, q2)) :
    Weighs freq ks (nodeSet t next (mergedNode t x y)) (next :: q2) (next + 1) := by
  have hsorted := h.grows.collects.sorted
  have hsum : nodeFreq t x + (nodeFreq t y + (q2.map (nodeFreq t)).sum) = leafSum freq ks := by
    obtain ⟨hxq, rfl, -⟩ := removeLeast_some hx
    obtain ⟨hyq, rfl, -⟩ := removeLeast_some hy
    rw [List.sum_map_erase (nodeFreq t) hyq, List.sum_map_erase (nodeFreq t) hxq, h.sum_eq]
  have hnew : nodeFreq (nodeSet t next (mergedNode t x y)) next = nodeFreq t x + nodeFreq t y := by
    rw [nodeFreq, nodeGet_nodeSet hsorted, if_pos rfl]
    rfl
  have hold : ∀ {i}, i ≠ next → nodeFreq (nodeSet t next (mergedNode t x y)) i = nodeFreq t i := fun hi => by
    rw [nodeFreq, nodeGet_nodeSet hsorted, if_neg hi, nodeFreq]
  have hq2 : ∀ i ∈ q2, i ≠ next := by
    obtain ⟨-, rfl, -⟩ := removeLeast_some hx
    obtain ⟨-, rfl, -⟩ := removeLeast_some hy
    exact fun i hi => ((h.grows.collects.mem_iff i).mp (List.mem_of_mem_erase (List.mem_of_mem_erase hi))).1.ne
  refine ⟨h.grows.merge hx hy, fun hge hlt => ?_, fun hge => ?_, ?_, fun i => ?_⟩
  · rw [nodeGet_nodeSet hsorted]
    split
    · rfl
    · exact h.sym_eq hge (by omega)
  · rw [nodeGet_nodeSet hsorted, if_neg (by omega)]
    exact h.blank (by omega)
  · rw [List.map_cons, List.sum_cons, hnew, List.map_congr_left fun i hi => hold (hq2 i hi), Nat.add_assoc, hsum]
  · by_cases hi : i = next
    · rw [hi, hnew]
      omega
    · rw [hold hi]
      exact h.freq_le i

/-- TreeBuild is its merge loop also where there is nothing to merge. -/
theorem treeBuild_eq_mergeLoop (c : Config) (freq : Table Nat) (t : Table Node) (n : Nat) :
    treeBuild c freq n t = mergeLoop (n - 1) (writeLeaves freq t 0 (presentSymbols c freq)) (List.range n) n := by
  unfold treeBuild
  split
  · next h => subst h; rfl
  · rfl

theorem weighs_treeBuild (c : Config) (freq : Table Nat) (hn : 1 ≤ (presentSymbols c freq).length) :
    (treeBuild c freq (presentSymbols c freq).length []).2 + 2 = 2 * (presentSymbols c freq).length ∧
      Weighs freq (presentSymbols c freq) (treeBuild c freq (presentSymbols c freq).length []).1
        [(treeBuild c freq (presentSymbols c freq).length []).2]
        ((treeBuild c freq (presentSymbols c freq).length []).2 + 1) := by
  rw [treeBuild_eq_mergeLoop]
  obtain ⟨hroot, r, hweighs⟩ := mergeLoop_induction (P := Weighs freq (presentSymbols c freq)) Weighs.merge
    ((presentSymbols c freq).length - 1) (weighs_writeLeaves freq (presentSymbols c freq))
    (by rw [List.length_range]; omega) hn
  have hlast := hweighs.grows.root_eq
  exact ⟨by omega, hlast ▸ hweighs⟩

/-- In READY the tree is finished, whatever the number of leaves. -/
theorem ready_weighs (hinv : s.Inv) (hrun : s.resetState = .running) (hready : s.phase = .ready) :
    s.nleaf = (presentSymbols s.cfg s.freq).length ∧ s.root + 2 = 2 * s.nleaf ∧
      Weighs s.freq (presentSymbols s.cfg s.freq) s.node [s.root] (s.root + 1) := by
  obtain ⟨⟨-, -, hnleaf⟩, -, hsession⟩ := hinv.running hrun
  obtain ⟨hpos, hbuilt, -⟩ := hsession hready
  obtain ⟨hroot, hweighs⟩ := weighs_treeBuild s.cfg s.freq (hnleaf ▸ hpos)
  rw [← hnleaf, ← hbuilt] at hroot hweighs
  exact ⟨hnleaf, hroot, hweighs⟩

/-! ### The shape -/

/-- A node of the finished tree other than the root has one parent. -/
theorem GrowsFrom.exists_unique_parent (h : GrowsFrom freq ks t [root] (root + 1)) (hj : j < root) :
    ∃ p, (ks.length ≤ p ∧ p ≤ root ∧ ((nodeGet t p).left = j ∨ (nodeGet t p).right = j)) ∧
      ∀ q, ks.length ≤ q → q ≤ root → (nodeGet t q).left = j ∨ (nodeGet t q).right = j → q = p := by
  have hchild : ∀ p, ((nodeGet t p).left = j ∨ (nodeGet t p).right = j) ↔ ∃ b, child (nodeGet t p) b = j := fun p => by
    simp [child, or_comm]
  obtain ⟨p, b, hge, hle, hp⟩ := h.exists_parent hj
  refine ⟨p, ⟨hge, hle, (hchild p).mpr ⟨b, hp⟩⟩, fun q hgeq hleq hq => ?_⟩
  obtain ⟨c, hc⟩ := (hchild q).mp hq
  exact (h.child_injective hgeq hge (Nat.lt_succ_of_le hleq) (Nat.lt_succ_of_le hle) (hc.trans hp.symm)).1

/-- Settles O42: the leaves and the merges are those of the finished tree, each node but the root is merged once, and
nothing is written after the root. -/
theorem treeShape : Obligations.TreeShape := by
  intro s hinv hrun hready hn
  obtain ⟨hnleaf, hroot, hweighs⟩ := ready_weighs hinv hrun hready
  have hgrows := hweighs.grows
  refine ⟨by omega, fun j hj => ?_, fun i hge hle => ?_, fun j hj => ?_, fun i hi => hweighs.blank hi⟩
  · have hj' : j < (presentSymbols s.cfg s.freq).length := hnleaf ▸ hj
    rw [List.getD_eq_getElem _ _ hj']
    exact hgrows.leaf (List.getElem?_eq_getElem hj')
  · have hge' : (presentSymbols s.cfg s.freq).length ≤ i := hnleaf ▸ hge
    have hmerge := hgrows.collects.merges i hge' (Nat.lt_succ_of_le hle)
    exact ⟨hgrows.internal hge' (Nat.lt_succ_of_le hle), hweighs.sym_eq hge' (Nat.lt_succ_of_le hle),
      hmerge.left_mem.1, hmerge.right_mem.1, fun heq => hmerge.left_first.ne (congrArg (nodeKey s.node) heq)⟩
  · rw [hnleaf]
    exact hgrows.exists_unique_parent hj

/-! ### The frequencies -/

/-- Symbols that were not counted add nothing. -/
theorem sum_map_filter_pos (f : Nat → Nat) (l : List Nat) :
    ((l.filter fun k => decide (0 < f k)).map f).sum = (l.map f).sum := by
  induction l with
  | nil => rfl
  | cons k l ih =>
    rw [List.filter_cons]
    split
    · rw [List.map_cons, List.map_cons, List.sum_cons, List.sum_cons, ih]
    · next h =>
      have h0 : f k = 0 := by simpa using h
      rw [List.map_cons, List.sum_cons, ih, h0, Nat.zero_add]

theorem leafSum_eq_total (hinv : s.Inv) (hrun : s.resetState = .running) :
    leafSum s.freq (presentSymbols s.cfg s.freq) = s.total := by
  obtain ⟨⟨htotal, -⟩, -⟩ := hinv.running hrun
  rw [htotal]
  exact sum_map_filter_pos (freqAt s) (List.range s.cfg.nsym)

/-- Settles O44: the root is the collection's last member, so its frequency is the sum of the leaves', which is TOTAL. -/
theorem rootFrequencyIsTotal : Obligations.RootFrequencyIsTotal := by
  intro s hinv hrun hready
  obtain ⟨-, -, hweighs⟩ := ready_weighs hinv hrun hready
  obtain ⟨⟨-, hmax, -⟩, -⟩ := hinv.running hrun
  have hsum := leafSum_eq_total hinv hrun
  have hlt : s.total < 2 ^ s.cfg.cntW := hmax.trans_lt (Nat.sub_lt (Nat.two_pow_pos _) Nat.one_pos)
  refine ⟨?_, fun i => ⟨hsum ▸ hweighs.freq_le i, hlt⟩⟩
  rw [← hsum, ← hweighs.sum_eq]
  simp [nodeFreq, nodeAt]

/-! ### One symbol -/

/-- With one symbol counted, it is the only one with a count. -/
theorem exists_counted_of_oneLeaf (hinv : s.Inv) (hrun : s.resetState = .running) (hn : s.nleaf = 1) :
    ∃ k, presentSymbols s.cfg s.freq = [k] ∧ ∀ j, 0 < freqAt s j ↔ j = k := by
  obtain ⟨⟨-, -, hnleaf⟩, -⟩ := hinv.running hrun
  obtain ⟨k, hk⟩ := List.length_eq_one_iff.mp (hnleaf.symm.trans hn)
  refine ⟨k, hk, fun j => ?_⟩
  rw [← List.mem_singleton, ← hk, mem_presentSymbols]
  exact ⟨fun hj => ⟨lt_nsym_of_counted hinv.memory hj, hj⟩, And.right⟩

/-- In READY with one leaf, every index of CODE but the counted symbol's has no code. -/
theorem codeAt_of_oneLeaf_eq (hinv : s.Inv) (hrun : s.resetState = .running) (hready : s.phase = .ready)
    (hn : s.nleaf = 1) (hk : ∀ j, 0 < freqAt s j ↔ j = k) (j : Nat) : codeAt s j = if j = k then [false] else [] := by
  by_cases hj : j < s.cfg.nsym
  · rw [codeAt_of_oneLeaf hinv hrun hready hn hj]
    exact if_congr (hk j) rfl rfl
  · have hne : j ≠ k := fun heq => hj (lt_nsym_of_counted hinv.memory ((hk j).mpr heq))
    rw [if_neg hne]
    exact Table.get_of_ge hinv.memory.2.2.1 (Nat.not_lt.mp hj)

/-- The longest code of a one-leaf tree has one bit. -/
theorem longestCode_of_oneLeaf (hk : k < s.cfg.nsym) (hcode : ∀ j, codeAt s j = if j = k then [false] else []) :
    longestCode s.cfg s.code = 1 := by
  have hle := length_le_longestCode s.code hk
  obtain ⟨j, -, hj⟩ := exists_length_eq_longestCode s.cfg s.code
  have hk1 : (codeAt s k).length = 1 := by rw [hcode, if_pos rfl]; rfl
  have hj1 : (codeAt s j).length ≤ 1 := by rw [hcode]; split <;> simp
  exact Nat.le_antisymm (hj ▸ hj1) (hk1 ▸ hle)

/-- Settles O45: the state BUILD leaves is one of READY with one leaf. -/
theorem oneSymbolGetsTheCodeZero : Obligations.OneSymbolGetsTheCodeZero := by
  intro s hinv hrun hphase hn
  have hexec : exec .build s = .next (complete .ok (buildTables s)) :=
    (exec_build_of_counting hphase).trans (if_neg (by omega))
  have hinv' := exec_inv hinv hrun hexec
  obtain ⟨k, hks, hcounted⟩ := exists_counted_of_oneLeaf hinv' hrun hn
  have hk : 0 < freqAt s k := (hcounted k).mpr rfl
  have hlt := lt_nsym_of_counted hinv.memory hk
  obtain ⟨-, hroot, hweighs⟩ := ready_weighs hinv' hrun rfl
  have hroot0 : (complete .ok (buildTables s)).root = 0 := by
    have hn' : (complete .ok (buildTables s)).nleaf = 1 := hn
    omega
  have hcode := codeAt_of_oneLeaf_eq hinv' hrun rfl hn hcounted
  have hlongest := longestCode_of_oneLeaf (s := complete .ok (buildTables s)) hlt hcode
  rw [hks, hroot0] at hweighs
  exact ⟨_, k, hexec, hlt, hk, hroot0, hweighs.grows.leaf (i := 0) rfl,
    fun i hi => hweighs.blank (Nat.one_le_iff_ne_zero.mpr hi), (hcode k).trans (if_pos rfl),
    fun j hj => (hcode j).trans (if_neg hj), congrArg zext32 hroot0, congrArg zext32 hn, congrArg zext32 hlongest⟩

/-! ### What BUILD depends on -/

/-- In COUNTING, BUILD reads the parameters and the counts only. -/
theorem builtTree_of_counting (hinv : s.Inv) (hrun : s.resetState = .running) (hphase : s.phase = .counting) :
    builtTree s = treeBuild s.cfg s.freq (presentSymbols s.cfg s.freq).length [] ∧
      builtCode s = codeAssign (builtTree s).1 (presentSymbols s.cfg s.freq).length (builtTree s).2 [] := by
  obtain ⟨⟨-, -, hnleaf⟩, hcounting, -⟩ := hinv.running hrun
  obtain ⟨hnode, hcode, -⟩ := hcounting hphase
  rw [builtCode, hcode, ← hnleaf]
  exact ⟨by rw [builtTree, hnode], rfl⟩

theorem exec_build_ok (hphase : s.phase = .counting) (hn : s.nleaf ≠ 0) {u : State} (h : exec .build s = .next u) :
    u = complete .ok (buildTables s) := by
  rw [exec_build_of_counting hphase, if_neg hn] at h
  cases h
  rfl

/-- Settles O50: canonical tables with the same counts are the same table, and BUILD reads nothing else. -/
theorem codesDependOnlyOnCounts : Obligations.CodesDependOnlyOnCounts := by
  intro s t u v hinvs hinvt hruns hrunt hcfg hcounts hphases hphaset hn hexecs hexect
  have hfreq : s.freq = t.freq := Table.ext_of_get hinvs.memory.1 (hcfg ▸ hinvt.memory.1) hcounts
  have hn' : t.nleaf ≠ 0 := by
    obtain ⟨⟨-, -, hnleafs⟩, -⟩ := hinvs.running hruns
    obtain ⟨⟨-, -, hnleaft⟩, -⟩ := hinvt.running hrunt
    rwa [hnleaft, ← hcfg, ← hfreq, ← hnleafs]
  rw [exec_build_ok hphases hn hexecs, exec_build_ok hphaset hn' hexect]
  obtain ⟨htrees, hcodes⟩ := builtTree_of_counting hinvs hruns hphases
  obtain ⟨htreet, hcodet⟩ := builtTree_of_counting hinvt hrunt hphaset
  have htree : builtTree s = builtTree t := by rw [htrees, htreet, hcfg, hfreq]
  have hcode : builtCode s = builtCode t := by rw [hcodes, hcodet, htree, hcfg, hfreq]
  exact ⟨hcode, congrArg Prod.fst htree, congrArg Prod.snd htree⟩

end Sys2Proof.Machine
end

section
/-! ## The codes: lengths, prefixes, and parses (43_code_assigner.md R141, R142)

Codes are leaf paths of one tree. A walk that has reached a leaf cannot go on, so no code begins another; and a walk along
any bits reaches a leaf, since the indices fall. -/

namespace Sys2Proof.Machine

open Sys2Proof

variable {t : Table Node} {freq : Table Nat} {ks : List Nat} {p p' : Code} {bits : Nat → Bool} {j k root v : Nat}
  {s : State}

/-- In READY there is at least one leaf. -/
theorem one_or_two_le_nleaf (hinv : s.Inv) (hrun : s.resetState = .running) (hready : s.phase = .ready) :
    s.nleaf = 1 ∨ 2 ≤ s.nleaf := by
  obtain ⟨hpos, -⟩ := (hinv.running hrun).2.2 hready
  omega

/-! ### Lengths -/

theorem length_codeAt_le (hinv : s.Inv) (hrun : s.resetState = .running) (hready : s.phase = .ready)
    (hk : 0 < freqAt s k) : (codeAt s k).length ≤ max 1 (s.nleaf - 1) := by
  rcases one_or_two_le_nleaf hinv hrun hready with hn | hn
  · rw [codeAt_of_oneLeaf hinv hrun hready hn (lt_nsym_of_counted hinv.memory hk), if_pos hk]
    exact le_max_left _ _
  · have hpath := (leafPath_iff_code hinv hrun hready hn).mpr ⟨hk, rfl⟩
    exact (length_leafPath_of_tree hinv hrun hready hn hpath).2.trans (le_max_right _ _)

/-- Settles O47: a counted symbol's code has from 1 to NLEAF - 1 bits, or 1 in a one-leaf tree, and any other symbol's
has none. -/
theorem countedSymbolsHaveCodes : Obligations.CountedSymbolsHaveCodes := by
  intro s hinv hrun hready k hk
  rcases Nat.eq_zero_or_pos (freqAt s k) with h0 | hpos
  · rw [(codeIsThePathToTheLeaf s hinv hrun hready k hk).1 h0, h0]
    simp
  · obtain ⟨⟨-, -, hnleaf⟩, -⟩ := hinv.running hrun
    have hle : s.nleaf ≤ s.cfg.nsym := hnleaf ▸ length_presentSymbols_le s.cfg s.freq
    refine ⟨iff_of_true (length_codeAt_pos hinv hrun hready hpos) hpos, ?_⟩
    refine (length_codeAt_le hinv hrun hready hpos).trans ?_
    unfold Config.maxCodeLen
    omega

/-! ### No code begins another -/

theorem eq_of_code_prefix (hinv : s.Inv) (hrun : s.resetState = .running) (hready : s.phase = .ready)
    (hj : 0 < freqAt s j) (hk : 0 < freqAt s k) (hpre : codeAt s j <+: codeAt s k) : j = k := by
  rcases one_or_two_le_nleaf hinv hrun hready with hn | hn
  · obtain ⟨x, -, hcounted⟩ := exists_counted_of_oneLeaf hinv hrun hn
    exact ((hcounted j).mp hj).trans ((hcounted k).mp hk).symm
  · have hpathj := (leafPath_iff_code hinv hrun hready hn).mpr ⟨hj, rfl⟩
    have hpathk := (leafPath_iff_code hinv hrun hready hn).mpr ⟨hk, rfl⟩
    have hcode := hpathj.eq_of_prefix hpathk hpre
    rw [← hpathj.sym, hcode, hpathk.sym]

/-- Settles O48: a code that begins another is the same symbol's. -/
theorem codesArePrefixFree : Obligations.CodesArePrefixFree := fun _ hinv hrun hready _ _ hj hk hne hpre =>
  hne (eq_of_code_prefix hinv hrun hready hj hk hpre)

/-- Two counted symbols whose codes begin the same bits are one symbol. -/
theorem eq_of_prefixes (hinv : s.Inv) (hrun : s.resetState = .running) (hready : s.phase = .ready)
    (hj : 0 < freqAt s j) (hk : 0 < freqAt s k) {c : List Bool} (hprej : codeAt s j <+: c) (hprek : codeAt s k <+: c) :
    j = k := by
  rcases List.prefix_or_prefix_of_prefix hprej hprek with h | h
  · exact eq_of_code_prefix hinv hrun hready hj hk h
  · exact (eq_of_code_prefix hinv hrun hready hk hj h).symm

/-! ### Completeness -/

/-- The bits of `p` are the first of the infinite sequence `bits`. -/
def Begins (p : Code) (bits : Nat → Bool) : Prop := ∀ m, m < p.length → p.getD m false = bits m

theorem begins_cons {b : Bool} (hb : b = bits 0) (hp : Begins p fun m => bits (m + 1)) : Begins (b :: p) bits := by
  intro m hm
  cases m with
  | zero => exact hb
  | succ m => exact hp m (Nat.lt_of_succ_lt_succ hm)

theorem begins_iff : Begins p bits ↔ p = (List.range p.length).map bits := by
  constructor
  · intro h
    refine List.ext_getElem (by simp) fun m hm _ => ?_
    rw [List.getElem_map, List.getElem_range, ← h m hm, List.getD_eq_getElem _ _ hm]
  · intro h m hm
    rw [h]
    simp [hm]

/-- Of two finite beginnings of one sequence the shorter begins the longer. -/
theorem Begins.isPrefix (hp : Begins p bits) (hp' : Begins p' bits) (hle : p.length ≤ p'.length) : p <+: p' := by
  rw [begins_iff.mp hp, begins_iff.mp hp', ← Nat.add_sub_of_le hle, List.range_add, List.map_append]
  exact List.prefix_append _ _

/-- From every node of the finished tree the walk along a bit sequence reaches a leaf. -/
theorem GrowsFrom.exists_leafPath_begins (h : GrowsFrom freq ks t [root] (root + 1)) (hv : v ≤ root)
    (bits : Nat → Bool) : ∃ p k, LeafPath t v p k ∧ Begins p bits := by
  induction v using Nat.strong_induction_on generalizing bits with
  | _ v ih =>
    by_cases hlt : v < ks.length
    · exact ⟨[], _, leafPath_nil_iff.mpr ⟨h.leaf_of_lt hlt, rfl⟩, fun m hm => absurd hm (Nat.not_lt_zero m)⟩
    · have hge := Nat.not_lt.mp hlt
      have hchild := h.child_lt hge (Nat.lt_succ_of_le hv) (bits 0)
      obtain ⟨p, k, hp, hbegins⟩ := ih _ hchild (hchild.le.trans hv) fun m => bits (m + 1)
      exact ⟨bits 0 :: p, k, leafPath_cons_iff.mpr ⟨h.internal hge (Nat.lt_succ_of_le hv), hp⟩, begins_cons rfl hbegins⟩

/-- Settles O49: the walk along the sequence from the root ends at a leaf, and no counted symbol's code begins
another's. -/
theorem codesAreComplete : Obligations.CodesAreComplete := by
  intro s hinv hrun hready hn bits
  obtain ⟨-, -, hgrows, -⟩ := ready_tree hinv hrun hready hn
  obtain ⟨p, k, hp, hbegins⟩ := hgrows.exists_leafPath_begins le_rfl bits
  obtain ⟨hk, rfl⟩ := (leafPath_iff_code hinv hrun hready hn).mp hp
  refine ⟨k, ⟨hk, hbegins⟩, fun j hj (hbegins' : Begins (codeAt s j) bits) => ?_⟩
  rcases le_total (codeAt s j).length (codeAt s k).length with hle | hle
  · exact eq_of_code_prefix hinv hrun hready hj hk (hbegins'.isPrefix hbegins hle)
  · exact (eq_of_code_prefix hinv hrun hready hk hj (hbegins.isPrefix hbegins' hle)).symm

/-! ### Parses -/

/-- Sequences of counted symbols with the same concatenated codes are the same sequence. -/
theorem eq_of_flatten_codes (hinv : s.Inv) (hrun : s.resetState = .running) (hready : s.phase = .ready)
    {ys zs : List Nat} (hys : ∀ y ∈ ys, 0 < freqAt s y) (hzs : ∀ z ∈ zs, 0 < freqAt s z)
    (h : (ys.map (codeAt s)).flatten = (zs.map (codeAt s)).flatten) : ys = zs := by
  have hne : ∀ {k}, 0 < freqAt s k → codeAt s k ≠ [] := fun hk =>
    List.ne_nil_of_length_pos (length_codeAt_pos hinv hrun hready hk)
  induction ys generalizing zs with
  | nil =>
    cases zs with
    | nil => rfl
    | cons z zs => exact absurd (List.append_eq_nil_iff.mp h.symm).1 (hne (hzs z List.mem_cons_self))
  | cons y ys ih =>
    cases zs with
    | nil => exact absurd (List.append_eq_nil_iff.mp h).1 (hne (hys y List.mem_cons_self))
    | cons z zs =>
      rw [List.forall_mem_cons] at hys hzs
      simp only [List.map_cons, List.flatten_cons] at h
      obtain rfl : y = z := eq_of_prefixes hinv hrun hready hys.1 hzs.1 (List.prefix_append _ _)
        (by rw [h]; exact List.prefix_append _ _)
      rw [ih hys.2 hzs.2 (List.append_cancel_left h)]

/-- Settles O56: the code that begins what is left would begin the cut code, and so be the cut code, which is longer. -/
theorem cutCodeIsTruncatedStream : Obligations.CutCodeIsTruncatedStream := by
  intro s k hinv hrun hready hk hlt hcut htake
  have heos : eos s = false := decide_eq_false hlt.ne
  rcases exec_dec_of_ready hinv hrun hready heos with ⟨j, ⟨hj, hpre⟩, -⟩ | ⟨-, hexec⟩
  · have hpre' : codeAt s j <+: codeAt s k := hpre.trans (by rw [unread, htake]; exact List.take_prefix _ _)
    obtain rfl := eq_of_code_prefix hinv hrun hready hj hk hpre'
    have hle := hpre.length_le
    rw [unread, length_streamBits] at hle
    omega
  · have hn : s.nleaf ≠ 1 := fun hn => by
      have hle := length_codeAt_le hinv hrun hready hk
      rw [hn] at hle
      omega
    rwa [pathError, if_neg hn] at hexec

end Sys2Proof.Machine
end

section
/-! ## Sessions (41_frequency_counter.md R113, 44_bitstream_encoder.md R151, 45_bitstream_decoder.md R171, R172)

What successful COUNTs of a list of symbols add to the counts, what successful ENCs of it add to the stream, and what DECs
make of a stream of codes: each by induction on the list. -/

namespace Sys2Proof.Machine

open Sys2Proof

variable {s t u : State} {a k x y : Nat} {is : List Instr} {xs ys : List Nat}

/-- Successful commands keep the invariant, and the block out of reset. -/
theorem runCommands_inv (hinv : s.Inv) (hrun : s.resetState = .running) (h : runCommands is s = some t) :
    t.Inv ∧ t.resetState = .running ∧ t.cfg = s.cfg := by
  induction is generalizing s with
  | nil => cases h; exact ⟨hinv, hrun, rfl⟩
  | cons i is ih =>
    obtain ⟨u, hexec, -, hrest⟩ := runCommands_cons_some h
    have hframe := exec_frame hexec
    obtain ⟨hinv', hrun', hcfg⟩ := ih (exec_inv hinv hrun hexec) (hframe.resetState.trans hrun) hrest
    exact ⟨hinv', hrun', hcfg.trans hframe.cfg⟩

/-! ### Counting -/

/-- A COUNT that succeeds has passed its checks. -/
theorem exec_count_success (h : exec (.count a) s = .next t) (herr : t.err = .ok) :
    t = complete .ok (countSymbol a s) ∧ a < s.cfg.nsym := by
  obtain ⟨rfl, -⟩ | ⟨rfl, -⟩ | ⟨rfl, -⟩ | ⟨ht, -, ha, -⟩ := execCount_cases h
  case inr.inr.inr => exact ⟨ht, ha⟩
  all_goals cases herr

/-- `t` is `s` after successful COUNTs of `xs`. -/
structure Counted (s : State) (xs : List Nat) (t : State) : Prop where
  freq : ∀ k, freqAt t k = freqAt s k + xs.count k
  total : t.total = s.total + xs.length
  bslen : t.bslen = s.bslen

theorem counted_of_runCommands (hwf : Memory.wf s) (h : runCommands (xs.map .count) s = some t) : Counted s xs t := by
  induction xs generalizing s with
  | nil => cases h; exact ⟨fun _ => rfl, rfl, rfl⟩
  | cons x xs ih =>
    obtain ⟨u, hexec, herr, hrest⟩ := runCommands_cons_some h
    obtain ⟨rfl, hx⟩ := exec_count_success hexec herr
    obtain ⟨hfreq, htotal, hbslen⟩ := ih (memory_wf_complete (memory_wf_countSymbol hwf hx) _) hrest
    refine ⟨fun k => ?_, ?_, hbslen⟩
    · rw [hfreq, freqAt_complete, freqAt_countSymbol hwf, List.count_cons]
      by_cases hk : k = x
      · rw [if_pos hk, if_pos (by simp [hk]), hk]
        omega
      · rw [if_neg hk, if_neg (by simp [Ne.symm hk]), Nat.add_zero]
    · rw [htotal, complete_total, countSymbol_total, List.length_cons]
      omega

/-- In COUNTING, COUNTs of symbols of the alphabet succeed while TOTAL has room for them. -/
theorem exists_runCommands_count (hphase : s.phase = .counting) (hxs : ∀ x ∈ xs, x < s.cfg.nsym)
    (htotal : s.total + xs.length ≤ s.cfg.cntMax) : ∃ t, runCommands (xs.map .count) s = some t := by
  induction xs generalizing s with
  | nil => exact ⟨s, rfl⟩
  | cons x xs ih =>
    rw [List.forall_mem_cons] at hxs
    rw [List.length_cons] at htotal
    have hexec : exec (.count x) s = .next (complete .ok (countSymbol x s)) :=
      (exec_count_of_lt hphase hxs.1).trans (if_neg (by omega))
    obtain ⟨t, ht⟩ := ih (s := complete .ok (countSymbol x s)) hphase hxs.2
      (by simp only [complete_total, countSymbol_total, complete_cfg, countSymbol_cfg]; omega)
    exact ⟨t, (runCommands_cons hexec rfl).trans ht⟩

theorem runCommands_clear (is : List Instr) (s : State) :
    runCommands (.clear :: is) s = runCommands is (complete .ok (clearSession s)) := runCommands_cons (exec_clear s) rfl

/-- After CLEAR and successful COUNTs the counts are the numbers of occurrences. -/
theorem counted_session (h : runCommands (.clear :: xs.map .count) s = some t) :
    (∀ k, freqAt t k = xs.count k) ∧ t.total = xs.length ∧ t.bslen = 0 := by
  rw [runCommands_clear] at h
  obtain ⟨hfreq, htotal, hbslen⟩ := counted_of_runCommands (memory_wf_complete (memory_wf_clearSession s) _) h
  refine ⟨fun k => ?_, ?_, hbslen⟩
  · rw [hfreq, freqAt_complete, (tables_clearSession s k).1, Nat.zero_add]
  · rw [htotal, complete_total, clearSession_total, Nat.zero_add]

/-- When the counts are those of a list, the present symbols are its distinct members. -/
theorem length_presentSymbols_eq_dedup (hwf : Memory.wf t) (h : ∀ k, freqAt t k = xs.count k) :
    (presentSymbols t.cfg t.freq).length = xs.dedup.length := by
  refine List.Perm.length_eq ((List.perm_ext_iff_of_nodup (nodup_presentSymbols _ _) (List.nodup_dedup xs)).mpr fun k => ?_)
  rw [mem_presentSymbols, List.mem_dedup, ← List.count_pos_iff, ← h k]
  exact ⟨And.right, fun hk => ⟨lt_nsym_of_counted hwf hk, hk⟩⟩

/-- Settles O51: by induction on the input; and NLEAF is the number of present symbols by the invariant. -/
theorem countingGivesTheFrequencies : Obligations.CountingGivesTheFrequencies := by
  refine fun s xs hinv hrun => ⟨fun t h => ?_, fun hxs hlen => ?_⟩
  · obtain ⟨hfreq, htotal, -⟩ := counted_session h
    obtain ⟨hinv', hrun', -⟩ := runCommands_inv hinv hrun h
    obtain ⟨⟨-, -, hnleaf⟩, -⟩ := hinv'.running hrun'
    exact ⟨hfreq, htotal, hnleaf.trans (length_presentSymbols_eq_dedup hinv'.memory hfreq)⟩
  · rw [runCommands_clear]
    exact exists_runCommands_count rfl hxs (by simpa using hlen)

/-! ### Encoding -/

/-- An ENC that succeeds has passed its checks. -/
theorem exec_enc_success (h : exec (.enc a) s = .next t) (herr : t.err = .ok) :
    t = complete .ok (appendCode a s) := by
  obtain ⟨rfl, -⟩ | ⟨rfl, -⟩ | ⟨rfl, -⟩ | ⟨rfl, -⟩ | ⟨ht, -⟩ := execEnc_cases h
  case inr.inr.inr.inr => exact ht
  all_goals cases herr

/-- The codes of the symbols of `xs`, one after the other. -/
def codesOf (s : State) (xs : List Nat) : List Bool := (xs.map (codeAt s)).flatten

theorem codesOf_cons (s : State) (x : Nat) (xs : List Nat) : codesOf s (x :: xs) = codeAt s x ++ codesOf s xs := rfl

/-- ENC appends the symbol's code to the stream. -/
theorem streamBits_appendCode (hwf : Memory.wf s) (a : Nat) :
    streamBits (appendCode a s) 0 (appendCode a s).bslen = streamBits s 0 s.bslen ++ codeAt s a := by
  rw [appendCode_bslen, streamBits_add, Nat.zero_add]
  congr 1
  · refine List.map_congr_left fun p hp => bsBit_appendCode_other hwf (.inl ?_)
    rw [Nat.zero_add]
    exact List.mem_range.mp hp
  · refine List.ext_getElem (length_streamBits _ _ _) fun m _ hm => ?_
    simp only [streamBits, List.getElem_map, List.getElem_range]
    rw [bsBit_appendCode_of_lt hwf hm, List.getD_eq_getElem _ _ hm]

/-- `t` is `s` after successful ENCs of `xs`: their codes are appended to the stream. -/
structure Encoded (s : State) (xs : List Nat) (t : State) : Prop where
  stream : streamBits t 0 t.bslen = streamBits s 0 s.bslen ++ codesOf s xs
  freq : t.freq = s.freq
  code : t.code = s.code
  phase : t.phase = s.phase

theorem encoded_of_runCommands (hinv : s.Inv) (hrun : s.resetState = .running)
    (h : runCommands (xs.map .enc) s = some t) : Encoded s xs t := by
  induction xs generalizing s with
  | nil => cases h; exact ⟨(List.append_nil _).symm, rfl, rfl, rfl⟩
  | cons x xs ih =>
    obtain ⟨u, hexec, herr, hrest⟩ := runCommands_cons_some h
    have hinv' := exec_inv hinv hrun hexec
    obtain rfl := exec_enc_success hexec herr
    obtain ⟨hstream, hfreq, hcode, hphase⟩ := ih hinv' hrun hrest
    refine ⟨?_, hfreq, hcode, hphase⟩
    rw [hstream, codesOf_cons, ← List.append_assoc]
    exact congrArg (· ++ codesOf s xs) (streamBits_appendCode hinv.memory x)

theorem Encoded.freqAt_eq (h : Encoded s xs t) (k : Nat) : freqAt t k = freqAt s k := by
  rw [freqAt, freqAt, h.freq]

theorem Encoded.codesOf_eq (h : Encoded s xs t) (ys : List Nat) : codesOf t ys = codesOf s ys := by
  have hcode : codeAt t = codeAt s := funext fun k => by rw [codeAt, codeAt, h.code]
  rw [codesOf, codesOf, hcode]

/-- The stream is longer by the codes. -/
theorem Encoded.bslen (h : Encoded s xs t) : t.bslen = s.bslen + (codesOf s xs).length := by
  simpa using congrArg List.length h.stream

/-- The old stream stands first, and the codes after it. -/
theorem Encoded.split (h : Encoded s xs t) :
    streamBits t 0 s.bslen = streamBits s 0 s.bslen ∧
      streamBits t s.bslen (t.bslen - s.bslen) = codesOf s xs := by
  have hsplit : streamBits t 0 s.bslen ++ streamBits t s.bslen (t.bslen - s.bslen) =
      streamBits s 0 s.bslen ++ codesOf s xs := by
    rw [← h.stream, show t.bslen = s.bslen + (t.bslen - s.bslen) by have := h.bslen; omega, streamBits_add, Nat.zero_add,
      Nat.add_sub_cancel_left]
  exact List.append_inj hsplit (by simp)

/-- A sum over the members of a list is a sum over the alphabet, each symbol weighed by its occurrences. -/
theorem sum_map_eq_sum_range_count {n : Nat} (f : Nat → Nat) (hxs : ∀ x ∈ xs, x < n) :
    (xs.map f).sum = ((List.range n).map fun k => xs.count k * f k).sum := by
  have hsub : xs.toFinset ⊆ Finset.range n := fun x hx => Finset.mem_range.mpr (hxs x (List.mem_toFinset.mp hx))
  rw [Finset.sum_list_map_count]
  refine (Finset.sum_subset hsub fun k _ hk => ?_).trans rfl
  rw [List.count_eq_zero_of_not_mem fun hmem => hk (List.mem_toFinset.mpr hmem), zero_smul]

/-- The codes of an input are as long as FREQ times code length, summed over the alphabet. -/
theorem length_codesOf (hwf : Memory.wf s) (h : ∀ k, xs.count k = freqAt s k) :
    (codesOf s xs).length = ((List.range s.cfg.nsym).map fun k => freqAt s k * (codeAt s k).length).sum := by
  have hxs : ∀ x ∈ xs, x < s.cfg.nsym := fun x hx => lt_nsym_of_counted hwf (h x ▸ List.count_pos_iff.mpr hx)
  rw [codesOf, List.length_flatten, List.map_map, sum_map_eq_sum_range_count _ hxs]
  simp only [h, Function.comp]

/-- Settles O52: by induction on the input, each ENC appending one code. -/
theorem encodingConcatenatesTheCodes : Obligations.EncodingConcatenatesTheCodes := by
  intro s t xs hinv hrun _ h
  have hencoded := encoded_of_runCommands hinv hrun h
  have hbslen := hencoded.bslen
  obtain ⟨hold, hnew⟩ := hencoded.split
  refine ⟨hbslen, hnew, hold, fun hcounts => ?_⟩
  rw [hbslen, Nat.add_sub_cancel_left, length_codesOf hinv.memory hcounts]

/-! ### Decoding -/

/-- A run of DECs that is not over begins with a successful DEC before EOS. -/
theorem decodeMany_succ_some {n : Nat} {ws : List Word} (h : decodeMany (n + 1) s = some (ws, t)) :
    eos s = false ∧ ∃ u ws', exec .dec s = .next u ∧ u.err = .ok ∧ decodeMany n u = some (ws', t) := by
  rw [decodeMany] at h
  split at h
  · cases h
  · next heos =>
    split at h
    · cases h
    · next u hdec =>
      obtain ⟨v, hexec, herr, hv⟩ := runCommands_cons_some hdec
      cases hv
      split at h
      · cases h
      · next ws' w hrest =>
        cases h
        exact ⟨Bool.eq_false_iff.mpr heos, u, ws', hexec, herr, hrest⟩

/-- A successful DEC returns the symbol of the next code. -/
theorem exec_dec_success (hinv : s.Inv) (hrun : s.resetState = .running) (hready : s.phase = .ready)
    (heos : eos s = false) (h : exec .dec s = .next u) (herr : u.err = .ok) : ∃ k, NextCode s k ∧ u = decoded k s := by
  rcases exec_dec_of_ready hinv hrun hready heos with ⟨k, hk, hexec⟩ | ⟨-, hexec⟩
  · rw [h] at hexec
    cases hexec
    exact ⟨k, hk, rfl⟩
  · rw [h] at hexec
    cases hexec
    have hne : pathError s ≠ .ok := by unfold pathError; split <;> exact nofun
    exact absurd herr hne

/-- Successful DECs, before EOS each, return the symbols of a parse. -/
theorem decodes_of_decodeMany (hinv : s.Inv) (hrun : s.resetState = .running) (hready : s.phase = .ready) {n : Nat}
    {ws : List Word} (h : decodeMany n s = some (ws, t)) : ∃ ys, ys.length = n ∧ Decodes s ys t := by
  induction n generalizing s ws with
  | zero => cases h; exact ⟨[], rfl, .nil _⟩
  | succ n ih =>
    obtain ⟨heos, u, ws', hexec, herr, hrest⟩ := decodeMany_succ_some h
    obtain ⟨k, hk, rfl⟩ := exec_dec_success hinv hrun hready heos hexec herr
    obtain ⟨ys, hlen, hys⟩ := ih (inv_decoded hinv hrun hk) hrun hready hrest
    exact ⟨k :: ys, congrArg Nat.succ hlen, hys.cons heos hk hexec⟩

/-- Settles O53: the DECs return a parse of the stream, and the codes have one parse at most. -/
theorem decodingIsTheUniqueParse : Obligations.DecodingIsTheUniqueParse := by
  intro s t n ws hinv hrun hready hbsrd h heos
  obtain ⟨ys, rfl, hys⟩ := decodes_of_decodeMany hinv hrun hready h
  have hws : ws = ys.map (BitVec.ofNat 32) := by
    have hrun' := hys.run
    rw [h] at hrun'
    exact (Prod.mk.inj (Option.some.inj hrun')).1
  have hcodes := hys.codes
  rw [hbsrd, Nat.sub_zero, (of_decide_eq_true heos : t.bsrd = t.bslen), hys.bslen] at hcodes
  exact ⟨ys, hys.counted, hws, hcodes, fun zs hzs hzcodes =>
    eq_of_flatten_codes hinv hrun hready hzs hys.counted (hzcodes.trans hcodes.symm)⟩

/-- When the next code of the stream is `k`'s, what is left after it is the rest. -/
theorem unread_eq_append (hk : NextCode s k) : unread s = codeAt s k ++ unread (decoded k s) := by
  obtain ⟨-, hle, hbits⟩ := nextCode_iff_streamBits.mp hk
  have hrest : unread (decoded k s) =
      streamBits s (s.bsrd + (codeAt s k).length) (s.bslen - s.bsrd - (codeAt s k).length) := by
    rw [unread, decoded_bsrd, decoded_bslen, Nat.sub_add_eq]
    rfl
  rw [hrest, unread, ← hbits, length_streamBits, ← streamBits_add, Nat.add_sub_of_le hle]

/-- When the unread stream is the codes of counted symbols, as many DECs return them and exhaust the stream. -/
theorem exists_decodes_of_codes (hinv : s.Inv) (hrun : s.resetState = .running) (hready : s.phase = .ready)
    (hys : ∀ y ∈ ys, 0 < freqAt s y) (hcodes : unread s = codesOf s ys) : ∃ t, Decodes s ys t ∧ eos t = true := by
  induction ys generalizing s with
  | nil =>
    have hlen : s.bslen - s.bsrd = 0 := by simpa [unread, codesOf] using congrArg List.length hcodes
    have hle := hinv.stream.1
    exact ⟨s, .nil s, decide_eq_true (by omega)⟩
  | cons y ys ih =>
    rw [List.forall_mem_cons] at hys
    obtain ⟨hy, hys⟩ := hys
    rw [codesOf_cons] at hcodes
    have hpre : codeAt s y <+: unread s := hcodes ▸ List.prefix_append _ _
    have heos : eos s = false := by
      have hpos := length_codeAt_pos hinv hrun hready hy
      have hle := hpre.length_le
      rw [unread, length_streamBits] at hle
      exact decide_eq_false (by omega)
    rcases exec_dec_of_ready hinv hrun hready heos with ⟨k, hk, hexec⟩ | ⟨hnone, -⟩
    · obtain rfl : k = y := eq_of_prefixes hinv hrun hready hk.1 hy hk.2 hpre
      rw [unread_eq_append hk] at hcodes
      obtain ⟨t, ht, heos'⟩ := ih (inv_decoded hinv hrun hk) hrun hready hys (List.append_cancel_left hcodes)
      exact ⟨t, ht.cons heos hk hexec, heos'⟩
    · exact absurd ⟨hy, hpre⟩ (hnone y)

/-! ### The round trip -/

theorem runCommands_append_some {js : List Instr} (h : runCommands (is ++ js) s = some u) :
    ∃ t, runCommands is s = some t ∧ runCommands js t = some u := by
  rw [runCommands_append] at h
  exact Option.bind_eq_some_iff.mp h

/-- A BUILD that succeeds has passed its checks. -/
theorem exec_build_success (h : exec .build s = .next t) (herr : t.err = .ok) : t = complete .ok (buildTables s) := by
  obtain ⟨rfl, -⟩ | ⟨rfl, -⟩ | ⟨ht, -⟩ := execBuild_cases h
  case inr.inr => exact ht
  all_goals cases herr

/-- After CLEAR, COUNTs, BUILD and ENCs of an input, all successful, every symbol of the input is counted and the stream is
the input's codes. -/
theorem encoded_session (hinv : s.Inv) (hrun : s.resetState = .running)
    (h : runCommands (.clear :: xs.map .count ++ .build :: xs.map .enc) s = some t) :
    t.Inv ∧ t.resetState = .running ∧ t.phase = .ready ∧ (∀ x ∈ xs, 0 < freqAt t x) ∧
      streamBits t 0 t.bslen = codesOf t xs := by
  obtain ⟨hinv', hrun', -⟩ := runCommands_inv hinv hrun h
  obtain ⟨c, hcount, hbuild⟩ := runCommands_append_some h
  obtain ⟨hfreq, -, hbslen⟩ := counted_session hcount
  obtain ⟨hinvc, hrunc, -⟩ := runCommands_inv hinv hrun hcount
  obtain ⟨b, hexec, herr, henc⟩ := runCommands_cons_some hbuild
  have hinvb := exec_inv hinvc hrunc hexec
  obtain rfl := exec_build_success hexec herr
  have hencoded := encoded_of_runCommands hinvb hrunc henc
  refine ⟨hinv', hrun', hencoded.phase, fun x hx => ?_, ?_⟩
  · have hx' : freqAt t x = xs.count x := (hencoded.freqAt_eq x).trans (hfreq x)
    rw [hx']
    exact List.count_pos_iff.mpr hx
  · rw [hencoded.stream, hencoded.codesOf_eq, complete_bslen, buildTables_bslen, hbslen]
    rfl

/-- Settles O55: after REWIND the unread stream is the input's codes, which the DECs return. -/
theorem roundTrip : Obligations.RoundTrip := by
  intro s u xs hinv hrun h
  obtain ⟨e, hencode, hrewind⟩ := runCommands_append_some h
  obtain ⟨hinve, hrune, hready, hcounted, hstream⟩ := encoded_session hinv hrun hencode
  obtain ⟨v, hexec, -, hv⟩ := runCommands_cons_some hrewind
  cases hv
  have hinvu := exec_inv hinve hrune hexec
  obtain rfl := execRewind_cases hexec
  obtain ⟨t, ht, heos⟩ := exists_decodes_of_codes (ys := xs) hinvu hrune hready hcounted hstream
  exact ⟨t, ht.run, heos⟩

end Sys2Proof.Machine
end
